-- ==== Sys2Proof/Word.lean ====
section
/-! DEFINITION. The word types of the CRCM core and the closed sets of names that its selector fields stand for. -/

namespace Sys2Proof

/-- A host-visible register: 32 bits for every register and every style (10_state.md R15). -/
abbrev Word := BitVec 32

/-- The core's data unit, and every 8-bit field of a command (00_scope.md R7, 30_encoding.md R58). -/
abbrev Byte := BitVec 8

/-- A command word: 64 bits (30_encoding.md R57). -/
abbrev Cmd := BitVec 64

/-- The three CRC styles; no fourth exists (00_scope.md R2). -/
inductive Style where
  | r16
  | n16
  | p32
  deriving DecidableEq, Repr

/-- The registers WRREG can write (30_encoding.md R60, selector values). -/
inductive ValueReg where
  | state
  | initXor
  | finalXor
  | refState
  deriving DecidableEq, Repr

/-- The tables TABRD and TABWR select (30_encoding.md R60, selector values). -/
inductive TableId where
  | ft
  | it
  deriving DecidableEq, Repr

end Sys2Proof
end

