-- ==== Sys2Proof/Syntax.lean ====
section
/-! DEFINITION. The commands of the CRCM core: one constructor per row of the opcode table, with the operands its row names. -/

namespace Sys2Proof

/-- A command (30_encoding.md R60). CFG keeps the two selector bits its table row leaves open: the
value 3 is a word of the row that names no style (R61), and WellFormed refuses it (DESIGN CHOICE, log 14). -/
inductive Instr where
  | nop
  | cfg (styleCode : BitVec 2) (dbg : Bool)
  | pclr
  | pexp (e : Byte)
  | pld (imm : Word)
  | prev
  | wrreg (reg : ValueReg) (imm : Word)
  | xix
  | xfx
  | buildf
  | buildi
  | schk
  | adv (b : Byte)
  | ret (b : Byte)
  | tabrd (tbl : TableId) (idx : Byte)
  | tabwr (tbl : TableId) (idx : Byte) (imm : Word)
  deriving DecidableEq, Repr

end Sys2Proof
end

