-- ==== Sys2Proof/WellFormed.lean ====
section
/-! DEFINITION. Which commands are legal encodings: every field inside its range (30_encoding.md R61). -/

namespace Sys2Proof

/-- The check of R61 that the operand types do not make already: CFG's style selector is 0, 1 or 2. -/
def Instr.wf : Instr → Bool
  | .cfg styleCode _ => styleCode != 3
  | .nop | .pclr | .pexp _ | .pld _ | .prev | .wrreg _ _ | .xix | .xfx | .buildf | .buildi | .schk
  | .adv _ | .ret _ | .tabrd _ _ | .tabwr _ _ _ => true

end Sys2Proof
end

