-- ==== Sys2Proof/Decode.lean ====
section
/-! DEFINITION. Decoding a 64-bit command word, total and rejecting by name, and after it the encoder (30_encoding.md R57 to R64). -/

namespace Sys2Proof

/-- The fields of the one command format C64 (R58). -/
structure Fields where
  op : Byte
  sel : Byte
  idx : Byte
  db : Byte
  imm : Word
  deriving DecidableEq, Repr

/-- R58, R59: each field is an unsigned slice of the word, taken as it stands. -/
def fieldsOf (w : Cmd) : Fields where
  op := w.extractLsb' 56 8
  sel := w.extractLsb' 48 8
  idx := w.extractLsb' 40 8
  db := w.extractLsb' 32 8
  imm := w.extractLsb' 0 32

/-- R58 read the other way: the word that has these fields. -/
def packFields (f : Fields) : Cmd :=
  f.op ++ f.sel ++ f.idx ++ f.db ++ f.imm

/-- The opcodes of the map (R60). -/
inductive Opcode where
  | nop | cfg | pclr | pexp | pld | prev | wrreg | xix | xfx
  | buildf | buildi | schk | adv | ret | tabrd | tabwr
  deriving DecidableEq, Repr

/-- The OP column of R60. -/
def Opcode.code : Opcode → Byte
  | .nop => 0x00
  | .cfg => 0x01
  | .pclr => 0x02
  | .pexp => 0x03
  | .pld => 0x04
  | .prev => 0x05
  | .wrreg => 0x06
  | .xix => 0x07
  | .xfx => 0x08
  | .buildf => 0x10
  | .buildi => 0x11
  | .schk => 0x12
  | .adv => 0x20
  | .ret => 0x21
  | .tabrd => 0x30
  | .tabwr => 0x31

/-- The rows of R60, in the table's order. -/
def Opcode.all : List Opcode :=
  [.nop, .cfg, .pclr, .pexp, .pld, .prev, .wrreg, .xix, .xfx,
   .buildf, .buildi, .schk, .adv, .ret, .tabrd, .tabwr]

/-- The opcode an OP value names, if it is in the map; every other value is reserved (R63). -/
def Opcode.ofByte (b : Byte) : Option Opcode :=
  Opcode.all.find? fun o => o.code == b

/-- WRREG's selector (R60): 0 = STATE, 1 = INITXOR, 2 = FINALXOR, 3 = REFSTATE. -/
def ValueReg.code : ValueReg → Byte
  | .state => 0
  | .initXor => 1
  | .finalXor => 2
  | .refState => 3

/-- WRREG's SEL is legal in 0..3 (R61). -/
def ValueReg.ofByte (b : Byte) : Option ValueReg :=
  [ValueReg.state, .initXor, .finalXor, .refState].find? fun r => r.code == b

/-- The table selector (R60): 0 = FT, 1 = IT. -/
def TableId.code : TableId → Byte
  | .ft => 0
  | .it => 1

/-- TABRD's and TABWR's SEL is legal in 0..1 (R61). -/
def TableId.ofByte (b : Byte) : Option TableId :=
  [TableId.ft, .it].find? fun t => t.code == b

/-- The fields that are reserved for an opcode and must be zero (R60, R61): true where R60 gives the
opcode no use of the field. -/
def Opcode.reservedZero (o : Opcode) (f : Fields) : Bool :=
  let sel := f.sel == 0
  let idx := f.idx == 0
  let db := f.db == 0
  let imm := f.imm == 0
  match o with
  | .nop | .pclr | .prev | .xix | .xfx | .buildf | .buildi | .schk => sel && idx && db && imm
  | .cfg => db && imm
  | .pexp => sel && db && imm
  | .pld => sel && idx && db
  | .wrreg => idx && db
  | .adv | .ret => sel && idx && imm
  | .tabrd => db && imm
  | .tabwr => db

/-- The operands of a word whose reserved fields are zero, or none where SEL or IDX is outside its
range (R61). -/
def Opcode.operands (o : Opcode) (f : Fields) : Option Instr :=
  match o with
  | .nop => some .nop
  | .cfg =>
    if 2 < f.sel.toNat ∨ 1 < f.idx.toNat then none
    else some (.cfg (f.sel.extractLsb' 0 2) (f.idx == 1))
  | .pclr => some .pclr
  | .pexp => some (.pexp f.idx)
  | .pld => some (.pld f.imm)
  | .prev => some .prev
  | .wrreg => (ValueReg.ofByte f.sel).map fun r => .wrreg r f.imm
  | .xix => some .xix
  | .xfx => some .xfx
  | .buildf => some .buildf
  | .buildi => some .buildi
  | .schk => some .schk
  | .adv => some (.adv f.db)
  | .ret => some (.ret f.db)
  | .tabrd => (TableId.ofByte f.sel).map fun t => .tabrd t f.idx
  | .tabwr => (TableId.ofByte f.sel).map fun t => .tabwr t f.idx f.imm

/-- What a 64-bit word is: exactly one of these three (R64). -/
inductive Decoded where
  /-- a legal command of R60 -/
  | legal (i : Instr)
  /-- OP is reserved (R63) -/
  | illegalOpcode
  /-- a reserved field is non-zero, or SEL or IDX is out of range (R62) -/
  | illegalOperand
  deriving DecidableEq, Repr

/-- Steps 1 and 2 of the command cycle (R65) on the fields: the opcode first, then the operands. -/
def decodeFields (f : Fields) : Decoded :=
  match Opcode.ofByte f.op with
  | none => .illegalOpcode
  | some o =>
    match o.reservedZero f, o.operands f with
    | true, some i => .legal i
    | _, _ => .illegalOperand

/-- The decoder: total on 64-bit words, a function of the word alone (R64). -/
def decode (w : Cmd) : Decoded :=
  decodeFields (fieldsOf w)

/-- The command a legal word stands for. -/
def Decoded.instr? : Decoded → Option Instr
  | .legal i => some i
  | .illegalOpcode => none
  | .illegalOperand => none

/-- The decoder on an instruction numbered as the opcode table numbers its bits: one 64-bit word, whose
bits above nbits are 0. A command is never longer than 64 bits (R57). -/
def decodeTableWord (nbits w : Nat) : Option Instr :=
  if 64 < nbits then none
  else (decode (BitVec.ofNat 64 (w % 2 ^ nbits))).instr?

/-- The fields of a command, from the same columns of R60. -/
def encodeFields : Instr → Fields
  | .nop => ⟨Opcode.nop.code, 0, 0, 0, 0⟩
  | .cfg styleCode dbg => ⟨Opcode.cfg.code, styleCode.setWidth 8, (BitVec.ofBool dbg).setWidth 8, 0, 0⟩
  | .pclr => ⟨Opcode.pclr.code, 0, 0, 0, 0⟩
  | .pexp e => ⟨Opcode.pexp.code, 0, e, 0, 0⟩
  | .pld imm => ⟨Opcode.pld.code, 0, 0, 0, imm⟩
  | .prev => ⟨Opcode.prev.code, 0, 0, 0, 0⟩
  | .wrreg reg imm => ⟨Opcode.wrreg.code, reg.code, 0, 0, imm⟩
  | .xix => ⟨Opcode.xix.code, 0, 0, 0, 0⟩
  | .xfx => ⟨Opcode.xfx.code, 0, 0, 0, 0⟩
  | .buildf => ⟨Opcode.buildf.code, 0, 0, 0, 0⟩
  | .buildi => ⟨Opcode.buildi.code, 0, 0, 0, 0⟩
  | .schk => ⟨Opcode.schk.code, 0, 0, 0, 0⟩
  | .adv b => ⟨Opcode.adv.code, 0, 0, b, 0⟩
  | .ret b => ⟨Opcode.ret.code, 0, 0, b, 0⟩
  | .tabrd tbl idx => ⟨Opcode.tabrd.code, tbl.code, idx, 0, 0⟩
  | .tabwr tbl idx imm => ⟨Opcode.tabwr.code, tbl.code, idx, 0, imm⟩

/-- The encoder (R58, R60, R69). -/
def encode (i : Instr) : Cmd :=
  packFields (encodeFields i)

end Sys2Proof
end

