-- ==== Sys2Proof/Config.lean ====
section
/-! DEFINITION. What the core fixes as numbers, the platform's open parameters, and the free values (opaque: nothing can be proved of them). -/

namespace Sys2Proof

/-- Entries of each table (00_scope.md R7). -/
abbrev Config.tableDepth : Nat := 256

/-- Bytes of the core's register window (20_memory.md R40, R41). -/
abbrev Config.windowBytes : Nat := 256

/-- REFSTATE after reset and after CFG (10_state.md R23). -/
abbrev Config.resetRef : Word := 0x1234

/-- CRCM_BASE of each core, by its number: the address of its own window in the platform's map, an OPEN
parameter (20_memory.md R55, 60_exceptions.md R135, 92_eei_decisions.md D31). How the windows of different
cores lie to each other is left open. DESIGN CHOICE, logs 9 and 15. -/
opaque Config.crcmBase : Nat → Nat

/-- N_CORES, the number of instances in a system: an OPEN parameter (00_scope.md R7,
92_eei_decisions.md D41). DESIGN CHOICE, log 10. -/
opaque Config.nCores : Nat

/-- FREE VALUE: what a host read of a register other than STATUS returns while BUSY = 1, by the number of
the core and the count of values that core has drawn (70_reset_and_hazards.md R144). DEDUCED, log 5. How the
values of different cores relate is left open: DESIGN CHOICE, log 15. -/
opaque Config.freeRead : Nat → Nat → Word

/-- FREE VALUE: the word whose byte lanes a platform that splits registers sees of a register other than
STATUS while BUSY = 1, by the number of the core, the count of values that core has drawn and the byte offset
of the register (20_memory.md R43, 70_reset_and_hazards.md R144). DESIGN CHOICE, log 16. -/
opaque Config.freeSplit : Nat → Nat → Nat → Word

/-- FREE VALUE: for how many steps of the host's side a command keeps BUSY = 1 before the step that
completes it, by the number of the core and the count of values that core has drawn
(70_reset_and_hazards.md R149). DESIGN CHOICE, log 4. How the times of different cores relate is left open:
DESIGN CHOICE, log 15. -/
opaque Config.busyTime : Nat → Nat → Nat

end Sys2Proof
end

