-- ==== Sys2Proof/Machine/State.lean ====
section
/-! DEFINITION. The state of the CRCM core and of the host side of its bus, the reasons a step can stop, and the state after reset. -/

namespace Sys2Proof.Machine

/-- The error codes of STATUS.ERRCODE that the core uses (60_exceptions.md R116); 8..15 are never raised. -/
inductive ErrorCode where
  | none
  | illegalOpcode
  | illegalOperand
  | contract
  | notReady
  | invVerify
  | selfCheck
  | permission
  deriving DecidableEq, Repr

/-- A table memory (10_state.md R32, R33): its entries as (index, value) pairs, indexes strictly rising
and below 256. An index that is not listed holds no value (R38), so no listed value is redundant. -/
abbrev Memory := List (Nat × Word)

/-- The canonical form of a table memory. -/
abbrev Memory.wf (m : Memory) : Prop :=
  (m.map Prod.fst).Pairwise (· < ·) ∧ ∀ c ∈ m, c.1 < Config.tableDepth

/-- The width of one host access. Only 32 bits has a meaning (20_memory.md R42). -/
inductive AccessWidth where
  | w8
  | w16
  | w32
  | w64
  deriving DecidableEq, Repr

/-- One action of the host (20_memory.md R56): an access at a byte offset of the register window, an edge
of the RESET input (70_reset_and_hazards.md R138), or nothing at all. -/
inductive HostAction where
  | write (width : AccessWidth) (offset : BitVec 8) (value : Word)
  | read (width : AccessWidth) (offset : BitVec 8)
  | assertReset
  | releaseReset
  | wait
  deriving DecidableEq, Repr

/-- The platform's side of the core: the host's bus and the core's place in its system. It is outside the
core: reset changes only the held write and the line. -/
structure HostBus where
  /-- the host's actions still to come, in order (DESIGN CHOICE, log 3) -/
  pending : List HostAction
  /-- the CMD_LO or CMD_HI write the bus holds while BUSY = 1 (20_memory.md R50): offset and value -/
  held : Option (BitVec 8 × Word)
  /-- RESET is asserted (70_reset_and_hazards.md R138) -/
  resetLine : Bool
  /-- what the last host read returned (DESIGN CHOICE, log 3) -/
  readData : Option Word
  /-- how many free values have been drawn (logs 4 and 5) -/
  draws : Nat
  /-- the number of this core in its system: it selects the core's window and its free values, and nothing
  changes it (DESIGN CHOICE, log 15) -/
  coreId : Nat
  deriving DecidableEq, Repr

/-- Everything 10_state.md gives the core, and the host side of its bus. REVPOLY, CFG.WIDTH, ERR_OUT and
the composed words STATUS and CFG are computed from these fields. -/
structure State where
  /-- CFG.STYLE (R18) -/
  style : Style
  /-- CFG.DBG (R18) -/
  dbg : Bool
  /-- POLY (R19) -/
  poly : Word
  /-- STATE (R21) -/
  state : Word
  /-- INITXOR (R22) -/
  initXor : Word
  /-- FINALXOR (R22) -/
  finalXor : Word
  /-- REFSTATE (R23) -/
  refState : Word
  /-- RESULT (R24) -/
  result : Word
  /-- STATUS.BUSY (R25) -/
  busy : Bool
  /-- STATUS.FWD_VALID (R26) -/
  fwdValid : Bool
  /-- STATUS.INV_VALID (R27) -/
  invValid : Bool
  /-- STATUS.SC_PASS (R28) -/
  scPass : Bool
  /-- STATUS.ERR (R29) -/
  err : Bool
  /-- STATUS.ERRCODE (R29) -/
  errCode : ErrorCode
  /-- ERRINFO0 (R30) -/
  errInfo0 : Word
  /-- ERRINFO1 (R30) -/
  errInfo1 : Word
  /-- ERRINFO2 (R30) -/
  errInfo2 : Word
  /-- ERRCMD_LO (R30) -/
  errCmdLo : Word
  /-- ERRCMD_HI (R30) -/
  errCmdHi : Word
  /-- CMD_LO (R31) -/
  cmdLo : Word
  /-- the CMD_HI latch: bits 63:32 of the command in flight, not readable by the host (R31); 0 after reset (DESIGN CHOICE, log 1) -/
  cmdHi : Word
  /-- FT (R32) -/
  ft : Memory
  /-- IT (R33) -/
  it : Memory
  /-- the model's own: host-visible steps until the command in flight completes (DESIGN CHOICE, log 4) -/
  busyLeft : Nat
  /-- the host side of the bus -/
  bus : HostBus
  deriving DecidableEq, Repr

/-- The reasons the machine stops with a fault. The errors of 60_exceptions.md are no faults here: they
are next states that took the fault procedure. -/
inductive Fault where
  /-- ADV, RET, BUILDI, SCHK or TABRD reads a table entry that holds no value although the table's valid
  flag is 1 (10_state.md R38 excludes it). Safe: the machine stops; no run from reset reaches it. DEDUCED, log 6. -/
  | tableEntryAbsent
  deriving DecidableEq, Repr

/-- The reasons a step has no meaning. -/
inductive Refusal where
  /-- exec: the instruction named has no meaning yet. Safe. -/
  | notModelled (mnemonic : String)
  /-- step: a host access that is not 32 bits wide (20_memory.md R42, "A model refuses such an access"). Safe. -/
  | hostAccessWidth
  /-- step: a host access at an offset that is no multiple of 4 (20_memory.md R42). Safe. -/
  | hostAccessAlignment
  deriving DecidableEq, Repr

/-- The state right after reset (10_state.md R39, 70_reset_and_hazards.md R138, R140): RESET is released,
the core is idle, both tables hold no value and the host has done nothing yet. -/
def State.reset : State where
  style := .r16
  dbg := false
  poly := 0
  state := 0
  initXor := 0
  finalXor := 0
  refState := Config.resetRef
  result := 0
  busy := false
  fwdValid := false
  invValid := false
  scPass := false
  err := false
  errCode := .none
  errInfo0 := 0
  errInfo1 := 0
  errInfo2 := 0
  errCmdLo := 0
  errCmdHi := 0
  cmdLo := 0
  cmdHi := 0
  ft := []
  it := []
  busyLeft := 0
  bus := { pending := [], held := none, resetLine := false, readData := none, draws := 0,
           coreId := 0 }

end Sys2Proof.Machine
end

