-- ==== Sys2Proof/Machine/Ops.lean ====
section
/-! DEFINITION. The named operations: table memories, the command latches, completing a command, taking an error (the fault procedure), and reset, the only way out of one. -/

namespace Sys2Proof.Machine

/-- What a step, a command or an access answers. -/
abbrev Result := Host.Outcome State Fault Refusal

/-- The value of one entry, or none where the index holds no value (10_state.md R38). -/
def Memory.read : Memory → Nat → Option Word
  | [], _ => none
  | (j, v) :: rest, i => if i = j then some v else Memory.read rest i

/-- Write of one whole entry (20_memory.md R48), keeping the canonical form. -/
def Memory.write : Memory → Nat → Word → Memory
  | [], i, v => [(i, v)]
  | (j, w) :: rest, i, v =>
    if i < j then (i, v) :: (j, w) :: rest
    else if i = j then (i, v) :: rest
    else (j, w) :: Memory.write rest i v

/-- The memory with all 256 entries written: entry i is f i (BUILDF writes every entry, R32). -/
def Memory.ofEntries (f : Nat → Word) : Memory :=
  (List.range' 0 Config.tableDepth).map fun i => (i, f i)

/-- Every index 0..255 holds a value. -/
def Memory.full (m : Memory) : Bool :=
  (List.range' 0 Config.tableDepth).all fun i => (Memory.read m i).isSome

/-- Entry i of a memory in which it holds a value; the commands that use it check that first, so the 0
of an entry without a value is never used. -/
def Memory.entry (m : Memory) (i : Nat) : Word :=
  (Memory.read m i).getD 0

/-- The 64-bit command in flight: (CMD_HI << 32) OR CMD_LO (20_memory.md R45, R46). CMD_LO cannot change
while BUSY = 1 (R50), so it is the low word throughout. -/
def State.cmdWord (s : State) : Cmd :=
  s.cmdHi ++ s.cmdLo

/-- The command completes: BUSY returns to 0 (20_memory.md R45). -/
def State.complete (s : State) : State :=
  { s with busy := false }

/-- Taking an error: the fault procedure `raise E(i0, i1, i2)` during the command in flight
(60_exceptions.md R124). Nothing else changes. -/
def raise (e : ErrorCode) (i0 i1 i2 : Word) (s : State) : State :=
  { s with
    err := true
    errCode := e
    errInfo0 := i0
    errInfo1 := i1
    errInfo2 := i2
    errCmdLo := s.cmdLo
    errCmdHi := s.cmdHi
    busy := false }

/-- RESET is asserted (70_reset_and_hazards.md R138, R139): every piece of the core's state takes its
reset value, a held write is discarded, and the line is remembered. It is the only way out of the halt
state (60_exceptions.md R125, R130); `rest` is what the host does next. -/
def State.enterReset (s : State) (rest : List HostAction) : State :=
  { State.reset with
    bus := { s.bus with pending := rest, held := none, resetLine := true } }

end Sys2Proof.Machine
end

