-- ==== Sys2Proof/Machine/Operands.lean ====
section
/-! DEFINITION. Operand forms: the style and its width, the contract checks on values, the registers WRREG selects, the table a command selects, and bit reversal. -/

namespace Sys2Proof.Machine

/-- The style codes (00_scope.md R2, 10_state.md R18); the code 3 names no style. -/
def styleOfCode (c : BitVec 2) : Option Style :=
  if c = 0 then some .r16
  else if c = 1 then some .n16
  else if c = 2 then some .p32
  else none

/-- The code CFG.STYLE shows (10_state.md R18). -/
def styleCode : Style → BitVec 2
  | .r16 => 0
  | .n16 => 1
  | .p32 => 2

/-- W (00_scope.md R2, 10_state.md R18). -/
def width : Style → Nat
  | .r16 => 16
  | .n16 => 16
  | .p32 => 32

/-- M_W = 2^W - 1 as a register value (00_scope.md R9). -/
def mask : Style → Word
  | .r16 => 0x0000FFFF
  | .n16 => 0x0000FFFF
  | .p32 => 0xFFFFFFFF

/-- The contract of a value: below 2^W (60_exceptions.md R119). -/
def fits (S : Style) (v : Word) : Bool :=
  decide (v.toNat < 2 ^ width S)

/-- The contract of WRREG: below 2^W, and not 0 for REFSTATE (40_config_polynomial.md R79). -/
def regFits (S : Style) (r : ValueReg) (v : Word) : Bool :=
  fits S v && !(r == .refState && v == 0)

/-- The write of the register WRREG selects (40_config_polynomial.md R79). -/
def State.writeReg (s : State) (r : ValueReg) (v : Word) : State :=
  match r with
  | .state => { s with state := v }
  | .initXor => { s with initXor := v }
  | .finalXor => { s with finalXor := v }
  | .refState => { s with refState := v }

/-- STATE <- v (42_engine.md R93, R94). -/
def State.setState (s : State) (v : Word) : State :=
  { s with state := v }

/-- RESULT <- v (45_table_access.md R112). -/
def State.setResult (s : State) (v : Word) : State :=
  { s with result := v }

/-- The selected table (45_table_access.md R112, R113). -/
def State.table (s : State) : TableId → Memory
  | .ft => s.ft
  | .it => s.it

/-- The valid flag a command needs for the selected table (60_exceptions.md R120). -/
def State.tableValid (s : State) : TableId → Bool
  | .ft => s.fwdValid
  | .it => s.invValid

/-- Write of one entry of the selected table (45_table_access.md R113). -/
def State.writeTable (s : State) (t : TableId) (i : Nat) (v : Word) : State :=
  match t with
  | .ft => { s with ft := Memory.write s.ft i v }
  | .it => { s with it := Memory.write s.it i v }

/-- The loop of `reverse_W` (40_config_polynomial.md R71): the accumulator r and the left-alignment still
owed, until the remaining high bits v are 0. -/
def reverseLoop : Nat → Word → Nat → Word → Word × Nat
  | 0, r, owed, _ => (r, owed)
  | fuel + 1, r, owed, v =>
    if v = 0 then (r, owed)
    else reverseLoop fuel ((r <<< 1) ||| (v &&& 1)) (owed - 1) (v >>> 1)

/-- `reverse_W(v)` (40_config_polynomial.md R71). The loop runs at most W - 1 times, so W is enough fuel. -/
def reverse (S : Style) (v : Word) : Word :=
  let out := reverseLoop (width S) (v &&& 1) (width S - 1) (v >>> 1)
  (out.1 <<< out.2) &&& mask S

/-- REVPOLY: always `reverse_W(POLY)` (10_state.md R20). -/
def State.revPoly (s : State) : Word :=
  reverse s.style s.poly

end Sys2Proof.Machine
end

