-- ==== Sys2Proof/Machine/Flags.lean ====
section
/-! DEFINITION. The flags: how STATUS and CFG are composed, and the flag changes that several commands share. -/

namespace Sys2Proof.Machine

/-- The code of an error (60_exceptions.md R116), a 4-bit field of STATUS. -/
def errorBits : ErrorCode → BitVec 4
  | .none => 0
  | .illegalOpcode => 1
  | .illegalOperand => 2
  | .contract => 3
  | .notReady => 4
  | .invVerify => 5
  | .selfCheck => 6
  | .permission => 7

/-- STATUS as the host reads it (10_state.md R25): bits 31:12 and 7:5 read 0. -/
def State.statusWord (s : State) : Word :=
  0#20 ++ errorBits s.errCode ++ 0#3 ++ BitVec.ofBool s.err ++ BitVec.ofBool s.scPass
    ++ BitVec.ofBool s.invValid ++ BitVec.ofBool s.fwdValid ++ BitVec.ofBool s.busy

/-- CFG as the host reads it (10_state.md R18): WIDTH in bits 13:8, DBG in bit 4, STYLE in bits 1:0, the
others read 0. -/
def State.cfgWord (s : State) : Word :=
  0#18 ++ BitVec.ofNat 6 (width s.style) ++ 0#3 ++ BitVec.ofBool s.dbg ++ 0#2 ++ styleCode s.style

/-- ERR_OUT, the core's output signal (60_exceptions.md R128). -/
def State.errOut (s : State) : Bool :=
  s.err

/-- "Invalidate" (40_config_polynomial.md R70): the three flags are cleared, and the contents of both
tables become unspecified, which is no value (10_state.md R32, R33, R38). -/
def State.invalidate (s : State) : State :=
  { s with fwdValid := false, invValid := false, scPass := false, ft := [], it := [] }

/-- The inverse table is withdrawn with its content (43_inverse_table.md R103; 10_state.md R27, R28, R33). -/
def State.withdrawInverse (s : State) : State :=
  { s with invValid := false, scPass := false, it := [] }

/-- A new forward table is installed and valid (41_forward_table.md R87). -/
def State.installForward (s : State) (ft : Memory) : State :=
  { s with ft := ft, fwdValid := true }

/-- A validated inverse table is installed: INV_VALID <- 1, SC_PASS <- 0 (43_inverse_table.md R102). -/
def State.installInverse (s : State) (it : Memory) : State :=
  { s with it := it, invValid := true, scPass := false }

/-- SC_PASS <- 1 (44_selfcheck.md R107). -/
def State.markPass (s : State) : State :=
  { s with scPass := true }

/-- SC_PASS <- 0 (45_table_access.md R113). -/
def State.clearPass (s : State) : State :=
  { s with scPass := false }

/-- A self-check failed: INV_VALID and SC_PASS are cleared, both tables keep their contents
(44_selfcheck.md R107, 60_exceptions.md R122; DEDUCED, log 7). -/
def State.failCheck (s : State) : State :=
  { s with invValid := false, scPass := false }

end Sys2Proof.Machine
end

