-- ==== Sys2Proof/Machine/ConfigPoly.lean ====
section
/-! DEFINITION. The configuration and polynomial commands: NOP, CFG, PCLR, PEXP, PLD, PREV, WRREG, XIX, XFX (40_config_polynomial.md). -/

namespace Sys2Proof.Machine

/-- NOP (R73). -/
def execNop (s : State) : Result :=
  .next s.complete

/-- The re-initialisation CFG makes (R74); the contents of both tables become unspecified, which is no
value (10_state.md R38). -/
def State.configure (s : State) (st : Style) (dbg : Bool) : State :=
  { s with
    style := st
    dbg := dbg
    poly := 0
    state := 0
    initXor := 0
    finalXor := 0
    result := 0
    refState := Config.resetRef
    fwdValid := false
    invValid := false
    scPass := false
    ft := []
    it := [] }

/-- CFG (R74). The selector 3 names no style and raises ILLEGAL_OPERAND (60_exceptions.md R118). -/
def execCfg (code : BitVec 2) (dbg : Bool) (s : State) : Result :=
  match styleOfCode code with
  | none => .next (raise .illegalOperand 0 0 0 s)
  | some st => .next (s.configure st dbg).complete

/-- A polynomial command's effect: POLY is written and the tables are invalidated (R70, 10_state.md R26). -/
def State.setPoly (s : State) (v : Word) : State :=
  State.invalidate { s with poly := v }

/-- PCLR (R75). -/
def execPclr (s : State) : Result :=
  .next (s.setPoly 0).complete

/-- PEXP (R76): an exponent at or above W raises CONTRACT. -/
def execPexp (e : Byte) (s : State) : Result :=
  if width s.style ≤ e.toNat then .next (raise .contract (e.setWidth 32) 0 0 s)
  else .next (s.setPoly (s.poly ||| (1#32 <<< e.toNat))).complete

/-- PLD (R77): a value at or above 2^W raises CONTRACT. -/
def execPld (imm : Word) (s : State) : Result :=
  if fits s.style imm then .next (s.setPoly imm).complete
  else .next (raise .contract imm 0 0 s)

/-- PREV (R78). -/
def execPrev (s : State) : Result :=
  .next (s.setPoly s.revPoly).complete

/-- WRREG (R79): a value at or above 2^W, or 0 for REFSTATE, raises CONTRACT. -/
def execWrreg (r : ValueReg) (imm : Word) (s : State) : Result :=
  if regFits s.style r imm then .next (s.writeReg r imm).complete
  else .next (raise .contract imm 0 0 s)

/-- XIX (R80). -/
def execXix (s : State) : Result :=
  .next (s.setState (s.state ^^^ s.initXor)).complete

/-- XFX (R81). -/
def execXfx (s : State) : Result :=
  .next (s.setState (s.state ^^^ s.finalXor)).complete

end Sys2Proof.Machine
end

