-- ==== Sys2Proof/Machine/Forward.lean ====
section
/-! DEFINITION. The forward table generator: the three 8-step simulations on unbounded naturals, the stored truncation, and BUILDF (41_forward_table.md). -/

namespace Sys2Proof.Machine

/-- Step k of the reflected simulation (R83). -/
def fwdStepR16 (revPoly n crc k : Nat) : Nat :=
  if (crc ^^^ (n >>> k)) &&& 1 = 1 then (crc >>> 1) ^^^ revPoly else crc >>> 1

/-- Step k of the non-reflected 16-bit simulation (R84); the shift is not truncated. -/
def fwdStepN16 (poly n crc k : Nat) : Nat :=
  if (crc ^^^ (n <<< (8 + k))) &&& 0x8000 ≠ 0 then (crc <<< 1) ^^^ poly else crc <<< 1

/-- One step of the byte-preloaded 32-bit simulation (R85); the shift is not truncated. -/
def fwdStepP32 (poly t : Nat) : Nat :=
  if (t >>> 31) &&& 1 = 1 then (t <<< 1) ^^^ poly else t <<< 1

/-- `fwd_S(n)`, the raw result of the style's eight steps (R82): R16 uses REVPOLY, N16 and P32 use POLY. -/
def fwdRaw (S : Style) (poly : Word) (n : Nat) : Nat :=
  match S with
  | .r16 => (List.range' 0 8).foldl (fwdStepR16 (reverse .r16 poly).toNat n) 0
  | .n16 => (List.range' 0 8).foldl (fwdStepN16 poly.toNat n) 0
  | .p32 => (List.range' 0 8).foldl (fun t _ => fwdStepP32 poly.toNat t) (n <<< 24)

/-- The stored entry `fwd_S(n) & M_W` (R86; 90_conflicts.md C1). -/
def fwdEntry (S : Style) (poly : Word) (n : Nat) : Word :=
  BitVec.ofNat 32 (fwdRaw S poly n &&& (mask S).toNat)

/-- The table BUILDF writes: a function of STYLE and POLY alone (R87, R89). -/
def forwardTable (S : Style) (poly : Word) : Memory :=
  Memory.ofEntries (fwdEntry S poly)

/-- BUILDF (R87). INV_VALID and SC_PASS are cleared, and with INV_VALID the content of IT. -/
def execBuildf (s : State) : Result :=
  .next (s.withdrawInverse.installForward (forwardTable s.style s.poly)).complete

end Sys2Proof.Machine
end

