-- ==== Sys2Proof/Machine/Engine.lean ====
section
/-! DEFINITION. The bidirectional state engine: advance, the reverse index, retreat, and the commands ADV and RET (42_engine.md). -/

namespace Sys2Proof.Machine

/-- The FT index `advance_S(s, b)` reads (R90). -/
def fwdIndex (S : Style) (s : Word) (b : Byte) : Nat :=
  match S with
  | .r16 => ((s ^^^ b.setWidth 32) &&& 0xFF).toNat
  | .n16 => (((s >>> 8) ^^^ b.setWidth 32) &&& 0xFF).toNat
  | .p32 => (((s >>> 24) ^^^ b.setWidth 32) &&& 0xFF).toNat

/-- `advance_S` with the value e in place of the FT read (R90). -/
def advanceWith (S : Style) (s e : Word) : Word :=
  match S with
  | .r16 => ((s >>> 8) ^^^ e) &&& 0x0000FFFF
  | .n16 => ((s <<< 8) ^^^ e) &&& 0x0000FFFF
  | .p32 => ((s <<< 8) ^^^ e) &&& 0xFFFFFFFF

/-- `advance_S(s, b)` on a forward table whose entries hold values (R90). -/
def advance (S : Style) (ft : Memory) (s : Word) (b : Byte) : Word :=
  advanceWith S s (Memory.entry ft (fwdIndex S s b))

/-- `rindex_S(v)`, the reverse index (R91). -/
def rindex (S : Style) (v : Word) : Nat :=
  match S with
  | .r16 => ((v >>> 8) &&& 0xFF).toNat
  | .n16 => (v &&& 0xFF).toNat
  | .p32 => (v &&& 0xFF).toNat

/-- `retreat_S(v, b, e)`: the value e in place of the IT read (R92). -/
def retreatWith (S : Style) (v : Word) (b : Byte) (e : Word) : Word :=
  match S with
  | .r16 => ((v <<< 8) ^^^ e ^^^ b.setWidth 32) &&& 0x0000FFFF
  | .n16 => ((v >>> 8) ^^^ e ^^^ (b.setWidth 32 <<< 8)) &&& 0x0000FFFF
  | .p32 => ((v >>> 8) ^^^ e ^^^ (b.setWidth 32 <<< 24)) &&& 0xFFFFFFFF

/-- `retreat_S(v, b)` on an inverse table whose entries hold values (R92). -/
def retreat (S : Style) (it : Memory) (v : Word) (b : Byte) : Word :=
  retreatWith S v b (Memory.entry it (rindex S v))

/-- All bytes in ascending order: `for b in 0..255` (00_scope.md R10). -/
def allBytes : List Byte :=
  (List.range' 0 256).map fun n => BitVec.ofNat 8 n

/-- ADV (R93): needs FWD_VALID, reads exactly one FT entry. -/
def execAdv (b : Byte) (s : State) : Result :=
  if s.fwdValid then
    match Memory.read s.ft (fwdIndex s.style s.state b) with
    | none => .fault .tableEntryAbsent
    | some e => .next (s.setState (advanceWith s.style s.state e)).complete
  else .next (raise .notReady 0 0 0 s)

/-- RET (R94): needs INV_VALID, reads exactly one IT entry. -/
def execRet (b : Byte) (s : State) : Result :=
  if s.invValid then
    match Memory.read s.it (rindex s.style s.state) with
    | none => .fault .tableEntryAbsent
    | some e => .next (s.setState (retreatWith s.style s.state b e)).complete
  else .next (raise .notReady 0 0 0 s)

end Sys2Proof.Machine
end

