-- ==== Sys2Proof/Machine/Inverse.lean ====
section
/-! DEFINITION. The inverse table builder: phase 1 (patching), phase 2 (validation), and BUILDI (43_inverse_table.md). -/

namespace Sys2Proof.Machine

/-- One byte of phase 1 (R100): the placeholder entry is the constant R, and a later byte overwrites an
earlier one at the same index. -/
def patchByte (S : Style) (ft : Memory) (R : Word) (tmp : Memory) (b : Byte) : Memory :=
  let v1 := advance S ft R b
  let v2 := retreatWith S v1 b R
  Memory.write tmp (rindex S v1) v2

/-- The table phase 1 leaves (R100): TMP after all bytes; an index no byte wrote holds no value. -/
def patchTable (S : Style) (ft : Memory) (R : Word) : Memory :=
  allBytes.foldl (patchByte S ft R) []

/-- Phase 2 (R101): the first byte, in ascending order, whose retreat result is not R, with that result. -/
def validate (S : Style) (ft it : Memory) (R : Word) : Option (Word × Byte) :=
  allBytes.findSome? fun b =>
    let v2 := retreat S it (advance S ft R b) b
    if v2 = R then none else some (v2, b)

/-- BUILDI (R99): needs FWD_VALID; success is R102, failure R103. -/
def execBuildi (s : State) : Result :=
  if s.fwdValid then
    if Memory.full s.ft then
      match validate s.style s.ft (patchTable s.style s.ft s.refState) s.refState with
      | none => .next (s.installInverse (patchTable s.style s.ft s.refState)).complete
      | some (v2, b) => .next (raise .invVerify s.refState v2 (b.setWidth 32) s.withdrawInverse)
    else .fault .tableEntryAbsent
  else .next (raise .notReady 0 0 0 s)

end Sys2Proof.Machine
end

