-- ==== Sys2Proof/Machine/SelfCheck.lean ====
section
/-! DEFINITION. The self-check: the tested states of each width in their order, the first failing pair, and SCHK (44_selfcheck.md). -/

namespace Sys2Proof.Machine

/-- The states SCHK tests, in order: all 65536 for W = 16 (R108), and (1 << i) OR (1 << j) over the
ordered pairs (i, j) for W = 32 (R109). -/
def testedStates : Style → List Word
  | .r16 => (List.range' 0 65536).map fun n => BitVec.ofNat 32 n
  | .n16 => (List.range' 0 65536).map fun n => BitVec.ofNat 32 n
  | .p32 => (List.range' 0 32).flatMap fun i =>
      (List.range' 0 32).map fun j => (1#32 <<< i) ||| (1#32 <<< j)

/-- The first pair (s, b) whose round trip fails, with the value r retreat returned, in the order states
outside, bytes inside (R107, R110): (s, r, b). -/
def firstFailure (S : Style) (ft it : Memory) : Option (Word × Word × Byte) :=
  (testedStates S).findSome? fun x =>
    allBytes.findSome? fun b =>
      let r := retreat S it (advance S ft x b) b
      if r = x then none else some (x, r, b)

/-- SCHK (R107): needs INV_VALID; a failing pair clears INV_VALID and SC_PASS, keeps both tables
(60_exceptions.md R122; DEDUCED, log 7), and raises SELFCHECK. -/
def execSchk (s : State) : Result :=
  if s.invValid then
    if Memory.full s.ft && Memory.full s.it then
      match firstFailure s.style s.ft s.it with
      | none => .next s.markPass.complete
      | some (x, r, b) =>
        .next (raise .selfCheck x r (b.setWidth 32) s.failCheck)
    else .fault .tableEntryAbsent
  else .next (raise .notReady 0 0 0 s)

end Sys2Proof.Machine
end

