-- ==== Sys2Proof/Machine/TableAccess.lean ====
section
/-! DEFINITION. Table access: TABRD and TABWR (45_table_access.md). -/

namespace Sys2Proof.Machine

/-- TABRD (R112): needs the selected table's valid flag; the entry is zero-extended into RESULT. -/
def execTabrd (t : TableId) (idx : Byte) (s : State) : Result :=
  if s.tableValid t then
    match Memory.read (s.table t) idx.toNat with
    | none => .fault .tableEntryAbsent
    | some e => .next (s.setResult e).complete
  else .next (raise .notReady 0 0 0 s)

/-- TABWR (R113): PERMISSION without CFG.DBG, then NOT_READY, then CONTRACT (60_exceptions.md R127); the
write clears SC_PASS. -/
def execTabwr (t : TableId) (idx : Byte) (imm : Word) (s : State) : Result :=
  if !s.dbg then .next (raise .permission 0 0 0 s)
  else if !s.tableValid t then .next (raise .notReady 0 0 0 s)
  else if !fits s.style imm then .next (raise .contract imm 0 0 s)
  else .next (s.writeTable t idx.toNat imm).clearPass.complete

end Sys2Proof.Machine
end

