-- ==== Sys2Proof/Machine/Dispatch.lean ====
section
/-! DEFINITION. Steps 3 to 6 of the command cycle (30_encoding.md R65): one arm per command, each one call of its meaning. -/

namespace Sys2Proof.Machine

def exec (i : Instr) (s : State) : Host.Outcome State Fault Refusal :=
  match i with
  | .nop => Sys2Proof.Machine.execNop s
  | .cfg styleCode dbg => Sys2Proof.Machine.execCfg styleCode dbg s
  | .pclr => Sys2Proof.Machine.execPclr s
  | .pexp e => Sys2Proof.Machine.execPexp e s
  | .pld imm => Sys2Proof.Machine.execPld imm s
  | .prev => Sys2Proof.Machine.execPrev s
  | .wrreg reg imm => Sys2Proof.Machine.execWrreg reg imm s
  | .xix => Sys2Proof.Machine.execXix s
  | .xfx => Sys2Proof.Machine.execXfx s
  | .buildf => Sys2Proof.Machine.execBuildf s
  | .buildi => Sys2Proof.Machine.execBuildi s
  | .schk => Sys2Proof.Machine.execSchk s
  | .adv b => Sys2Proof.Machine.execAdv b s
  | .ret b => Sys2Proof.Machine.execRet b s
  | .tabrd tbl idx => Sys2Proof.Machine.execTabrd tbl idx s
  | .tabwr tbl idx imm => Sys2Proof.Machine.execTabwr tbl idx imm s

end Sys2Proof.Machine
end

