-- ==== Sys2Proof/Machine/Sequencer.lean ====
section
/-! DEFINITION. The command sequencer: the command cycle on the word in flight (30_encoding.md R65) and the issue of a command (20_memory.md R45). -/

namespace Sys2Proof.Machine

/-- `execute(cmd)` for the word in flight (30_encoding.md R65): dropped when ERR = 1 (DEDUCED, log 12), then
the checks of the word alone, then the command itself. -/
def executeCommand (s : State) : Result :=
  if s.err then .next s.complete
  else
    match decode s.cmdWord with
    | .illegalOpcode => .next (raise .illegalOpcode 0 0 0 s)
    | .illegalOperand => .next (raise .illegalOperand 0 0 0 s)
    | .legal i => exec i s

/-- A host write of h to CMD_HI while BUSY = 0 (20_memory.md R45): it issues the command, or is dropped
with no state changed when ERR = 1 (60_exceptions.md R125). How long BUSY stays 1 is drawn (DESIGN CHOICE, log 4). -/
def State.issue (s : State) (h : Word) : State :=
  if s.err then s
  else
    { s with
      cmdHi := h
      busy := true
      busyLeft := Config.busyTime s.bus.coreId s.bus.draws
      bus := { s.bus with draws := s.bus.draws + 1 } }

/-- The command in flight placed by hand, and run: the host has written the two halves of w, and the
word executes at once. -/
def runWord (w : Cmd) (s : State) : Result :=
  executeCommand { s with cmdLo := w.extractLsb' 0 32, cmdHi := w.extractLsb' 32 32, busy := !s.err }

/-- A program, the list of words the host issues in order (30_encoding.md R69), each issued when the one
before it has completed. -/
def runProgram : List Cmd → State → Result
  | [], s => .next s
  | w :: ws, s =>
    match runWord w s with
    | .next t => runProgram ws t
    | .fault f => .fault f
    | .refused r => .refused r

end Sys2Proof.Machine
end

