-- ==== Sys2Proof/Machine/Bus.lean ====
section
/-! DEFINITION. The host interface: the register window, host reads and writes, the BUSY window, RESET, and one step of the whole machine (20_memory.md, 70_reset_and_hazards.md). -/

namespace Sys2Proof.Machine

/-- A register read by byte offset (20_memory.md R41, R44): CMD_HI and the reserved offsets read 0. -/
def State.hostRead (s : State) (offset : BitVec 8) : Word :=
  match offset.toNat with
  | 0x00 => s.statusWord
  | 0x04 => s.cfgWord
  | 0x08 => s.poly
  | 0x0C => s.revPoly
  | 0x10 => s.state
  | 0x14 => s.initXor
  | 0x18 => s.finalXor
  | 0x1C => s.refState
  | 0x20 => s.result
  | 0x24 => s.errInfo0
  | 0x28 => s.errInfo1
  | 0x2C => s.errInfo2
  | 0x30 => s.errCmdLo
  | 0x34 => s.errCmdHi
  | 0x38 => s.cmdLo
  | _ => 0

/-- The offsets of CMD_LO and CMD_HI (20_memory.md R41). -/
def isCmdOffset (offset : BitVec 8) : Bool :=
  offset == 0x38 || offset == 0x3C

/-- A host write that reaches the core while BUSY = 0 (20_memory.md R41, R44, R45): CMD_LO is stored,
CMD_HI issues, every other offset is ignored. -/
def State.hostWrite (s : State) (offset : BitVec 8) (v : Word) : State :=
  if offset = 0x38 then { s with cmdLo := v }
  else if offset = 0x3C then s.issue v
  else s

/-- Byte lane j of a register (20_memory.md R43): bits 8j+7 : 8j. -/
def laneByte (w : Word) (j : Nat) : Byte :=
  w.extractLsb' (8 * j) 8

/-- CRCM_BASE of this core: each core has its own window (20_memory.md R55, 60_exceptions.md R135; DESIGN
CHOICE, logs 9 and 15). -/
def State.base (s : State) : Nat :=
  Config.crcmBase s.bus.coreId

/-- The offsets that hold no register (20_memory.md R41). -/
def isReservedOffset (offset : BitVec 8) : Bool :=
  decide (0x40 ≤ offset.toNat)

/-- The offsets whose read has a stated value also while BUSY = 1: STATUS (70_reset_and_hazards.md R144) and
the reserved offsets, which read 0 as always (20_memory.md R44; DEDUCED, log 5). -/
def definedWhileBusy (offset : BitVec 8) : Bool :=
  offset == 0x00 || isReservedOffset offset

/-- The word whose byte lanes a platform that splits registers sees at a register's offset: what the register
reads as, and while BUSY = 1 a free value where a read is unspecified (70_reset_and_hazards.md R144; DESIGN
CHOICE, log 16). -/
def State.splitWord (s : State) (offset : BitVec 8) : Word :=
  if s.busy && !definedWhileBusy offset then
    Config.freeSplit s.bus.coreId s.bus.draws offset.toNat
  else s.hostRead offset

/-- The byte a platform that splits registers sees at a platform address inside this core's window:
little-endian lanes from CRCM_BASE (20_memory.md R43, R55). Seeing it is no access: it draws nothing. While
BUSY = 1 it is a lane of a free word, except for STATUS and the reserved offsets (DESIGN CHOICE, log 16). -/
def State.byteAt (s : State) (address : Nat) : Option Byte :=
  if s.base ≤ address ∧ address < s.base + Config.windowBytes then
    let o := address - s.base
    some (laneByte (s.splitWord (BitVec.ofNat 8 (o / 4 * 4))) (o % 4))
  else none

/-- The refusal of an access, if it has no meaning (20_memory.md R42): another width than 32 bits, or an
offset that is no multiple of 4. -/
def accessRefusal (w : AccessWidth) (offset : BitVec 8) : Option Refusal :=
  if w ≠ .w32 then some .hostAccessWidth
  else if offset.toNat % 4 ≠ 0 then some .hostAccessAlignment
  else none

/-- The host has done one action: what is left of its list. -/
def State.afterAction (s : State) (rest : List HostAction) : State :=
  { s with bus := { s.bus with pending := rest } }

/-- A host read returned v; a read has no other effect (20_memory.md R44). -/
def State.answerRead (s : State) (v : Word) : State :=
  { s with bus := { s.bus with readData := some v } }

/-- A read while BUSY = 1 (70_reset_and_hazards.md R144): STATUS is defined, a reserved offset reads 0 as
always (20_memory.md R44), and any other register answers a free value (DEDUCED, log 5). -/
def State.busyRead (s : State) (offset : BitVec 8) : State :=
  if definedWhileBusy offset then s.answerRead (s.hostRead offset)
  else
    { s with
      bus := { s.bus with
        readData := some (Config.freeRead s.bus.coreId s.bus.draws)
        draws := s.bus.draws + 1 } }

/-- The held write takes effect now that BUSY = 0 (20_memory.md R50). -/
def State.releaseHeld (s : State) (offset : BitVec 8) (v : Word) : State :=
  State.hostWrite { s with bus := { s.bus with held := none } } offset v

/-- One host action between commands: the held write first, then the host's next action; with none the
core is idle and keeps all its state (60_exceptions.md R137). -/
def idleStep (s : State) : Result :=
  match s.bus.held with
  | some (offset, v) => .next (s.releaseHeld offset v)
  | none =>
    match s.bus.pending with
    | [] => .next s
    | .write w offset v :: rest =>
      match accessRefusal w offset with
      | some r => .refused r
      | none => .next ((s.afterAction rest).hostWrite offset v)
    | .read w offset :: rest =>
      match accessRefusal w offset with
      | some r => .refused r
      | none => .next ((s.afterAction rest).answerRead (s.hostRead offset))
    | .assertReset :: rest => .next (s.enterReset rest)
    | .releaseReset :: rest => .next (s.afterAction rest)
    | .wait :: rest => .next (s.afterAction rest)

/-- One host action while a command runs (70_reset_and_hazards.md R144, 20_memory.md R50): a CMD write is
held, and while one is held the host waits for it; other writes are ignored; reads as busyRead says. -/
def busyStep (s : State) : Result :=
  match s.bus.held with
  | some _ => .next s
  | none =>
    match s.bus.pending with
    | [] => .next s
    | .write w offset v :: rest =>
      match accessRefusal w offset with
      | some r => .refused r
      | none =>
        if isCmdOffset offset then
          .next { s with bus := { s.bus with pending := rest, held := some (offset, v) } }
        else .next (s.afterAction rest)
    | .read w offset :: rest =>
      match accessRefusal w offset with
      | some r => .refused r
      | none => .next ((s.afterAction rest).busyRead offset)
    | .assertReset :: rest => .next (s.enterReset rest)
    | .releaseReset :: rest => .next (s.afterAction rest)
    | .wait :: rest => .next (s.afterAction rest)

/-- One host action while RESET is asserted (70_reset_and_hazards.md R138): writes are ignored, reads
return the reset values, and the release leaves the core idle. -/
def resetStep (s : State) : Result :=
  match s.bus.pending with
  | [] => .next s
  | .write w offset _ :: rest =>
    match accessRefusal w offset with
    | some r => .refused r
    | none => .next (s.afterAction rest)
  | .read w offset :: rest =>
    match accessRefusal w offset with
    | some r => .refused r
    | none => .next ((s.afterAction rest).answerRead (s.hostRead offset))
  | .assertReset :: rest => .next (s.enterReset rest)
  | .releaseReset :: rest =>
    .next { s with bus := { s.bus with pending := rest, resetLine := false } }
  | .wait :: rest => .next (s.afterAction rest)

/-- The host's next action is to assert RESET, and what follows it. -/
def State.resetNext (s : State) : Option (List HostAction) :=
  match s.bus.pending with
  | .assertReset :: rest => some rest
  | _ => none

/-- One step of the machine. Reset wins over every command and every fault (70_reset_and_hazards.md R139);
then, while RESET is asserted, the host's actions; then the command in flight, which completes when its
time is over; then the host's actions between commands. -/
def clockStep (s : State) : Result :=
  match s.resetNext with
  | some rest => .next (s.enterReset rest)
  | none =>
    if s.bus.resetLine then resetStep s
    else if s.busy then
      if s.busyLeft = 0 then executeCommand s
      else busyStep { s with busyLeft := s.busyLeft - 1 }
    else idleStep s

/-- The command whose word is w (bits numbered as the opcode table numbers them, those above nbits zero),
placed where the sequencer takes its next command from: the two halves in the command latches, BUSY = 1
and its time over, RESET released, and no reset ahead of it in the host's list (DEDUCED, log 8). -/
def State.placeCommand (s : State) (nbits w : Nat) : State :=
  let cmd : Cmd := BitVec.ofNat 64 (w % 2 ^ nbits)
  { s with
    cmdLo := cmd.extractLsb' 0 32
    cmdHi := cmd.extractLsb' 32 32
    busy := true
    busyLeft := 0
    bus := { s.bus with
      pending := s.bus.pending.dropWhile (· == .assertReset)
      resetLine := false } }

end Sys2Proof.Machine
end

