-- ==== Sys2Proof/Machine/Step.lean ====
section
/-! DEFINITION. One step of the machine, and a command placed to be the next one it runs. -/

namespace Sys2Proof.Machine

/-- One step: one host action, one unit of a command's time, or one whole command
(70_reset_and_hazards.md R149). -/
def step (s : State) : Host.Outcome State Fault Refusal :=
  clockStep s

/-- s with the command word w issued and due, so that the next step runs it (DEDUCED, log 8). -/
def State.withFetchWord (s : State) (nbits w : Nat) : State :=
  s.placeCommand nbits w

end Sys2Proof.Machine
end

