-- ==== Sys2Proof/Machine/Assembler.lean ====
section
/-! DEFINITION. The assembler's view of the commands: pseudo-instructions and their expansions, the text syntax, and programs as lists of words (30_encoding.md R66 to R69). -/

namespace Sys2Proof.Machine

/-- The pseudo-instructions (R68). -/
inductive Pseudo where
  | setst (v : Word)
  | setix (v : Word)
  | setfx (v : Word)
  | setref (v : Word)
  | pset (es : List Byte)
  | variant (code : BitVec 2) (dbg : Bool) (es : List Byte)
  | gen
  | feed (bs : List Byte)
  | unfeed (bs : List Byte)
  deriving DecidableEq, Repr

/-- The expansions (R68): PSET in the written order, UNFEED last byte first. -/
def Pseudo.expand : Pseudo → List Instr
  | .setst v => [.wrreg .state v]
  | .setix v => [.wrreg .initXor v]
  | .setfx v => [.wrreg .finalXor v]
  | .setref v => [.wrreg .refState v]
  | .pset es => .pclr :: es.map .pexp
  | .variant code dbg es => .cfg code dbg :: .pclr :: es.map .pexp
  | .gen => [.buildf, .buildi, .schk]
  | .feed bs => bs.map .adv
  | .unfeed bs => bs.reverse.map .ret

/-- A program is encoded as the list of its commands' words (R69). -/
def encodeProgram (is : List Instr) : List Cmd :=
  is.map encode

/-- The lexical pieces of a line (R66, R67). -/
inductive Token where
  | name (cs : List Char)
  | num (n : Nat)
  | chr (c : Char)
  | str (cs : List Char)
  | comma
  | openSet
  | closeSet
  deriving DecidableEq, Repr

/-- A digit's value: 0-9, and A-F in either case for base 16 (PRESUMED, log 11). -/
def digitValue (base : Nat) (c : Char) : Option Nat :=
  let n := c.toNat
  let v :=
    if 0x30 ≤ n ∧ n ≤ 0x39 then n - 0x30
    else if 0x41 ≤ n ∧ n ≤ 0x46 then n - 0x41 + 10
    else if 0x61 ≤ n ∧ n ≤ 0x66 then n - 0x61 + 10
    else base
  if v < base then some v else none

/-- The value of a string of digits; at least one digit. -/
def digitsValue (base : Nat) (cs : List Char) : Option Nat :=
  if cs.isEmpty then none
  else cs.foldlM (fun acc c => (digitValue base c).map fun d => acc * base + d) 0

/-- A number (R67): decimal, or hexadecimal after 0x. -/
def numberValue : List Char → Option Nat
  | '0' :: 'x' :: hex => digitsValue 16 hex
  | cs => digitsValue 10 cs

/-- A character that may stand inside a name or a number. -/
def isWordChar (c : Char) : Bool :=
  c.isAlphanum

/-- The tokens of a line, or none where a character starts no token. A semicolon ends the line (R66). The
first argument bounds the tokens, one more than the line's characters being enough. -/
def tokenize : Nat → List Char → Option (List Token)
  | 0, _ => none
  | _ + 1, [] => some []
  | fuel + 1, c :: rest =>
    if c.toNat = 0x20 ∨ c.toNat = 0x09 then tokenize fuel rest
    else if c.toNat = 0x3B then some []
    else if c.toNat = 0x2C then (tokenize fuel rest).map (.comma :: ·)
    else if c.toNat = 0x7B then (tokenize fuel rest).map (.openSet :: ·)
    else if c.toNat = 0x7D then (tokenize fuel rest).map (.closeSet :: ·)
    else if c.toNat = 0x27 then
      match rest with
      | x :: q :: more =>
        if q.toNat = 0x27 then (tokenize fuel more).map (.chr x :: ·) else none
      | _ => none
    else if c.toNat = 0x22 then
      match rest.dropWhile (fun x => x.toNat ≠ 0x22) with
      | [] => none
      | _ :: more =>
        (tokenize fuel more).map (.str (rest.takeWhile fun x => x.toNat ≠ 0x22) :: ·)
    else if c.isDigit then
      match numberValue ((c :: rest).takeWhile isWordChar) with
      | none => none
      | some n => (tokenize fuel ((c :: rest).dropWhile isWordChar)).map (.num n :: ·)
    else if c.isUpper then
      (tokenize fuel ((c :: rest).dropWhile isWordChar)).map
        (.name ((c :: rest).takeWhile isWordChar) :: ·)
    else none

/-- An operand of a line. -/
inductive AsmOperand where
  | name (cs : List Char)
  | num (n : Nat)
  | chr (c : Char)
  | str (cs : List Char)
  | set (ns : List Nat)
  deriving DecidableEq, Repr

/-- The rest of a set after its opening bracket: numbers separated by commas, then the closing bracket.
`more` says that a comma has just been read, so a number must follow. -/
def setTail : Bool → List Token → Option (List Nat × List Token)
  | false, .closeSet :: rest => some ([], rest)
  | _, .num n :: .comma :: rest => (setTail true rest).map fun p => (n :: p.1, p.2)
  | _, .num n :: .closeSet :: rest => some ([n], rest)
  | _, _ => none

/-- One operand and the tokens after it. -/
def oneOperand : List Token → Option (AsmOperand × List Token)
  | .name cs :: rest => some (.name cs, rest)
  | .num n :: rest => some (.num n, rest)
  | .chr c :: rest => some (.chr c, rest)
  | .str cs :: rest => some (.str cs, rest)
  | .openSet :: rest => (setTail false rest).map fun p => (.set p.1, p.2)
  | _ => none

/-- The operands of a line, separated by commas (R66). -/
def operandList : Nat → List Token → Option (List AsmOperand)
  | 0, _ => none
  | fuel + 1, ts =>
    match oneOperand ts with
    | none => none
    | some (o, []) => some [o]
    | some (o, .comma :: rest) => (operandList fuel rest).map (o :: ·)
    | some (_, _ :: _) => none

/-- A number that fits an 8-bit field; any other is rejected (R67). -/
def byteField (n : Nat) : Option Byte :=
  if n < 256 then some (BitVec.ofNat 8 n) else none

/-- A number that fits IMM; any other is rejected (R67). -/
def immField (n : Nat) : Option Word :=
  if n < 2 ^ 32 then some (BitVec.ofNat 32 n) else none

/-- The ASCII code of a character (R67). -/
def asciiByte (c : Char) : Option Byte :=
  if c.toNat < 128 then some (BitVec.ofNat 8 c.toNat) else none

/-- A byte operand: a number or a character literal (R67). -/
def byteOperand : AsmOperand → Option Byte
  | .num n => byteField n
  | .chr c => asciiByte c
  | _ => none

/-- The style names (R66). -/
def styleName (cs : List Char) : Option (BitVec 2) :=
  if cs = "R16".toList then some 0
  else if cs = "N16".toList then some 1
  else if cs = "P32".toList then some 2
  else none

/-- The register names of WRREG (R66). -/
def regName (cs : List Char) : Option ValueReg :=
  if cs = "STATE".toList then some .state
  else if cs = "INITXOR".toList then some .initXor
  else if cs = "FINALXOR".toList then some .finalXor
  else if cs = "REFSTATE".toList then some .refState
  else none

/-- The table names (R66). -/
def tableName (cs : List Char) : Option TableId :=
  if cs = "FT".toList then some .ft
  else if cs = "IT".toList then some .it
  else none

/-- The bytes FEED and UNFEED name: one string's characters, or a list of byte operands (R68). -/
def feedBytes : List AsmOperand → Option (List Byte)
  | [.str cs] => cs.mapM asciiByte
  | os => os.mapM byteOperand

/-- The mnemonics without operands (R66), and GEN (R68). -/
def plainCommand (m : List Char) : Option (List Instr) :=
  if m = "NOP".toList then some [.nop]
  else if m = "PCLR".toList then some [.pclr]
  else if m = "PREV".toList then some [.prev]
  else if m = "XIX".toList then some [.xix]
  else if m = "XFX".toList then some [.xfx]
  else if m = "BUILDF".toList then some [.buildf]
  else if m = "BUILDI".toList then some [.buildi]
  else if m = "SCHK".toList then some [.schk]
  else if m = "GEN".toList then some Pseudo.gen.expand
  else none

/-- The commands with operands (R66). -/
def operandCommand (m : List Char) (os : List AsmOperand) : Option Instr :=
  if m = "CFG".toList then
    match os with
    | [.name st] => (styleName st).map fun c => .cfg c false
    | [.name st, .name d] => if d = "DBG".toList then (styleName st).map fun c => .cfg c true else none
    | _ => none
  else if m = "PEXP".toList then
    match os with
    | [.num e] => (byteField e).map .pexp
    | _ => none
  else if m = "PLD".toList then
    match os with
    | [.num v] => (immField v).map .pld
    | _ => none
  else if m = "WRREG".toList then
    match os with
    | [.name r, .num v] => (regName r).bind fun r => (immField v).map fun v => .wrreg r v
    | _ => none
  else if m = "ADV".toList then
    match os with
    | [b] => (byteOperand b).map .adv
    | _ => none
  else if m = "RET".toList then
    match os with
    | [b] => (byteOperand b).map .ret
    | _ => none
  else if m = "TABRD".toList then
    match os with
    | [.name t, .num i] => (tableName t).bind fun t => (byteField i).map fun i => .tabrd t i
    | _ => none
  else if m = "TABWR".toList then
    match os with
    | [.name t, .num i, .num v] =>
      (tableName t).bind fun t => (byteField i).bind fun i => (immField v).map fun v => .tabwr t i v
    | _ => none
  else none

/-- The pseudo-instructions with operands (R68). -/
def pseudoCommand (m : List Char) (os : List AsmOperand) : Option Pseudo :=
  if m = "SETST".toList then
    match os with
    | [.num v] => (immField v).map .setst
    | _ => none
  else if m = "SETIX".toList then
    match os with
    | [.num v] => (immField v).map .setix
    | _ => none
  else if m = "SETFX".toList then
    match os with
    | [.num v] => (immField v).map .setfx
    | _ => none
  else if m = "SETREF".toList then
    match os with
    | [.num v] => (immField v).map .setref
    | _ => none
  else if m = "PSET".toList then
    match os with
    | [.set es] => (es.mapM byteField).map .pset
    | _ => none
  else if m = "VARIANT".toList then
    match os with
    | [.name st, .set es] =>
      (styleName st).bind fun c => (es.mapM byteField).map fun es => .variant c false es
    | [.name st, .set es, .name d] =>
      if d = "DBG".toList then
        (styleName st).bind fun c => (es.mapM byteField).map fun es => .variant c true es
      else none
    | _ => none
  else if m = "FEED".toList then (feedBytes os).map .feed
  else if m = "UNFEED".toList then (feedBytes os).map .unfeed
  else none

/-- One line of assembly: the commands it stands for, none where the assembler rejects it; an empty line
or a comment stands for no command (R66). -/
def assembleLine (line : List Char) : Option (List Instr) :=
  match tokenize (line.length + 1) line with
  | none => none
  | some [] => some []
  | some [.name m] => plainCommand m
  | some (.name m :: ts) =>
    match operandList (ts.length + 1) ts with
    | none => none
    | some os =>
      match operandCommand m os with
      | some i => some [i]
      | none => (pseudoCommand m os).map Pseudo.expand
  | some _ => none

/-- A program's text, one command per line (R66), as the list of its words (R69). -/
def assemble (lines : List (List Char)) : Option (List Cmd) :=
  (lines.mapM assembleLine).map fun iss => encodeProgram iss.flatten

end Sys2Proof.Machine
end

