-- ==== Sys2Proof/Machine/System.lean ====
section
/-! DEFINITION. Several cores: N_CORES independent instances that share no state (00_scope.md R3, 60_exceptions.md R135). -/

namespace Sys2Proof.Machine

/-- A system has N_CORES instances (00_scope.md R7), numbered by their place in the list, so that each has
its own window and its own free values (60_exceptions.md R135; DESIGN CHOICE, log 15). -/
def isSystem (cores : List State) : Prop :=
  cores.length = Config.nCores ∧ ∀ (k : Nat) (s : State), cores[k]? = some s → s.bus.coreId = k

/-- The reset state of core k of a system (60_exceptions.md R135: each starts at its own reset). -/
def resetCore (k : Nat) : State :=
  { State.reset with bus := { State.reset.bus with coreId := k } }

/-- A system whose cores have all just been reset. -/
def systemReset : List State :=
  (List.range Config.nCores).map resetCore

/-- Core k takes one step; which core moves next is the platform's choice, so it is an argument (DESIGN
CHOICE, log 10). A number
that names no core moves nothing. -/
def stepSystem (k : Nat) (cores : List State) : Host.Outcome (List State) Fault Refusal :=
  match cores[k]? with
  | none => .next cores
  | some s =>
    match step s with
    | .next t => .next (cores.set k t)
    | .fault f => .fault f
    | .refused r => .refused r

end Sys2Proof.Machine
end

