-- ==== Sys2Proof/Safety.lean ====
section
/-! DEFINITION. What the statements call a safe run: the invariant of the state, what makes a table pair certified, and when the tables are published. -/

namespace Sys2Proof

open Sys2Proof.Machine

/-- Every listed entry is below 2^W (10_state.md R35). -/
abbrev tableBounded (S : Style) (m : Memory) : Prop :=
  ∀ c ∈ m, c.2.toNat < 2 ^ width S

/-- The invariant of the core between steps: 10_state.md R35 (value ranges), R36 (flag chain), R38 (a
valid table holds a value everywhere), R29 and R30 (the error record), 60_exceptions.md R124, R125 (a
halted core runs no command), 20_memory.md R50 (only CMD writes are held), 70_reset_and_hazards.md R138. -/
structure StateInv (s : State) : Prop where
  poly_fits : s.poly.toNat < 2 ^ width s.style
  state_fits : s.state.toNat < 2 ^ width s.style
  initXor_fits : s.initXor.toNat < 2 ^ width s.style
  finalXor_fits : s.finalXor.toNat < 2 ^ width s.style
  refState_fits : s.refState.toNat < 2 ^ width s.style
  refState_ne : s.refState ≠ 0
  result_fits : s.result.toNat < 2 ^ width s.style
  ft_wf : Memory.wf s.ft
  it_wf : Memory.wf s.it
  ft_bounded : tableBounded s.style s.ft
  it_bounded : tableBounded s.style s.it
  ft_full : s.fwdValid = true → Memory.full s.ft = true
  it_full : s.invValid = true → Memory.full s.it = true
  pass_inv : s.scPass = true → s.invValid = true
  inv_fwd : s.invValid = true → s.fwdValid = true
  code_iff : s.errCode = .none ↔ s.err = false
  record_clear : s.err = false →
    s.errInfo0 = 0 ∧ s.errInfo1 = 0 ∧ s.errInfo2 = 0 ∧ s.errCmdLo = 0 ∧ s.errCmdHi = 0
  halt_idle : s.err = true → s.busy = false
  held_cmd : ∀ o v, s.bus.held = some (o, v) → isCmdOffset o = true
  reset_held : s.bus.resetLine = true → s = { State.reset with bus := s.bus }

/-- The IT index that FT entry e is patched to (43_inverse_table.md R104). -/
def closedIndex (S : Style) (e : Word) : Nat :=
  match S with
  | .r16 => (e >>> 8).toNat
  | .n16 => (e &&& 0xFF).toNat
  | .p32 => (e &&& 0xFF).toNat

/-- The IT entry that FT entry e of index i is patched to (43_inverse_table.md R104). -/
def closedEntry (S : Style) (i : Nat) (e : Word) : Word :=
  match S with
  | .r16 => ((e &&& 0xFF) <<< 8) ||| BitVec.ofNat 32 i
  | .n16 => (BitVec.ofNat 32 i <<< 8) ||| (e >>> 8)
  | .p32 => (BitVec.ofNat 32 i <<< 24) ||| (e >>> 8)

/-- IT is the closed form of FT (43_inverse_table.md R104). -/
abbrev closedForm (S : Style) (ft it : Memory) : Prop :=
  ∀ i, i < 256 →
    Memory.read it (closedIndex S (Memory.entry ft i)) = some (closedEntry S i (Memory.entry ft i))

/-- The index part of FT is injective, and so a bijection of 0..255 (43_inverse_table.md R105). -/
abbrev indexInjective (S : Style) (ft : Memory) : Prop :=
  ∀ i, i < 256 → ∀ j, j < 256 →
    closedIndex S (Memory.entry ft i) = closedIndex S (Memory.entry ft j) → i = j

/-- The round trip of every W-bit state and every byte (42_engine.md R95). -/
def roundTrips (S : Style) (ft it : Memory) : Prop :=
  ∀ (x : Word) (b : Byte), x.toNat < 2 ^ width S → retreat S it (advance S ft x b) b = x

/-- The round trip of the states SCHK tests and every byte (44_selfcheck.md R107). -/
def roundTripsTested (S : Style) (ft it : Memory) : Prop :=
  ∀ x ∈ testedStates S, ∀ b : Byte, retreat S it (advance S ft x b) b = x

/-- With the test enable off, the tables are what the builders make of STYLE and POLY (10_state.md R37):
TABWR cannot have changed them, since DBG changes only with a full re-initialisation. -/
def Certified (s : State) : Prop :=
  s.dbg = false →
    (s.fwdValid = true → s.ft = forwardTable s.style s.poly) ∧
    (s.invValid = true → closedForm s.style s.ft s.it)

/-- SC_PASS = 1 certifies the tested round trips of the tables as they are (10_state.md R28). -/
def Verified (s : State) : Prop :=
  s.scPass = true → roundTripsTested s.style s.ft s.it

/-- The tables are published: STATUS reads 0x0000000E (70_reset_and_hazards.md R143). -/
def Published (s : State) : Prop :=
  s.statusWord = 0x0000000E

/-- A safe step answers a next state: it neither reads a table entry without a value nor meets a host
access without a meaning. -/
def StepsOn (s : State) : Prop :=
  ∃ t, step s = .next t

/-- The action is an access the core gives a meaning, or no access (20_memory.md R42). -/
def admittedAction : HostAction → Prop
  | .write w offset _ => accessRefusal w offset = none
  | .read w offset => accessRefusal w offset = none
  | .assertReset | .releaseReset | .wait => True

/-- The host's next action, if there is one, is admitted. -/
def Admitted (s : State) : Prop :=
  match s.bus.pending with
  | a :: _ => admittedAction a
  | [] => True

/-- Every word with this OP is the command these fields name, or an ILLEGAL_OPERAND word, which raises that
error when it is executed (30_encoding.md R61, R62, R64). -/
def decodesAs (op : Byte) (legal : Fields → Option Instr) : Prop :=
  (∀ w : Cmd, (fieldsOf w).op = op →
    decode w =
      match legal (fieldsOf w) with
      | some i => .legal i
      | none => .illegalOperand) ∧
  (∀ s : State, s.err = false → (fieldsOf s.cmdWord).op = op → legal (fieldsOf s.cmdWord) = none →
    executeCommand s = .next (raise .illegalOperand 0 0 0 s))

/-- All fields but OP are zero. -/
abbrev onlyOp (f : Fields) : Prop :=
  f.sel = 0 ∧ f.idx = 0 ∧ f.db = 0 ∧ f.imm = 0

/-- The prerequisite flag of a command (60_exceptions.md R120), true where it has none. -/
def prerequisite (i : Instr) (s : State) : Bool :=
  match i with
  | .adv _ | .buildi => s.fwdValid
  | .ret _ | .schk => s.invValid
  | .tabrd .ft _ | .tabwr .ft _ _ => s.fwdValid
  | .tabrd .it _ | .tabwr .it _ _ => s.invValid
  | .nop | .cfg _ _ | .pclr | .pexp _ | .pld _ | .prev | .wrreg _ _ | .xix | .xfx | .buildf => true

/-- The value that breaks the command's contract, if one does (60_exceptions.md R119). -/
def brokenContract (i : Instr) (s : State) : Option Word :=
  match i with
  | .pexp e => if width s.style ≤ e.toNat then some (e.setWidth 32) else none
  | .pld v => if 2 ^ width s.style ≤ v.toNat then some v else none
  | .wrreg .refState v => if 2 ^ width s.style ≤ v.toNat ∨ v = 0 then some v else none
  | .wrreg .state v | .wrreg .initXor v | .wrreg .finalXor v =>
    if 2 ^ width s.style ≤ v.toNat then some v else none
  | .tabwr _ _ v => if 2 ^ width s.style ≤ v.toNat then some v else none
  | .nop | .cfg _ _ | .pclr | .prev | .xix | .xfx | .buildf | .buildi | .schk | .adv _ | .ret _
  | .tabrd _ _ => none

/-- The command needs the test enable (60_exceptions.md R123, R132). -/
def needsDbg : Instr → Bool
  | .tabwr _ _ _ => true
  | .nop | .cfg _ _ | .pclr | .pexp _ | .pld _ | .prev | .wrreg _ _ | .xix | .xfx | .buildf | .buildi
  | .schk | .adv _ | .ret _ | .tabrd _ _ => false

/-- The commands that change POLY or STYLE and so invalidate the tables (10_state.md R26). -/
def invalidates : Instr → Bool
  | .cfg _ _ | .pclr | .pexp _ | .pld _ | .prev => true
  | .nop | .wrreg _ _ | .xix | .xfx | .buildf | .buildi | .schk | .adv _ | .ret _ | .tabrd _ _
  | .tabwr _ _ _ => false

/-- Feeding bytes in stream order (42_engine.md R98). -/
def feed (S : Style) (ft : Memory) (x : Word) (bs : List Byte) : Word :=
  bs.foldl (advance S ft) x

/-- Removing trailing bytes, last byte first (42_engine.md R98). -/
def unfeed (S : Style) (it : Memory) (x : Word) (bs : List Byte) : Word :=
  bs.reverse.foldl (retreat S it) x

/-- The first state SCHK tests (44_selfcheck.md R111). -/
def firstTested : Style → Word
  | .r16 => 0
  | .n16 => 0
  | .p32 => 1

/-- The error record is the same (10_state.md R30). -/
def sameRecord (s t : State) : Prop :=
  t.err = s.err ∧ t.errCode = s.errCode ∧ t.errInfo0 = s.errInfo0 ∧ t.errInfo1 = s.errInfo1 ∧
    t.errInfo2 = s.errInfo2 ∧ t.errCmdLo = s.errCmdLo ∧ t.errCmdHi = s.errCmdHi

end Sys2Proof
end

