-- ==== Sys2Proof/Certificates/Slice0/Obligations.lean ====
section
/-! DEFINITION. The statements for the provers, from the numbered rules of spec/. -/

open Sys2Proof Sys2Proof.Machine

/-! ## Reset and the invariants -/

/-- 70_reset_and_hazards.md R140: what reset leaves, read through the register window and the tables. -/
def Obligations.ResetLeavesSpecValues : Prop :=
  State.reset.statusWord = 0x00000000 ∧ State.reset.cfgWord = 0x00001000 ∧
  State.reset.hostRead 0x1C = 0x1234 ∧
  (∀ o : BitVec 8, o ≠ 0x04 → o ≠ 0x1C → State.reset.hostRead o = 0) ∧
  State.reset.errOut = false ∧
  (∀ i, Memory.read State.reset.ft i = none ∧ Memory.read State.reset.it i = none) ∧
  (∀ tb idx, exec (.tabrd tb idx) State.reset = .next (raise .notReady 0 0 0 State.reset))

/-- The invariants hold at reset (10_state.md R35, R36, R38). -/
def Obligations.InvariantHoldsAtReset : Prop :=
  StateInv State.reset ∧ Certified State.reset ∧ Verified State.reset

/-- 10_state.md R35, R36, R38 and 60_exceptions.md R125: every step keeps the invariant. -/
def Obligations.EveryStepKeepsInvariant : Prop :=
  ∀ s t : State, StateInv s → step s = .next t → StateInv t

/-- 10_state.md R37: with the test enable off, the valid tables stay what the builders make of STYLE and
POLY, and IT the closed form of FT. -/
def Obligations.EveryStepKeepsTablesCertified : Prop :=
  ∀ s t : State, StateInv s → Certified s → step s = .next t → Certified t

/-- 10_state.md R28: whenever SC_PASS = 1, the tables as they are pass every tested round trip. -/
def Obligations.EveryStepKeepsPassVerified : Prop :=
  ∀ s t : State, StateInv s → Verified s → step s = .next t → Verified t

/-- 10_state.md R38: no step from a state that meets the invariant reads an entry without a value, and
with an admitted host action every step goes on. -/
def Obligations.NoStepFaultsUnderInvariant : Prop :=
  ∀ s : State, StateInv s → (∀ f, step s ≠ .fault f) ∧ (Admitted s → ∃ t, step s = .next t)

/-! ## Encoding -/

/-- Decoding the encoding of a well-formed command gives it back, for every operand value. -/
def Obligations.DecodeOfEncodeIsTheCommand : Prop :=
  ∀ i : Instr, i.wf = true → decode (encode i) = .legal i

/-- 30_encoding.md R64: a legal word is the encoding of the one command it stands for. -/
def Obligations.LegalWordIsItsEncoding : Prop :=
  ∀ (w : Cmd) (i : Instr), decode w = .legal i → encode i = w ∧ i.wf = true

/-- A few words written out from 30_encoding.md R58, R60 and 95_test_vectors.md section 2.1, one or more
per family. -/
def Obligations.SpecWordsDecode : Prop :=
  decode 0x0102010000000000 = .legal (.cfg 2 true) ∧
  decode 0x03000F0000000000 = .legal (.pexp 15) ∧
  decode 0x0400000004C11DB7 = .legal (.pld 0x04C11DB7) ∧
  decode 0x06020000FFFFFFFF = .legal (.wrreg .finalXor 0xFFFFFFFF) ∧
  decode 0x1000000000000000 = .legal .buildf ∧
  decode 0x1100000000000000 = .legal .buildi ∧
  decode 0x1200000000000000 = .legal .schk ∧
  decode 0x2000003100000000 = .legal (.adv 0x31) ∧
  decode 0x2100003900000000 = .legal (.ret 0x39) ∧
  decode 0x3001FF0000000000 = .legal (.tabrd .it 0xFF) ∧
  decode 0x3100800000008000 = .legal (.tabwr .ft 0x80 0x8000)

/-- 60_exceptions.md R117: the reserved opcodes, whatever the other fields hold. -/
def Obligations.ReservedOpcodesRaise : Prop :=
  ∀ s : State, s.err = false →
    ((0x09 ≤ (fieldsOf s.cmdWord).op.toNat ∧ (fieldsOf s.cmdWord).op.toNat ≤ 0x0F) ∨
     (0x13 ≤ (fieldsOf s.cmdWord).op.toNat ∧ (fieldsOf s.cmdWord).op.toNat ≤ 0x1F) ∨
     (0x22 ≤ (fieldsOf s.cmdWord).op.toNat ∧ (fieldsOf s.cmdWord).op.toNat ≤ 0x2F) ∨
     0x32 ≤ (fieldsOf s.cmdWord).op.toNat) →
    executeCommand s = .next (raise .illegalOpcode 0 0 0 s)

/-- 60_exceptions.md R118: a legal OP with a non-zero reserved field, or SEL or IDX outside its range,
raises ILLEGAL_OPERAND; with every field in its place the word is legal. -/
def Obligations.BadOperandsRaise : Prop :=
  (∀ s : State, s.err = false →
    ∀ o : Opcode, (fieldsOf s.cmdWord).op = o.code →
      (o.reservedZero (fieldsOf s.cmdWord) = false ∨
        (o = .cfg ∧ (2 < (fieldsOf s.cmdWord).sel.toNat ∨ 1 < (fieldsOf s.cmdWord).idx.toNat)) ∨
        (o = .wrreg ∧ 3 < (fieldsOf s.cmdWord).sel.toNat) ∨
        ((o = .tabrd ∨ o = .tabwr) ∧ 1 < (fieldsOf s.cmdWord).sel.toNat)) →
      executeCommand s = .next (raise .illegalOperand 0 0 0 s)) ∧
  (∀ (w : Cmd) (o : Opcode), (fieldsOf w).op = o.code →
    o.reservedZero (fieldsOf w) = true →
    (o = .cfg → (fieldsOf w).sel.toNat ≤ 2 ∧ (fieldsOf w).idx.toNat ≤ 1) →
    (o = .wrreg → (fieldsOf w).sel.toNat ≤ 3) →
    (o = .tabrd ∨ o = .tabwr → (fieldsOf w).sel.toNat ≤ 1) →
    ∃ i, decode w = .legal i)

/-! ## The step, the sequencer and the errors -/

/-- A step runs the command in flight when its time is over; a placed word runs at the next step. The step
adds nothing around the command's meaning. -/
def Obligations.StepRunsDecodedCommand : Prop :=
  (∀ (s : State) (i : Instr), s.resetNext = none → s.bus.resetLine = false → s.busy = true →
    s.busyLeft = 0 → s.err = false → decode s.cmdWord = .legal i → step s = exec i s) ∧
  (∀ (s : State) (nbits w : Nat) (i : Instr), s.err = false → decodeTableWord nbits w = some i →
    step (s.withFetchWord nbits w) = exec i (s.withFetchWord nbits w))

/-- 60_exceptions.md R124: the fault procedure, with the command word read from the latches. -/
def Obligations.FaultProcedureWrites : Prop :=
  ∀ (e : ErrorCode) (i0 i1 i2 : Word) (s : State),
    raise e i0 i1 i2 s =
      { s with
        err := true, errCode := e, errInfo0 := i0, errInfo1 := i1, errInfo2 := i2,
        errCmdLo := s.cmdWord.extractLsb' 0 32, errCmdHi := s.cmdWord.extractLsb' 32 32,
        busy := false }

/-- 60_exceptions.md R119, R120, R123, R127: the checks in their order, for every command. -/
def Obligations.ChecksInPriorityOrder : Prop :=
  ∀ s : State, s.err = false →
    (decode s.cmdWord = .illegalOpcode →
      executeCommand s = .next (raise .illegalOpcode 0 0 0 s)) ∧
    (decode s.cmdWord = .illegalOperand →
      executeCommand s = .next (raise .illegalOperand 0 0 0 s)) ∧
    (∀ i, decode s.cmdWord = .legal i →
      (needsDbg i = true → s.dbg = false → executeCommand s = .next (raise .permission 0 0 0 s)) ∧
      ((needsDbg i = true → s.dbg = true) → prerequisite i s = false →
        executeCommand s = .next (raise .notReady 0 0 0 s)) ∧
      ((needsDbg i = true → s.dbg = true) → prerequisite i s = true →
        ∀ v, brokenContract i s = some v → executeCommand s = .next (raise .contract v 0 0 s)))

/-- 60_exceptions.md R126: a command that faults has no effect besides the fault procedure's, except what
R121 and R122 name for BUILDI and SCHK. -/
def Obligations.FaultsArePrecise : Prop :=
  ∀ (i : Instr) (s t : State), s.err = false → exec i s = .next t → t.err = true →
    (∃ e i0, (e = .illegalOperand ∨ e = .contract ∨ e = .notReady ∨ e = .permission) ∧
      t = raise e i0 0 0 s) ∨
    (i = .buildi ∧ ∃ v b,
      t = raise .invVerify s.refState v b
        { s with invValid := false, scPass := false, it := [] }) ∨
    (i = .schk ∧ ∃ x r b,
      t = raise .selfCheck x r b { s with invValid := false, scPass := false })

/-- 60_exceptions.md R125: a halted core drops every command and keeps every register; a CMD_HI write
completes; reset is the way out. -/
def Obligations.HaltedCoreDropsCommands : Prop :=
  (∀ s t : State, StateInv s → s.err = true → s.resetNext = none → step s = .next t →
    t = { s with cmdLo := t.cmdLo, bus := t.bus }) ∧
  (∀ (s : State) (v : Word) (rest : List HostAction), StateInv s → s.err = true → s.bus.held = none →
    s.bus.pending = .write .w32 0x3C v :: rest → step s = .next (s.afterAction rest)) ∧
  (∀ (s : State) (o : BitVec 8) (rest : List HostAction), StateInv s → s.err = true →
    s.bus.held = none → o.toNat % 4 = 0 → s.bus.pending = .read .w32 o :: rest →
    step s = .next ((s.afterAction rest).answerRead (s.hostRead o))) ∧
  (∀ (s : State) (rest : List HostAction), s.bus.pending = .assertReset :: rest →
    ∃ t, step s = .next t ∧ t.err = false)

/-! ## The host interface -/

/-- 20_memory.md R41, R43: the register map, reads and writes, and the byte lanes of the window of this core;
10_state.md R20: REVPOLY reads as the mirror of POLY in every state. While BUSY = 1 the four bytes of a
register other than STATUS are the lanes of one word, whichever it is (70_reset_and_hazards.md R144; the free
word is the model's choice, log 16); that a reserved offset still shows 0 then is log 5. -/
def Obligations.RegisterMapAndByteLanes : Prop :=
  ∀ s : State,
    s.hostRead 0x00 = s.statusWord ∧ s.hostRead 0x04 = s.cfgWord ∧ s.hostRead 0x08 = s.poly ∧
    s.hostRead 0x0C = reverse s.style s.poly ∧ s.hostRead 0x10 = s.state ∧ s.hostRead 0x14 = s.initXor ∧
    s.hostRead 0x18 = s.finalXor ∧ s.hostRead 0x1C = s.refState ∧ s.hostRead 0x20 = s.result ∧
    s.hostRead 0x24 = s.errInfo0 ∧ s.hostRead 0x28 = s.errInfo1 ∧ s.hostRead 0x2C = s.errInfo2 ∧
    s.hostRead 0x30 = s.errCmdLo ∧ s.hostRead 0x34 = s.errCmdHi ∧ s.hostRead 0x38 = s.cmdLo ∧
    s.hostRead 0x3C = 0 ∧ (∀ o : BitVec 8, 0x40 ≤ o.toNat → s.hostRead o = 0) ∧
    (∀ v, s.hostWrite 0x38 v = { s with cmdLo := v }) ∧ (∀ v, s.hostWrite 0x3C v = s.issue v) ∧
    (∀ (o : BitVec 8) (v : Word), o ≠ 0x38 → o ≠ 0x3C → s.hostWrite o v = s) ∧
    (∀ k : Nat, k < 64 → ∃ v : Word,
      (s.busy = false ∨ k = 0 ∨ 16 ≤ k → v = s.hostRead (BitVec.ofNat 8 (4 * k))) ∧
      ∀ j : Nat, j < 4 → s.byteAt (Config.crcmBase s.bus.coreId + 4 * k + j) =
        some (v.extractLsb' (8 * j) 8))

/-- 10_state.md R25, R18: the fields of STATUS and of CFG, with the numbers of the error codes
(60_exceptions.md R116) and of the styles (00_scope.md R2); ERR_OUT equals ERR (60_exceptions.md R128). -/
def Obligations.StatusAndCfgFields : Prop :=
  ∀ s : State,
    (s.statusWord.getLsbD 0 = s.busy ∧ s.statusWord.getLsbD 1 = s.fwdValid ∧
      s.statusWord.getLsbD 2 = s.invValid ∧ s.statusWord.getLsbD 3 = s.scPass ∧
      s.statusWord.getLsbD 4 = s.err ∧ s.statusWord.extractLsb' 5 3 = 0 ∧
      s.statusWord.extractLsb' 8 4 = errorBits s.errCode ∧ s.statusWord.extractLsb' 12 20 = 0) ∧
    (s.cfgWord.extractLsb' 0 2 = styleCode s.style ∧ s.cfgWord.extractLsb' 2 2 = 0 ∧
      s.cfgWord.getLsbD 4 = s.dbg ∧ s.cfgWord.extractLsb' 5 3 = 0 ∧
      (s.cfgWord.extractLsb' 8 6).toNat = width s.style ∧ s.cfgWord.extractLsb' 14 18 = 0 ∧
      styleCode s.style ≠ 3) ∧
    s.statusWord.extractLsb' 8 4 =
      (match s.errCode with
        | .none => 0
        | .illegalOpcode => 1
        | .illegalOperand => 2
        | .contract => 3
        | .notReady => 4
        | .invVerify => 5
        | .selfCheck => 6
        | .permission => 7) ∧
    s.cfgWord.extractLsb' 0 2 =
      (match s.style with
        | .r16 => 0
        | .n16 => 1
        | .p32 => 2) ∧
    (s.cfgWord.extractLsb' 8 6).toNat =
      (match s.style with
        | .r16 => 16
        | .n16 => 16
        | .p32 => 32) ∧
    s.errOut = s.err

/-- 20_memory.md R42: an access of another width, or at an offset that is no multiple of 4, is refused in
every phase in which the core meets it. -/
def Obligations.OtherAccessesRefused : Prop :=
  ∀ (s : State) (w : AccessWidth) (o : BitVec 8) (v : Word) (rest : List HostAction),
    s.bus.held = none → ¬(s.bus.resetLine = false ∧ s.busy = true ∧ s.busyLeft = 0) →
    (w ≠ .w32 ∨ o.toNat % 4 ≠ 0) →
    (s.bus.pending = .write w o v :: rest ∨ s.bus.pending = .read w o :: rest) →
    ∃ r, step s = .refused r ∧ (r = .hostAccessWidth ∨ r = .hostAccessAlignment)

/-- 20_memory.md R44: between commands a read has no effect but its answer, and a write of a register other
than CMD_LO and CMD_HI, or of a reserved offset, is ignored. -/
def Obligations.HostAccessesHaveNoSideEffect : Prop :=
  ∀ (s : State) (o : BitVec 8) (rest : List HostAction), s.bus.resetLine = false →
    s.busy = false → s.bus.held = none → o.toNat % 4 = 0 →
    (s.bus.pending = .read .w32 o :: rest →
      step s = .next ((s.afterAction rest).answerRead (s.hostRead o))) ∧
    (∀ v, o ≠ 0x38 → o ≠ 0x3C → s.bus.pending = .write .w32 o v :: rest →
      step s = .next (s.afterAction rest)) ∧
    (o = 0x3C ∨ 0x40 ≤ o.toNat → s.hostRead o = 0)

/-- 20_memory.md R45: a CMD_HI write while BUSY = 0 issues the command, or is dropped when ERR = 1. -/
def Obligations.CommandIssue : Prop :=
  ∀ (s : State) (h : Word) (rest : List HostAction), s.bus.resetLine = false → s.busy = false →
    s.bus.held = none → s.bus.pending = .write .w32 0x3C h :: rest →
    (s.err = false → ∃ t, step s = .next t ∧ t.busy = true ∧
      t.cmdWord.toNat = h.toNat <<< 32 ||| s.cmdLo.toNat ∧
      t = { s with cmdHi := h, busy := true, busyLeft := t.busyLeft, bus := t.bus }) ∧
    (s.err = true → step s = .next (s.afterAction rest))

/-- 20_memory.md R50: a CMD write while BUSY = 1 is held, the host's later actions wait, and it takes
effect when BUSY = 0. -/
def Obligations.CmdWriteHeldWhileBusy : Prop :=
  (∀ (s : State) (o : BitVec 8) (v : Word) (k : Nat) (rest : List HostAction),
    s.bus.resetLine = false → s.busy = true → s.busyLeft = k + 1 → s.bus.held = none →
    (o = 0x38 ∨ o = 0x3C) → s.bus.pending = .write .w32 o v :: rest →
    step s = .next { s with
      busyLeft := k, bus := { s.bus with pending := rest, held := some (o, v) } }) ∧
  (∀ (s : State) (p : BitVec 8 × Word) (k : Nat), s.resetNext = none → s.bus.resetLine = false →
    s.busy = true → s.busyLeft = k + 1 → s.bus.held = some p →
    step s = .next { s with busyLeft := k }) ∧
  (∀ (s : State) (o : BitVec 8) (v : Word), s.resetNext = none → s.bus.resetLine = false →
    s.busy = false → s.bus.held = some (o, v) →
    step s = .next (State.hostWrite { s with bus := { s.bus with held := none } } o v))

/-- 70_reset_and_hazards.md R144: during a command STATUS reads BUSY = 1 and the other fields as before; any
other register reads a free value, whatever it is; a write that is no CMD write is ignored. -/
def Obligations.BusyWindow : Prop :=
  ∀ (s : State) (o : BitVec 8) (k : Nat) (rest : List HostAction), s.bus.resetLine = false →
    s.busy = true → s.busyLeft = k + 1 → s.bus.held = none → o.toNat % 4 = 0 →
    (o = 0x00 → s.bus.pending = .read .w32 o :: rest →
      ∃ t, step s = .next t ∧ t.bus.readData = some s.statusWord ∧
        s.statusWord.getLsbD 0 = true ∧ t = { s with busyLeft := k, bus := t.bus }) ∧
    (o ≠ 0x00 → o.toNat < 0x40 → s.bus.pending = .read .w32 o :: rest →
      ∃ t v, step s = .next t ∧ t.bus.readData = some v ∧
        t = { s with busyLeft := k, bus := t.bus }) ∧
    (∀ v, o ≠ 0x38 → o ≠ 0x3C → s.bus.pending = .write .w32 o v :: rest →
      step s = .next ({ s with busyLeft := k }.afterAction rest))

/-- A command completes after its time, a finite number of steps (93_implementation_defined.md item 12),
whatever admitted accesses the host makes meanwhile (a host that polls STATUS among them) as long as it
asserts no reset: until then the core keeps its state, and then the command executes. That the time is
counted in steps of the host's side is the model's choice (log 4). -/
def Obligations.CommandCompletesInFiniteTime : Prop :=
  ∀ (k : Nat) (s : State), (∀ a ∈ s.bus.pending, admittedAction a ∧ a ≠ .assertReset) →
    s.bus.resetLine = false → s.busy = true → s.busyLeft = k →
    ∃ t : State, Sys2Proof.core.run k s = .next t ∧ t = { s with busyLeft := 0, bus := t.bus } ∧
      (s.bus.pending = [] → t.bus = s.bus) ∧
      Sys2Proof.core.run (k + 1) s = executeCommand t ∧
      (StateInv s → ∃ u : State, Sys2Proof.core.run (k + 1) s = .next u ∧ u.busy = false)

/-- 70_reset_and_hazards.md R138, R139: an asserted reset wins over every command and every fault, and
replaces the whole core state; a held write is discarded. While RESET is asserted, writes are ignored, reads
return the reset values, and the release leaves the core idle in its reset state. The read data and the
count of free values are the host's side of the model (log 3). -/
def Obligations.ResetWinsAndHolds : Prop :=
  (∀ (s : State) (rest : List HostAction), s.bus.pending = .assertReset :: rest →
    step s = .next { State.reset with
      bus := { pending := rest, held := none, resetLine := true,
               readData := s.bus.readData, draws := s.bus.draws, coreId := s.bus.coreId } }) ∧
  (∀ (s : State) (o : BitVec 8) (rest : List HostAction), StateInv s → s.bus.resetLine = true →
    o.toNat % 4 = 0 →
    (∀ v, s.bus.pending = .write .w32 o v :: rest → step s = .next (s.afterAction rest)) ∧
    (s.bus.pending = .read .w32 o :: rest →
      step s = .next ((s.afterAction rest).answerRead (State.reset.hostRead o))) ∧
    (s.bus.pending = .releaseReset :: rest →
      step s = .next { State.reset with
        bus := { s.bus with pending := rest, resetLine := false } }))

/-! ## Configuration and polynomial commands -/

/-- 40_config_polynomial.md R73. -/
def Obligations.NopRule : Prop :=
  decodesAs 0x00 (fun f => if onlyOp f then some .nop else none) ∧
  (∀ s : State, exec .nop s = .next { s with busy := false }) ∧
  (∀ s : State, s.err = true → executeCommand s = .next { s with busy := false })

/-- 40_config_polynomial.md R74. That both tables are left without values is how 10_state.md R38 says a model
represents unspecified contents. The last clause is the model's choice (DESIGN CHOICE, log 14): no word
decodes to CFG with the selector 3, and its meaning there is the error 60_exceptions.md R118 names. -/
def Obligations.CfgRule : Prop :=
  decodesAs 0x01 (fun f =>
    if f.sel.toNat ≤ 2 ∧ f.idx.toNat ≤ 1 ∧ f.db = 0 ∧ f.imm = 0 then
      some (.cfg (f.sel.setWidth 2) (f.idx.getLsbD 0)) else none) ∧
  (∀ (s : State) (c : BitVec 2) (d : Bool) (st : Style),
    (c = 0 ∧ st = .r16) ∨ (c = 1 ∧ st = .n16) ∨ (c = 2 ∧ st = .p32) →
    exec (.cfg c d) s = .next { s with
      style := st, dbg := d, poly := 0, state := 0, initXor := 0, finalXor := 0, result := 0,
      refState := 0x1234, fwdValid := false, invValid := false, scPass := false, ft := [], it := [],
      busy := false }) ∧
  (∀ (s : State) (d : Bool), exec (.cfg 3 d) s = .next (raise .illegalOperand 0 0 0 s))

/-- 40_config_polynomial.md R75, R77. -/
def Obligations.PclrAndPldRules : Prop :=
  decodesAs 0x02 (fun f => if onlyOp f then some .pclr else none) ∧
  decodesAs 0x04 (fun f => if f.sel = 0 ∧ f.idx = 0 ∧ f.db = 0 then some (.pld f.imm) else none) ∧
  (∀ s : State, exec .pclr s = .next { s with
    poly := 0, fwdValid := false, invValid := false, scPass := false, ft := [], it := [],
    busy := false }) ∧
  (∀ (s : State) (v : Word), 2 ^ width s.style ≤ v.toNat →
    exec (.pld v) s = .next (raise .contract v 0 0 s)) ∧
  (∀ (s : State) (v : Word), v.toNat < 2 ^ width s.style →
    exec (.pld v) s = .next { s with
      poly := v, fwdValid := false, invValid := false, scPass := false, ft := [], it := [],
      busy := false })

/-- 40_config_polynomial.md R76. -/
def Obligations.PexpRule : Prop :=
  decodesAs 0x03 (fun f => if f.sel = 0 ∧ f.db = 0 ∧ f.imm = 0 then some (.pexp f.idx) else none) ∧
  (∀ (s : State) (e : Byte), width s.style ≤ e.toNat →
    exec (.pexp e) s = .next (raise .contract (e.setWidth 32) 0 0 s)) ∧
  (∀ (s : State) (e : Byte), e.toNat < width s.style →
    ∃ p : Word, exec (.pexp e) s = .next { s with
        poly := p, fwdValid := false, invValid := false, scPass := false, ft := [], it := [],
        busy := false } ∧
      ∀ k < 32, p.getLsbD k = (s.poly.getLsbD k || k == e.toNat))

/-- 40_config_polynomial.md R78 and R72: POLY is replaced by its mirror, bit by bit. -/
def Obligations.PrevRule : Prop :=
  decodesAs 0x05 (fun f => if onlyOp f then some .prev else none) ∧
  (∀ s : State, s.poly.toNat < 2 ^ width s.style →
    ∃ p : Word, exec .prev s = .next { s with
        poly := p, fwdValid := false, invValid := false, scPass := false, ft := [], it := [],
        busy := false } ∧
      p.toNat < 2 ^ width s.style ∧
      ∀ k < width s.style, p.getLsbD (width s.style - 1 - k) = s.poly.getLsbD k)

/-- 40_config_polynomial.md R72: reverse_W is the exact mirror of the W-bit window, so it is an involution. -/
def Obligations.ReverseIsTheMirror : Prop :=
  ∀ (S : Style) (v : Word), v.toNat < 2 ^ width S →
    (∀ k < width S, (reverse S v).getLsbD (width S - 1 - k) = v.getLsbD k) ∧
    reverse S (reverse S v) = v ∧ reverse S 0 = 0

/-- 40_config_polynomial.md R79. -/
def Obligations.WrregRule : Prop :=
  decodesAs 0x06 (fun f =>
    if f.idx = 0 ∧ f.db = 0 then
      if f.sel = 0 then some (.wrreg .state f.imm)
      else if f.sel = 1 then some (.wrreg .initXor f.imm)
      else if f.sel = 2 then some (.wrreg .finalXor f.imm)
      else if f.sel = 3 then some (.wrreg .refState f.imm)
      else none
    else none) ∧
  (∀ (s : State) (r : ValueReg) (v : Word), 2 ^ width s.style ≤ v.toNat ∨ (r = .refState ∧ v = 0) →
    exec (.wrreg r v) s = .next (raise .contract v 0 0 s)) ∧
  (∀ (s : State) (v : Word), v.toNat < 2 ^ width s.style →
    exec (.wrreg .state v) s = .next { s with state := v, busy := false } ∧
    exec (.wrreg .initXor v) s = .next { s with initXor := v, busy := false } ∧
    exec (.wrreg .finalXor v) s = .next { s with finalXor := v, busy := false } ∧
    (v ≠ 0 → exec (.wrreg .refState v) s = .next { s with refState := v, busy := false }))

/-- 40_config_polynomial.md R80, R81; applied twice each restores STATE. -/
def Obligations.XixXfxRules : Prop :=
  decodesAs 0x07 (fun f => if onlyOp f then some .xix else none) ∧
  decodesAs 0x08 (fun f => if onlyOp f then some .xfx else none) ∧
  (∀ s : State, exec .xix s = .next { s with state := s.state ^^^ s.initXor, busy := false }) ∧
  (∀ s : State, exec .xfx s = .next { s with state := s.state ^^^ s.finalXor, busy := false }) ∧
  (∀ s t u : State, (exec .xix s = .next t ∧ exec .xix t = .next u) ∨
      (exec .xfx s = .next t ∧ exec .xfx t = .next u) → u.state = s.state)

/-! ## Forward table -/

/-- 41_forward_table.md R87: every entry, the flags, and nothing else. -/
def Obligations.BuildfRule : Prop :=
  decodesAs 0x10 (fun f => if onlyOp f then some .buildf else none) ∧
  (∀ s : State, ∃ m : Memory,
    exec .buildf s = .next { s with
      ft := m, it := [], fwdValid := true, invValid := false, scPass := false, busy := false } ∧
    (∀ n, n < 256 → ∃ e, Memory.read m n = some e ∧
      e.toNat = fwdRaw s.style s.poly n % 2 ^ width s.style) ∧
    (∀ n, 256 ≤ n → Memory.read m n = none))

/-- 41_forward_table.md R88, its first three items: entry 0, linearity, and the entry that shows the
polynomial. -/
def Obligations.ForwardTableIsLinear : Prop :=
  ∀ (S : Style) (poly : Word), poly.toNat < 2 ^ width S →
    fwdEntry S poly 0 = 0 ∧
    (∀ a b, a < 256 → b < 256 →
      fwdEntry S poly (a ^^^ b) = fwdEntry S poly a ^^^ fwdEntry S poly b) ∧
    fwdEntry .r16 poly 0x80 = reverse .r16 poly ∧
    (S ≠ .r16 → fwdEntry S poly 1 = poly)

/-- 41_forward_table.md R86: advance gives the same state from the raw and from the truncated entry. -/
def Obligations.TruncationIsUnobservable : Prop :=
  ∀ (S : Style) (poly x : Word) (n : Nat), x.toNat < 2 ^ width S → n < 256 →
    (advanceWith S x (fwdEntry S poly n)).toNat =
      ((match S with
        | .r16 => x.toNat >>> 8
        | .n16 => x.toNat <<< 8
        | .p32 => x.toNat <<< 8) ^^^ fwdRaw S poly n) % 2 ^ width S

/-- 41_forward_table.md R88, last item, and 43_inverse_table.md R105: the index part of a built table is a
bijection exactly when the polynomial has the x^0 term. -/
def Obligations.IndexPartBijectiveIffConstantTerm : Prop :=
  ∀ (S : Style) (poly : Word), poly.toNat < 2 ^ width S →
    (indexInjective S (forwardTable S poly) ↔ poly.getLsbD 0 = true)

/-! ## Engine -/

/-- 42_engine.md R93: ADV on every state that has a built forward table; the result is a W-bit value, and
`advance_S(0, 0) = 0` on a built table. -/
def Obligations.AdvRule : Prop :=
  decodesAs 0x20 (fun f => if f.sel = 0 ∧ f.idx = 0 ∧ f.imm = 0 then some (.adv f.db) else none) ∧
  (∀ (s : State) (b : Byte), s.fwdValid = false →
    exec (.adv b) s = .next (raise .notReady 0 0 0 s)) ∧
  (∀ (s : State) (b : Byte), s.fwdValid = true → Memory.full s.ft = true →
    exec (.adv b) s = .next { s with state := advance s.style s.ft s.state b, busy := false }) ∧
  (∀ (S : Style) (ft : Memory) (x : Word) (b : Byte), (advance S ft x b).toNat < 2 ^ width S) ∧
  (∀ (S : Style) (poly : Word), advance S (forwardTable S poly) 0 0 = 0)

/-- 42_engine.md R94: RET on every state that has a validated inverse table; another byte changes the result
at the style's edge alone, and `retreat_S(0, 0) = 0` on a pair of built tables. -/
def Obligations.RetRule : Prop :=
  decodesAs 0x21 (fun f => if f.sel = 0 ∧ f.idx = 0 ∧ f.imm = 0 then some (.ret f.db) else none) ∧
  (∀ (s : State) (b : Byte), s.invValid = false →
    exec (.ret b) s = .next (raise .notReady 0 0 0 s)) ∧
  (∀ (s : State) (b : Byte), s.invValid = true → Memory.full s.it = true →
    exec (.ret b) s = .next { s with state := retreat s.style s.it s.state b, busy := false }) ∧
  (∀ (it : Memory) (v : Word) (b b' : Byte),
    retreat .r16 it v b' = retreat .r16 it v b ^^^ (b ^^^ b').setWidth 32 ∧
    retreat .n16 it v b' = retreat .n16 it v b ^^^ ((b ^^^ b').setWidth 32 <<< 8) ∧
    retreat .p32 it v b' = retreat .p32 it v b ^^^ ((b ^^^ b').setWidth 32 <<< 24)) ∧
  (∀ (S : Style) (poly : Word) (it : Memory), closedForm S (forwardTable S poly) it →
    retreat S it 0 0 = 0)

/-- 42_engine.md R90 and R92: the update formulas on natural numbers, shifts untruncated until the mask;
the register's physical width of 32 bits loses nothing. -/
def Obligations.UpdateFormulasOnNaturals : Prop :=
  ∀ (ft it : Memory) (x : Word) (b : Byte),
    (advance .r16 ft x b).toNat =
      ((x.toNat >>> 8) ^^^ (Memory.entry ft ((x.toNat ^^^ b.toNat) &&& 0xFF)).toNat) &&& 0xFFFF ∧
    (advance .n16 ft x b).toNat =
      ((x.toNat <<< 8) ^^^ (Memory.entry ft (((x.toNat >>> 8) ^^^ b.toNat) &&& 0xFF)).toNat)
        &&& 0xFFFF ∧
    (advance .p32 ft x b).toNat =
      ((x.toNat <<< 8) ^^^ (Memory.entry ft (((x.toNat >>> 24) ^^^ b.toNat) &&& 0xFF)).toNat)
        &&& 0xFFFFFFFF ∧
    (retreat .r16 it x b).toNat =
      ((x.toNat <<< 8) ^^^ (Memory.entry it ((x.toNat >>> 8) &&& 0xFF)).toNat ^^^ b.toNat)
        &&& 0xFFFF ∧
    (retreat .n16 it x b).toNat =
      ((x.toNat >>> 8) ^^^ (Memory.entry it (x.toNat &&& 0xFF)).toNat ^^^ (b.toNat <<< 8))
        &&& 0xFFFF ∧
    (retreat .p32 it x b).toNat =
      ((x.toNat >>> 8) ^^^ (Memory.entry it (x.toNat &&& 0xFF)).toNat ^^^ (b.toNat <<< 24))
        &&& 0xFFFFFFFF

/-- 42_engine.md R95: RET undoes ADV, for every W-bit state and every byte, with the tables a successful
BUILDI leaves, whatever FT held before it; and in every later state with a validated inverse table that no
TABWR can have changed. -/
def Obligations.RoundTripOfValidatedTables : Prop :=
  (∀ s t : State, StateInv s → exec .buildi s = .next t → t.invValid = true → t.err = false →
    roundTrips t.style t.ft t.it) ∧
  (∀ s : State, StateInv s → Certified s → s.dbg = false → s.invValid = true →
    roundTrips s.style s.ft s.it)

/-- 42_engine.md R96: advance is a bijection of the W-bit states, and ADV undoes RET. -/
def Obligations.AdvanceIsABijection : Prop :=
  ∀ (S : Style) (ft it : Memory), roundTrips S ft it → ∀ b : Byte,
    Set.BijOn (fun x => advance S ft x b) {x : Word | x.toNat < 2 ^ width S}
      {x : Word | x.toNat < 2 ^ width S} ∧
    ∀ v : Word, v.toNat < 2 ^ width S → advance S ft (retreat S it v b) b = v

/-- 42_engine.md R98: unfeeding the bytes of a stream returns to its start, and the check values of the three
source variants. -/
def Obligations.StreamsReturnToTheirStart : Prop :=
  (∀ (S : Style) (ft it : Memory), roundTrips S ft it → ∀ (bs : List Byte) (x : Word),
    x.toNat < 2 ^ width S → unfeed S it (feed S ft x bs) bs = x) ∧
  feed .r16 (forwardTable .r16 0x8005) 0
    [0x31, 0x32, 0x33, 0x34, 0x35, 0x36, 0x37, 0x38, 0x39] = 0xBB3D ∧
  feed .n16 (forwardTable .n16 0x1021) 0
    [0x31, 0x32, 0x33, 0x34, 0x35, 0x36, 0x37, 0x38, 0x39] = 0x31C3 ∧
  feed .p32 (forwardTable .p32 0x04C11DB7) 0
    [0x31, 0x32, 0x33, 0x34, 0x35, 0x36, 0x37, 0x38, 0x39] = 0x89A1897F

/-! ## Inverse table -/

/-- 43_inverse_table.md R102, R104, R105: BUILDI succeeds on every full table whose index part is injective,
and installs the closed form. -/
def Obligations.BuildiSucceedsOnBijection : Prop :=
  ∀ s : State, s.fwdValid = true → Memory.full s.ft = true → tableBounded s.style s.ft →
    s.refState.toNat < 2 ^ width s.style → indexInjective s.style s.ft →
    ∃ m : Memory,
      exec .buildi s = .next { s with it := m, invValid := true, scPass := false, busy := false } ∧
      closedForm s.style s.ft m ∧ Memory.full m = true ∧ Memory.wf m

/-- 43_inverse_table.md R103, R105: on a table whose index part is not injective BUILDI fails, and reports
R, the retreat result and the byte of the first mismatch. -/
def Obligations.BuildiFailsOtherwise : Prop :=
  ∀ s : State, s.fwdValid = true → Memory.full s.ft = true → tableBounded s.style s.ft →
    s.refState.toNat < 2 ^ width s.style → ¬indexInjective s.style s.ft →
    ∃ (v : Word) (b : Byte),
      exec .buildi s = .next (raise .invVerify s.refState v (b.setWidth 32)
        { s with invValid := false, scPass := false, it := [] }) ∧
      v ≠ s.refState ∧
      v = retreat s.style (patchTable s.style s.ft s.refState)
        (advance s.style s.ft s.refState b) b ∧
      ∀ b' : Byte, b'.toNat < b.toNat →
        retreat s.style (patchTable s.style s.ft s.refState)
          (advance s.style s.ft s.refState b') b' = s.refState

/-- 43_inverse_table.md R106: neither the table BUILDI produces nor whether it succeeds depends on R. -/
def Obligations.BuildiIndependentOfReference : Prop :=
  ∀ (s t : State) (r : Word), StateInv s → r.toNat < 2 ^ width s.style →
    exec .buildi s = .next t → t.invValid = true →
    exec .buildi { s with refState := r } = .next { t with refState := r }

/-! ## Self-check -/

/-- 44_selfcheck.md R107, R111 (first item): on the tables a successful BUILDI leaves, SCHK passes, in every
style, and changes SC_PASS alone. -/
def Obligations.SchkPassesOnBuiltTables : Prop :=
  ∀ s : State, StateInv s → s.invValid = true → closedForm s.style s.ft s.it →
    exec .schk s = .next { s with scPass := true, busy := false }

/-- 44_selfcheck.md R110: SCHK stops at the first failing pair in the order of R108, R109, and reports it.
That IT keeps its contents too follows 60_exceptions.md R122 (DEDUCED, log 7). -/
def Obligations.SchkReportsFirstFailure : Prop :=
  ∀ (s : State) (before after : List Word) (x : Word) (b : Byte), s.invValid = true →
    Memory.full s.ft = true → Memory.full s.it = true →
    testedStates s.style = before ++ x :: after →
    (∀ y ∈ before, ∀ c : Byte, retreat s.style s.it (advance s.style s.ft y c) c = y) →
    (∀ c : Byte, c.toNat < b.toNat → retreat s.style s.it (advance s.style s.ft x c) c = x) →
    retreat s.style s.it (advance s.style s.ft x b) b ≠ x →
    exec .schk s = .next (raise .selfCheck x
      (retreat s.style s.it (advance s.style s.ft x b) b) (b.setWidth 32)
      { s with invValid := false, scPass := false })

/-- 44_selfcheck.md R111 (second item): after one entry of a built pair has been changed, SCHK fails at the
first tested state and names the byte. That both tables keep their contents follows 60_exceptions.md R122
(DEDUCED, log 7). -/
def Obligations.SingleCorruptionIsReported : Prop :=
  ∀ (s : State) (k : Byte) (v : Word), StateInv s → s.invValid = true → closedForm s.style s.ft s.it →
    v.toNat < 2 ^ width s.style →
    (v ≠ Memory.entry s.ft k.toNat →
      ∃ r, r ≠ firstTested s.style ∧
        exec .schk (s.writeTable .ft k.toNat v) =
          .next (raise .selfCheck (firstTested s.style) r (k.setWidth 32)
            (s.writeTable .ft k.toNat v).failCheck)) ∧
    (v ≠ Memory.entry s.it k.toNat →
      ∃ b : Byte, rindex s.style (advance s.style s.ft (firstTested s.style) b) = k.toNat ∧
        (∀ c : Byte, rindex s.style (advance s.style s.ft (firstTested s.style) c) = k.toNat →
          c = b) ∧
        exec .schk (s.writeTable .it k.toNat v) =
          .next (raise .selfCheck (firstTested s.style)
            (firstTested s.style ^^^ (v ^^^ Memory.entry s.it k.toNat)) (b.setWidth 32)
            (s.writeTable .it k.toNat v).failCheck))

/-- 44_selfcheck.md R108, R109: the tested states, in order. -/
def Obligations.TestedStatesInOrder : Prop :=
  (∀ n, n < 65536 → (testedStates .r16)[n]? = some (BitVec.ofNat 32 n) ∧
    (testedStates .n16)[n]? = some (BitVec.ofNat 32 n)) ∧
  (testedStates .r16).length = 65536 ∧ (testedStates .n16).length = 65536 ∧
  (∀ i j, i < 32 → j < 32 →
    (testedStates .p32)[32 * i + j]? = some (1#32 <<< i ||| 1#32 <<< j)) ∧
  (testedStates .p32).length = 1024

/-! ## Table access -/

/-- 45_table_access.md R112: the entry, zero-extended, so that RESULT is below 2^W. -/
def Obligations.TabrdRule : Prop :=
  decodesAs 0x30 (fun f =>
    if f.db = 0 ∧ f.imm = 0 then
      if f.sel = 0 then some (.tabrd .ft f.idx)
      else if f.sel = 1 then some (.tabrd .it f.idx)
      else none
    else none) ∧
  (∀ (s : State) (tb : TableId) (idx : Byte), s.tableValid tb = false →
    exec (.tabrd tb idx) s = .next (raise .notReady 0 0 0 s)) ∧
  (∀ (s : State) (idx : Byte), s.fwdValid = true → Memory.full s.ft = true →
    exec (.tabrd .ft idx) s =
      .next { s with result := Memory.entry s.ft idx.toNat, busy := false }) ∧
  (∀ (s : State) (idx : Byte), s.invValid = true → Memory.full s.it = true →
    exec (.tabrd .it idx) s =
      .next { s with result := Memory.entry s.it idx.toNat, busy := false }) ∧
  (∀ (s t : State) (tb : TableId) (idx : Byte), StateInv s → exec (.tabrd tb idx) s = .next t →
    t.result.toNat < 2 ^ width t.style)

/-- 45_table_access.md R113: one entry is written, every other entry of both tables reads as before. -/
def Obligations.TabwrRule : Prop :=
  decodesAs 0x31 (fun f =>
    if f.db = 0 then
      if f.sel = 0 then some (.tabwr .ft f.idx f.imm)
      else if f.sel = 1 then some (.tabwr .it f.idx f.imm)
      else none
    else none) ∧
  (∀ (s : State) (tb : TableId) (idx : Byte) (v : Word), s.dbg = false →
    exec (.tabwr tb idx v) s = .next (raise .permission 0 0 0 s)) ∧
  (∀ (s : State) (tb : TableId) (idx : Byte) (v : Word), s.dbg = true → s.tableValid tb = false →
    exec (.tabwr tb idx v) s = .next (raise .notReady 0 0 0 s)) ∧
  (∀ (s : State) (tb : TableId) (idx : Byte) (v : Word), s.dbg = true → s.tableValid tb = true →
    2 ^ width s.style ≤ v.toNat → exec (.tabwr tb idx v) s = .next (raise .contract v 0 0 s)) ∧
  (∀ (s : State) (tb : TableId) (idx : Byte) (v : Word), s.dbg = true → s.tableValid tb = true →
    v.toNat < 2 ^ width s.style →
    ∃ ft' it' : Memory,
      exec (.tabwr tb idx v) s =
        .next { s with ft := ft', it := it', scPass := false, busy := false } ∧
      (∀ a, Memory.read ft' a =
        if tb = .ft ∧ a = idx.toNat then some v else Memory.read s.ft a) ∧
      (∀ a, Memory.read it' a =
        if tb = .it ∧ a = idx.toNat then some v else Memory.read s.it a))

/-! ## Frames and whole-machine rules -/

/-- 10_state.md R15, the "written by" column of the registers commands write. -/
def Obligations.FrameOfValueRegisters : Prop :=
  ∀ (i : Instr) (s t : State), exec i s = .next t →
    ((∀ c d, i ≠ .cfg c d) →
      t.style = s.style ∧ t.dbg = s.dbg ∧
      (i ≠ .pclr → (∀ e, i ≠ .pexp e) → (∀ v, i ≠ .pld v) → i ≠ .prev → t.poly = s.poly) ∧
      ((∀ v, i ≠ .wrreg .state v) → i ≠ .xix → i ≠ .xfx → (∀ b, i ≠ .adv b) → (∀ b, i ≠ .ret b) →
        t.state = s.state) ∧
      ((∀ v, i ≠ .wrreg .initXor v) → t.initXor = s.initXor) ∧
      ((∀ v, i ≠ .wrreg .finalXor v) → t.finalXor = s.finalXor) ∧
      ((∀ v, i ≠ .wrreg .refState v) → t.refState = s.refState) ∧
      ((∀ tb idx, i ≠ .tabrd tb idx) → t.result = s.result))

/-- Every entry of both tables reads as before, except: the entry TABWR addresses, all of FT after BUILDF,
all of IT after BUILDF and BUILDI, and both after a command that invalidates them. That IT is kept by a
SCHK that fails follows 60_exceptions.md R122 against 10_state.md R33 (DEDUCED, log 7), and that an unlisted
entry reads as no value is log 6. -/
def Obligations.FrameOfTables : Prop :=
  ∀ (i : Instr) (s t : State), exec i s = .next t → invalidates i = false →
    (∀ a, i ≠ .buildf → (∀ idx v, i = .tabwr .ft idx v → a ≠ idx.toNat) →
      Memory.read t.ft a = Memory.read s.ft a) ∧
    (∀ a, i ≠ .buildf → i ≠ .buildi → (∀ idx v, i = .tabwr .it idx v → a ≠ idx.toNat) →
      Memory.read t.it a = Memory.read s.it a)

/-- 10_state.md R26, R27, R28: the three flags after every command that completes, and after one that
faults. -/
def Obligations.FlagRules : Prop :=
  ∀ (i : Instr) (s t : State), StateInv s → s.err = false → exec i s = .next t →
    (t.err = false →
      t.fwdValid = (if i = .buildf then true else if invalidates i then false else s.fwdValid) ∧
      t.invValid =
        (if i = .buildi then true
         else if invalidates i ∨ i = .buildf then false else s.invValid) ∧
      t.scPass =
        (if i = .schk then true
         else if invalidates i ∨ i = .buildf ∨ i = .buildi ∨ needsDbg i then false
         else s.scPass)) ∧
    (t.err = true →
      t.fwdValid = s.fwdValid ∧
      t.invValid = (if t.errCode = .invVerify ∨ t.errCode = .selfCheck then false else s.invValid) ∧
      t.scPass = (if t.errCode = .invVerify ∨ t.errCode = .selfCheck then false else s.scPass))

/-- The error record and the host side: a command that completes leaves the record (10_state.md R30), no
command touches the command latches or the bus, and each ends with BUSY = 0. -/
def Obligations.FrameOfRecordAndHost : Prop :=
  ∀ (i : Instr) (s t : State), exec i s = .next t →
    (t.err = false → sameRecord s t) ∧
    (s.err = true → t.err = true) ∧
    t.busy = false ∧ t.busyLeft = s.busyLeft ∧ t.cmdLo = s.cmdLo ∧ t.cmdHi = s.cmdHi ∧ t.bus = s.bus

/-- 10_state.md R22, 42_engine.md R97: INITXOR and FINALXOR influence nothing but XIX and XFX. -/
def Obligations.BoundaryConstantsInfluenceNothingElse : Prop :=
  ∀ (i : Instr) (s t : State) (x y : Word), i ≠ .xix → i ≠ .xfx → exec i s = .next t →
    ∃ u, exec i { s with initXor := x, finalXor := y } = .next u ∧
      u = { t with initXor := u.initXor, finalXor := u.finalXor }

/-- 60_exceptions.md R135: a step of one core leaves every other core of the system as it was; the cores keep
their numbers, so each keeps its own window and its own free values (DESIGN CHOICE, logs 10 and 15). -/
def Obligations.CoresShareNoState : Prop :=
  ∀ (cores cores' : List State) (k : Nat), stepSystem k cores = .next cores' →
    cores'.length = cores.length ∧ (∀ j, j ≠ k → cores'[j]? = cores[j]?) ∧
    (∀ s, cores[k]? = some s → ∃ t, step s = .next t ∧ cores'[k]? = some t) ∧
    (isSystem cores → isSystem cores')

/-! ## Programs of the pseudo-instructions -/

/-- 30_encoding.md R68, 40_config_polynomial.md R76: the program PSET stands for leaves POLY with exactly the
listed exponents' bits, whatever it held, and the tables invalid. -/
def Obligations.PsetProgramSetsTheExponents : Prop :=
  ∀ (s : State) (es : List Byte), s.err = false → (∀ e ∈ es, e.toNat < width s.style) →
    ∃ t, runProgram (encodeProgram (Pseudo.pset es).expand) s = .next t ∧ t.err = false ∧
      t.style = s.style ∧ t.fwdValid = false ∧ t.invValid = false ∧ t.scPass = false ∧
      ∀ k < 32, (t.poly.getLsbD k = true ↔ ∃ e ∈ es, e.toNat = k)

/-- 70_reset_and_hazards.md R143 with 43_inverse_table.md R105 and 44_selfcheck.md R111: from every state
between commands that is not halted and whose polynomial has the x^0 term, the program GEN stands for ends
with STATUS = 0x0000000E and tables that round-trip. -/
def Obligations.GenPublishesVerifiedTables : Prop :=
  ∀ s : State, StateInv s → s.err = false → s.poly.getLsbD 0 = true →
    ∃ t, runProgram (encodeProgram Pseudo.gen.expand) s = .next t ∧ Published t ∧
      t.poly = s.poly ∧ t.style = s.style ∧ roundTrips t.style t.ft t.it
end

