-- ==== Sys2Proof/Laws/Decode.lean ====
section
/-! SUPPORT. The field slices and the packing of a command word are inverse to each other; what the opcode lookup answers. -/

namespace Sys2Proof

/-- Every field of a packed word is the field that was packed. -/
@[simp] theorem fieldsOf_packFields (f : Fields) : fieldsOf (packFields f) = f := by
  obtain ⟨op, sel, idx, db, imm⟩ := f
  simp only [fieldsOf, packFields, Fields.mk.injEq]
  refine ⟨?_, ?_, ?_, ?_, ?_⟩ <;> (ext i hi; grind)

/-- A word is the packing of its fields. -/
@[simp] theorem packFields_fieldsOf (w : Cmd) : packFields (fieldsOf w) = w := by
  simp only [fieldsOf, packFields]
  ext i hi
  grind

/-- A byte names an opcode exactly when it is that opcode's code (30_encoding.md R60). -/
theorem Opcode.ofByte_eq_some {b : Byte} {o : Opcode} :
    Opcode.ofByte b = some o ↔ o.code = b := by
  constructor
  · intro h
    simpa using (List.find?_some h)
  · rintro rfl
    cases o <;> rfl

@[simp] theorem Opcode.ofByte_code (o : Opcode) : Opcode.ofByte o.code = some o :=
  Opcode.ofByte_eq_some.2 rfl

@[simp] theorem ValueReg.ofByte_code (r : ValueReg) : ValueReg.ofByte r.code = some r := by
  cases r <;> rfl

@[simp] theorem TableId.ofByte_code (t : TableId) : TableId.ofByte t.code = some t := by
  cases t <;> rfl

theorem ValueReg.ofByte_eq_some {b : Byte} {r : ValueReg} :
    ValueReg.ofByte b = some r ↔ r.code = b := by
  constructor
  · intro h
    simpa using (List.find?_some h)
  · rintro rfl
    simp

theorem TableId.ofByte_eq_some {b : Byte} {t : TableId} :
    TableId.ofByte b = some t ↔ t.code = b := by
  constructor
  · intro h
    simpa using (List.find?_some h)
  · rintro rfl
    simp

/-- The decoder on an encoded command works on the encoder's fields. -/
theorem decode_encode_fields (i : Instr) : decode (encode i) = decodeFields (encodeFields i) := by
  simp [decode, encode]

end Sys2Proof
end

