-- ==== Sys2Proof/Laws/Memory.lean ====
section
/-! SUPPORT. The laws of a table memory: read after write, the canonical form kept by every operation, and the fully written memory. -/

namespace Sys2Proof.Machine

/-! Read after write. -/

@[simp] theorem Memory.read_nil (i : Nat) : Memory.read [] i = none := rfl

theorem Memory.read_write_same (m : Memory) (i : Nat) (v : Word) :
    Memory.read (Memory.write m i v) i = some v := by
  induction m with
  | nil => simp [Memory.write, Memory.read]
  | cons c rest ih =>
    obtain ⟨j, w⟩ := c
    simp only [Memory.write]
    split
    · simp [Memory.read]
    · split
      · simp [Memory.read]
      · rename_i h1 h2
        simp [Memory.read, h2, ih]

theorem Memory.read_write_other (m : Memory) (i k : Nat) (v : Word) (h : k ≠ i) :
    Memory.read (Memory.write m i v) k = Memory.read m k := by
  induction m with
  | nil => simp [Memory.write, Memory.read, h]
  | cons c rest ih =>
    obtain ⟨j, w⟩ := c
    simp only [Memory.write]
    split
    · simp [Memory.read, h]
    · split
      · rename_i h1 h2
        subst h2
        simp [Memory.read, h]
      · simp [Memory.read, ih]

theorem Memory.read_write (m : Memory) (i k : Nat) (v : Word) :
    Memory.read (Memory.write m i v) k = if k = i then some v else Memory.read m k := by
  split
  · rename_i h; subst h; exact Memory.read_write_same m k v
  · rename_i h; exact Memory.read_write_other m i k v h

/-! The canonical form. -/

theorem Memory.wf_nil : Memory.wf [] :=
  ⟨List.Pairwise.nil, fun _ h => nomatch h⟩

/-- The cells of a written memory: the written one, and the old ones. -/
theorem Memory.mem_write {m : Memory} {i : Nat} {v : Word} {c : Nat × Word}
    (h : c ∈ Memory.write m i v) : c = (i, v) ∨ c ∈ m := by
  induction m with
  | nil => simpa [Memory.write] using h
  | cons d rest ih =>
    obtain ⟨j, w⟩ := d
    simp only [Memory.write] at h
    split at h
    · simpa using h
    · split at h
      · rcases List.mem_cons.1 h with h | h
        · exact .inl h
        · exact .inr (List.mem_cons_of_mem _ h)
      · rcases List.mem_cons.1 h with h | h
        · exact .inr (h ▸ List.mem_cons_self ..)
        · rcases ih h with h | h
          · exact .inl h
          · exact .inr (List.mem_cons_of_mem _ h)

theorem Memory.wf_cons {j : Nat} {w : Word} {rest : Memory} :
    Memory.wf ((j, w) :: rest) ↔
      (∀ c ∈ rest, j < c.1) ∧ j < Config.tableDepth ∧ Memory.wf rest := by
  simp only [Memory.wf, List.map_cons, List.pairwise_cons, List.mem_map, List.mem_cons]
  constructor
  · rintro ⟨⟨h1, h2⟩, h3⟩
    exact ⟨fun c hc => h1 _ ⟨c, hc, rfl⟩, h3 _ (.inl rfl), h2, fun c hc => h3 c (.inr hc)⟩
  · rintro ⟨h1, h2, h3, h4⟩
    refine ⟨⟨?_, h3⟩, ?_⟩
    · rintro _ ⟨c, hc, rfl⟩; exact h1 c hc
    · rintro c (rfl | hc)
      · exact h2
      · exact h4 c hc

/-- A write of an entry of the table keeps the canonical form. -/
theorem Memory.wf_write {m : Memory} (h : Memory.wf m) {i : Nat} (hi : i < Config.tableDepth)
    (v : Word) : Memory.wf (Memory.write m i v) := by
  induction m with
  | nil => exact Memory.wf_cons.2 ⟨fun _ h => (nomatch h), hi, Memory.wf_nil⟩
  | cons c rest ih =>
    obtain ⟨j, w⟩ := c
    obtain ⟨h1, h2, h3⟩ := Memory.wf_cons.1 h
    simp only [Memory.write]
    split
    · rename_i hij
      refine Memory.wf_cons.2 ⟨?_, hi, h⟩
      intro c hc
      rcases List.mem_cons.1 hc with rfl | hc
      · exact hij
      · exact lt_trans hij (h1 c hc)
    · split
      · rename_i hij
        subst hij
        exact Memory.wf_cons.2 ⟨h1, hi, h3⟩
      · rename_i h4 h5
        refine Memory.wf_cons.2 ⟨?_, h2, ih h3⟩
        intro c hc
        rcases Memory.mem_write hc with rfl | hc
        · simp only; omega
        · exact h1 c hc

/-! The fully written memory. -/

theorem Memory.wf_ofEntries (f : Nat → Word) : Memory.wf (Memory.ofEntries f) := by
  constructor
  · simp [Memory.ofEntries, Function.comp_def, List.pairwise_lt_range']
  · intro c hc
    simp only [Memory.ofEntries, List.mem_map, List.mem_range'_1] at hc
    obtain ⟨i, hi, rfl⟩ := hc
    simpa using hi

theorem Memory.read_map_range' (f : Nat → Word) (n a i : Nat) :
    Memory.read ((List.range' a n).map fun k => (k, f k)) i =
      if a ≤ i ∧ i < a + n then some (f i) else none := by
  induction n generalizing a with
  | zero => simp
  | succ n ih =>
    simp only [List.range'_succ, List.map_cons, Memory.read, ih]
    by_cases h : i = a
    · subst h; simp
    · simp only [h, if_false]
      congr 1
      simp only [eq_iff_iff]; omega

theorem Memory.read_ofEntries (f : Nat → Word) (i : Nat) :
    Memory.read (Memory.ofEntries f) i = if i < 256 then some (f i) else none := by
  simp [Memory.ofEntries, Memory.read_map_range']

theorem Memory.entry_ofEntries (f : Nat → Word) {i : Nat} (h : i < 256) :
    Memory.entry (Memory.ofEntries f) i = f i := by
  simp [Memory.entry, Memory.read_ofEntries, h]

theorem Memory.full_iff (m : Memory) :
    Memory.full m = true ↔ ∀ i < 256, (Memory.read m i).isSome = true := by
  simp [Memory.full, List.mem_range'_1]

theorem Memory.full_ofEntries (f : Nat → Word) : Memory.full (Memory.ofEntries f) = true := by
  rw [Memory.full_iff]
  intro i hi
  simp [Memory.read_ofEntries, hi]

/-- A write keeps every entry that held a value. -/
theorem Memory.full_write {m : Memory} (h : Memory.full m = true) (i : Nat) (v : Word) :
    Memory.full (Memory.write m i v) = true := by
  rw [Memory.full_iff] at *
  intro k hk
  rw [Memory.read_write]
  split
  · rfl
  · exact h k hk

/-- Reading an entry of a full memory gives the value `entry` names. -/
theorem Memory.read_eq_entry {m : Memory} (h : Memory.full m = true) {i : Nat} (hi : i < 256) :
    Memory.read m i = some (Memory.entry m i) := by
  obtain ⟨v, hv⟩ := Option.isSome_iff_exists.1 ((Memory.full_iff m).1 h i hi)
  simp [Memory.entry, hv]

/-- The value read is one of the listed cells. -/
theorem Memory.mem_of_read {m : Memory} {i : Nat} {v : Word} (h : Memory.read m i = some v) :
    (i, v) ∈ m := by
  induction m with
  | nil => simp at h
  | cons c rest ih =>
    obtain ⟨j, w⟩ := c
    simp only [Memory.read] at h
    split at h
    · rename_i hij
      obtain rfl := Option.some.inj h
      subst hij
      exact List.mem_cons_self ..
    · exact List.mem_cons_of_mem _ (ih h)

/-- A memory in canonical form has no entry below its first index. -/
theorem Memory.read_eq_none {m : Memory} {i : Nat} (h : ∀ c ∈ m, i < c.1) :
    Memory.read m i = none := by
  induction m with
  | nil => rfl
  | cons c rest ih =>
    have h1 := h c (List.mem_cons_self ..)
    simp only [Memory.read]
    rw [if_neg (by omega)]
    exact ih fun d hd => h d (List.mem_cons_of_mem _ hd)

/-- Two memories in canonical form that read the same are the same data. -/
theorem Memory.eq_of_read {m n : Memory} (hm : Memory.wf m) (hn : Memory.wf n)
    (h : ∀ i, Memory.read m i = Memory.read n i) : m = n := by
  induction m generalizing n with
  | nil =>
    cases n with
    | nil => rfl
    | cons d rest =>
      have := h d.1
      simp [Memory.read] at this
  | cons c rest ih =>
    obtain ⟨j, v⟩ := c
    obtain ⟨h1, -, h3⟩ := Memory.wf_cons.1 hm
    cases n with
    | nil =>
      have := h j
      simp [Memory.read] at this
    | cons d rest' =>
      obtain ⟨k, w⟩ := d
      obtain ⟨g1, -, g3⟩ := Memory.wf_cons.1 hn
      have hjk : j = k := by
        rcases lt_trichotomy j k with hlt | heq | hlt
        · have h4 := h j
          rw [Memory.read_eq_none (m := (k, w) :: rest')] at h4
          · simp [Memory.read] at h4
          · intro c hc
            rcases List.mem_cons.1 hc with rfl | hc
            · exact hlt
            · exact lt_trans hlt (g1 c hc)
        · exact heq
        · have h4 := h k
          rw [Memory.read_eq_none (m := (j, v) :: rest)] at h4
          · simp [Memory.read] at h4
          · intro c hc
            rcases List.mem_cons.1 hc with rfl | hc
            · exact hlt
            · exact lt_trans hlt (h1 c hc)
      subst hjk
      have hv : v = w := by simpa [Memory.read] using h j
      subst hv
      rw [ih h3 g3 fun i => ?_]
      by_cases hi : i = j
      · subst hi
        rw [Memory.read_eq_none h1, Memory.read_eq_none g1]
      · simpa [Memory.read, hi] using h i

end Sys2Proof.Machine
end

