-- ==== Sys2Proof/Laws/Engine.lean ====
section
/-! SUPPORT. Bounds of the datapath functions: every index is an index of a table, every result is a W-bit value; what the built table reads as. -/

namespace Sys2Proof.Machine

theorem and_ff_lt (v : Word) : (v &&& 0xFF).toNat < 256 := by
  have : (v &&& 0xFF).toNat ≤ 255 := by
    rw [BitVec.toNat_and]
    exact Nat.and_le_right
  omega

theorem fwdIndex_lt (S : Style) (s : Word) (b : Byte) : fwdIndex S s b < 256 := by
  cases S <;> exact and_ff_lt _

theorem rindex_lt (S : Style) (v : Word) : rindex S v < 256 := by
  cases S <;> exact and_ff_lt _

/-- A value masked to W bits is below 2^W (00_scope.md R9). -/
theorem and_mask_lt (S : Style) (v : Word) : (v &&& mask S).toNat < 2 ^ width S := by
  have h : (v &&& mask S).toNat ≤ (mask S).toNat := by
    rw [BitVec.toNat_and]
    exact Nat.and_le_right
  cases S <;> simp only [mask, width] at * <;> simp at h ⊢ <;> omega

/-- A W-bit value is unchanged by its mask (00_scope.md R9). -/
theorem and_mask_eq {S : Style} {v : Word} (h : v.toNat < 2 ^ width S) : v &&& mask S = v := by
  apply BitVec.eq_of_toNat_eq
  rw [BitVec.toNat_and]
  have hm : (mask S).toNat = 2 ^ width S - 1 := by cases S <;> rfl
  rw [hm, Nat.and_two_pow_sub_one_eq_mod, Nat.mod_eq_of_lt h]

theorem advanceWith_lt (S : Style) (s e : Word) : (advanceWith S s e).toNat < 2 ^ width S := by
  cases S
  · exact and_mask_lt .r16 _
  · exact and_mask_lt .n16 _
  · exact and_mask_lt .p32 _

theorem retreatWith_lt (S : Style) (v : Word) (b : Byte) (e : Word) :
    (retreatWith S v b e).toNat < 2 ^ width S := by
  cases S
  · exact and_mask_lt .r16 _
  · exact and_mask_lt .n16 _
  · exact and_mask_lt .p32 _

theorem reverse_lt (S : Style) (v : Word) : (reverse S v).toNat < 2 ^ width S :=
  and_mask_lt S _

theorem fwdEntry_lt (S : Style) (poly : Word) (n : Nat) :
    (fwdEntry S poly n).toNat < 2 ^ width S := by
  have h : fwdRaw S poly n &&& (mask S).toNat ≤ (mask S).toNat := Nat.and_le_right
  have hm : (mask S).toNat = 2 ^ width S - 1 := by cases S <;> rfl
  have hw : 2 ^ width S ≤ 2 ^ 32 := by cases S <;> decide
  have hp : 0 < 2 ^ width S := Nat.two_pow_pos _
  have : (fwdEntry S poly n).toNat = fwdRaw S poly n &&& (mask S).toNat := by
    rw [fwdEntry, BitVec.toNat_ofNat]
    exact Nat.mod_eq_of_lt (by omega)
  omega

/-- A built forward table holds `fwd_S(n) & M_W` at every n (41_forward_table.md R86). -/
theorem read_forwardTable (S : Style) (poly : Word) (n : Nat) :
    Memory.read (forwardTable S poly) n = if n < 256 then some (fwdEntry S poly n) else none :=
  Memory.read_ofEntries _ _

theorem entry_forwardTable (S : Style) (poly : Word) {n : Nat} (h : n < 256) :
    Memory.entry (forwardTable S poly) n = fwdEntry S poly n :=
  Memory.entry_ofEntries _ h

theorem full_forwardTable (S : Style) (poly : Word) : Memory.full (forwardTable S poly) = true :=
  Memory.full_ofEntries _

theorem wf_forwardTable (S : Style) (poly : Word) : Memory.wf (forwardTable S poly) :=
  Memory.wf_ofEntries _

/-- Every byte is in the loop `for b in 0..255`. -/
theorem mem_allBytes (b : Byte) : b ∈ allBytes := by
  simp only [allBytes, List.mem_map, List.mem_range'_1]
  exact ⟨b.toNat, ⟨by omega, by have := b.isLt; omega⟩, by simp⟩

/-- Patching keeps the canonical form (43_inverse_table.md R100). -/
theorem wf_patchTable (S : Style) (ft : Memory) (R : Word) : Memory.wf (patchTable S ft R) := by
  have key : ∀ (bs : List Byte) (m : Memory), Memory.wf m →
      Memory.wf (bs.foldl (patchByte S ft R) m) := by
    intro bs
    induction bs with
    | nil => exact fun _ h => h
    | cons b bs ih => exact fun m h => ih _ (Memory.wf_write h (rindex_lt _ _) _)
  exact key _ _ Memory.wf_nil

/-- Phase 2 finds no mismatch exactly when every byte comes back to R (43_inverse_table.md R101). -/
theorem validate_eq_none {S : Style} {ft it : Memory} {R : Word} :
    validate S ft it R = none ↔ ∀ b : Byte, retreat S it (advance S ft R b) b = R := by
  simp [validate, List.findSome?_eq_none_iff, mem_allBytes]

/-- The self-check finds no failing pair exactly when every tested round trip holds (44_selfcheck.md R107). -/
theorem firstFailure_eq_none {S : Style} {ft it : Memory} :
    firstFailure S ft it = none ↔
      ∀ x ∈ testedStates S, ∀ b : Byte, retreat S it (advance S ft x b) b = x := by
  simp [firstFailure, List.findSome?_eq_none_iff, mem_allBytes]

end Sys2Proof.Machine
end

