-- ==== Sys2Proof/Laws/Exec.lean ====
section
/-! SUPPORT. One inversion lemma per meaning: everything the command can do when it answers a next state. -/

namespace Sys2Proof.Machine

theorem execCfg_next {c : BitVec 2} {d : Bool} {s t : State} (h : execCfg c d s = .next t) :
    (styleOfCode c = none ∧ t = raise .illegalOperand 0 0 0 s) ∨
    (∃ st, styleOfCode c = some st ∧ t = (s.configure st d).complete) := by
  unfold execCfg at h
  split at h
  · exact .inl ⟨by assumption, (Host.Outcome.next.inj h).symm⟩
  · exact .inr ⟨_, by assumption, (Host.Outcome.next.inj h).symm⟩

theorem execPexp_next {e : Byte} {s t : State} (h : execPexp e s = .next t) :
    (width s.style ≤ e.toNat ∧ t = raise .contract (e.setWidth 32) 0 0 s) ∨
    (e.toNat < width s.style ∧ t = (s.setPoly (s.poly ||| (1#32 <<< e.toNat))).complete) := by
  unfold execPexp at h
  split at h
  · exact .inl ⟨by assumption, (Host.Outcome.next.inj h).symm⟩
  · exact .inr ⟨by omega, (Host.Outcome.next.inj h).symm⟩

theorem execPld_next {imm : Word} {s t : State} (h : execPld imm s = .next t) :
    (fits s.style imm = false ∧ t = raise .contract imm 0 0 s) ∨
    (fits s.style imm = true ∧ t = (s.setPoly imm).complete) := by
  unfold execPld at h
  split at h
  · exact .inr ⟨by assumption, (Host.Outcome.next.inj h).symm⟩
  · exact .inl ⟨by simp_all, (Host.Outcome.next.inj h).symm⟩

theorem execWrreg_next {r : ValueReg} {imm : Word} {s t : State} (h : execWrreg r imm s = .next t) :
    (regFits s.style r imm = false ∧ t = raise .contract imm 0 0 s) ∨
    (regFits s.style r imm = true ∧ t = (s.writeReg r imm).complete) := by
  unfold execWrreg at h
  split at h
  · exact .inr ⟨by assumption, (Host.Outcome.next.inj h).symm⟩
  · exact .inl ⟨by simp_all, (Host.Outcome.next.inj h).symm⟩

theorem execAdv_next {b : Byte} {s t : State} (h : execAdv b s = .next t) :
    (s.fwdValid = false ∧ t = raise .notReady 0 0 0 s) ∨
    (s.fwdValid = true ∧ ∃ e, Memory.read s.ft (fwdIndex s.style s.state b) = some e ∧
      t = (s.setState (advanceWith s.style s.state e)).complete) := by
  unfold execAdv at h
  split at h
  · split at h
    · cases h
    · exact .inr ⟨by assumption, _, by assumption, (Host.Outcome.next.inj h).symm⟩
  · exact .inl ⟨by simp_all, (Host.Outcome.next.inj h).symm⟩

theorem execRet_next {b : Byte} {s t : State} (h : execRet b s = .next t) :
    (s.invValid = false ∧ t = raise .notReady 0 0 0 s) ∨
    (s.invValid = true ∧ ∃ e, Memory.read s.it (rindex s.style s.state) = some e ∧
      t = (s.setState (retreatWith s.style s.state b e)).complete) := by
  unfold execRet at h
  split at h
  · split at h
    · cases h
    · exact .inr ⟨by assumption, _, by assumption, (Host.Outcome.next.inj h).symm⟩
  · exact .inl ⟨by simp_all, (Host.Outcome.next.inj h).symm⟩

theorem execBuildi_next {s t : State} (h : execBuildi s = .next t) :
    (s.fwdValid = false ∧ t = raise .notReady 0 0 0 s) ∨
    (s.fwdValid = true ∧ Memory.full s.ft = true ∧
      ((validate s.style s.ft (patchTable s.style s.ft s.refState) s.refState = none ∧
        t = (s.installInverse (patchTable s.style s.ft s.refState)).complete) ∨
      (∃ v b, validate s.style s.ft (patchTable s.style s.ft s.refState) s.refState = some (v, b) ∧
        t = raise .invVerify s.refState v (b.setWidth 32) s.withdrawInverse))) := by
  unfold execBuildi at h
  split at h
  · split at h
    · refine .inr ⟨by assumption, by assumption, ?_⟩
      split at h
      · exact .inl ⟨by assumption, (Host.Outcome.next.inj h).symm⟩
      · exact .inr ⟨_, _, by assumption, (Host.Outcome.next.inj h).symm⟩
    · cases h
  · exact .inl ⟨by simp_all, (Host.Outcome.next.inj h).symm⟩

theorem execSchk_next {s t : State} (h : execSchk s = .next t) :
    (s.invValid = false ∧ t = raise .notReady 0 0 0 s) ∨
    (s.invValid = true ∧ Memory.full s.ft = true ∧ Memory.full s.it = true ∧
      ((firstFailure s.style s.ft s.it = none ∧ t = s.markPass.complete) ∨
      (∃ x r b, firstFailure s.style s.ft s.it = some (x, r, b) ∧
        t = raise .selfCheck x r (b.setWidth 32) s.failCheck))) := by
  unfold execSchk at h
  split at h
  · split at h
    · rename_i h1 h2
      simp only [Bool.and_eq_true] at h2
      refine .inr ⟨h1, h2.1, h2.2, ?_⟩
      split at h
      · exact .inl ⟨by assumption, (Host.Outcome.next.inj h).symm⟩
      · exact .inr ⟨_, _, _, by assumption, (Host.Outcome.next.inj h).symm⟩
    · cases h
  · exact .inl ⟨by simp_all, (Host.Outcome.next.inj h).symm⟩

theorem execTabrd_next {tb : TableId} {idx : Byte} {s t : State}
    (h : execTabrd tb idx s = .next t) :
    (s.tableValid tb = false ∧ t = raise .notReady 0 0 0 s) ∨
    (s.tableValid tb = true ∧ ∃ e, Memory.read (s.table tb) idx.toNat = some e ∧
      t = (s.setResult e).complete) := by
  unfold execTabrd at h
  split at h
  · split at h
    · cases h
    · exact .inr ⟨by assumption, _, by assumption, (Host.Outcome.next.inj h).symm⟩
  · exact .inl ⟨by simp_all, (Host.Outcome.next.inj h).symm⟩

theorem execTabwr_next {tb : TableId} {idx : Byte} {imm : Word} {s t : State}
    (h : execTabwr tb idx imm s = .next t) :
    (s.dbg = false ∧ t = raise .permission 0 0 0 s) ∨
    (s.dbg = true ∧ s.tableValid tb = false ∧ t = raise .notReady 0 0 0 s) ∨
    (s.dbg = true ∧ s.tableValid tb = true ∧ fits s.style imm = false ∧
      t = raise .contract imm 0 0 s) ∨
    (s.dbg = true ∧ s.tableValid tb = true ∧ fits s.style imm = true ∧
      t = (s.writeTable tb idx.toNat imm).clearPass.complete) := by
  unfold execTabwr at h
  split at h
  · exact .inl ⟨by simp_all, (Host.Outcome.next.inj h).symm⟩
  · split at h
    · exact .inr (.inl ⟨by simp_all, by simp_all, (Host.Outcome.next.inj h).symm⟩)
    · split at h
      · exact .inr (.inr (.inl ⟨by simp_all, by simp_all, by simp_all, (Host.Outcome.next.inj h).symm⟩))
      · exact .inr (.inr (.inr ⟨by simp_all, by simp_all, by simp_all, (Host.Outcome.next.inj h).symm⟩))

end Sys2Proof.Machine
end

