-- ==== Sys2Proof/Laws/Inverse.lean ====
section
/-! SUPPORT. The algebra of advance and retreat on W-bit values, what patching leaves in the table, and what validation and the closed form say of each other (42_engine.md, 43_inverse_table.md). -/

namespace Sys2Proof.Machine

/-! Values within W bits. -/

/-- A W-bit value has no bit at or above W. -/
theorem bit_of_fits {S : Style} {e : Word} (h : e.toNat < 2 ^ width S) {i : Nat} (hi : i < 32)
    (hw : width S ≤ i) : e[i] = false := by
  rw [← BitVec.getLsbD_eq_getElem, BitVec.getLsbD]
  exact Nat.testBit_lt_two_pow (lt_of_lt_of_le h (Nat.pow_le_pow_right (by decide) hw))

theorem xor_fits {S : Style} {a b : Word} (ha : a.toNat < 2 ^ width S) (hb : b.toNat < 2 ^ width S) :
    (a ^^^ b).toNat < 2 ^ width S := by
  rw [BitVec.toNat_xor]; exact Nat.xor_lt_two_pow ha hb

theorem or_fits {S : Style} {a b : Word} (ha : a.toNat < 2 ^ width S) (hb : b.toNat < 2 ^ width S) :
    (a ||| b).toNat < 2 ^ width S := by
  rw [BitVec.toNat_or]; exact Nat.or_lt_two_pow ha hb

/-- The bit PEXP sets is a W-bit value (40_config_polynomial.md R76). -/
theorem bit_fits {S : Style} {e : Nat} (h : e < width S) : (1#32 <<< e).toNat < 2 ^ width S := by
  rw [BitVec.toNat_shiftLeft, Nat.shiftLeft_eq]
  refine lt_of_le_of_lt (Nat.mod_le _ _) ?_
  simpa using Nat.pow_lt_pow_right (a := 2) (by decide) h

/-- XOR with x can be undone: the form the round trip takes. -/
theorem xor_eq_self_iff (a x c : Word) : a ^^^ x ^^^ c = x ↔ c = a := by
  rw [BitVec.xor_comm a x, BitVec.xor_assoc]
  constructor
  · intro h
    have h2 : x ^^^ (x ^^^ (a ^^^ c)) = x ^^^ x := by rw [h]
    rw [← BitVec.xor_assoc, BitVec.xor_self, BitVec.zero_xor] at h2
    have h3 : a ^^^ (a ^^^ c) = a ^^^ 0#32 := by rw [h2]
    rw [← BitVec.xor_assoc, BitVec.xor_self, BitVec.zero_xor, BitVec.xor_zero] at h3
    exact h3
  · rintro rfl
    simp

/-! Tables within W bits. -/

theorem bounded_nil (S : Style) : tableBounded S [] := fun _ h => nomatch h

theorem bounded_write {S : Style} {m : Memory} (h : tableBounded S m) (i : Nat) {v : Word}
    (hv : v.toNat < 2 ^ width S) : tableBounded S (Memory.write m i v) := by
  intro c hc
  rcases Memory.mem_write hc with rfl | hc
  · exact hv
  · exact h c hc

theorem bounded_forwardTable (S : Style) (poly : Word) : tableBounded S (forwardTable S poly) := by
  intro c hc
  simp only [forwardTable, Memory.ofEntries, List.mem_map] at hc
  obtain ⟨i, -, rfl⟩ := hc
  exact fwdEntry_lt _ _ _

theorem bounded_patchTable (S : Style) (ft : Memory) (R : Word) :
    tableBounded S (patchTable S ft R) := by
  have key : ∀ (bs : List Byte) (m : Memory), tableBounded S m →
      tableBounded S (bs.foldl (patchByte S ft R) m) := by
    intro bs
    induction bs with
    | nil => exact fun _ h => h
    | cons b bs ih => exact fun m h => ih _ (bounded_write h _ (retreatWith_lt _ _ _ _))
  exact key _ _ (bounded_nil S)

theorem entry_fits {S : Style} {m : Memory} (h : tableBounded S m) (i : Nat) :
    (Memory.entry m i).toNat < 2 ^ width S := by
  unfold Memory.entry
  cases hr : Memory.read m i with
  | none => simp
  | some v => exact h _ (Memory.mem_of_read hr)

/-! The datapath. -/

/-- The reverse index after an advance is the index part of the entry read (43_inverse_table.md R104). -/
theorem rindex_advanceWith {S : Style} {x e : Word} (hx : x.toNat < 2 ^ width S)
    (he : e.toNat < 2 ^ width S) : rindex S (advanceWith S x e) = closedIndex S e := by
  have hx' := fun i => @bit_of_fits S x hx i
  have he' := fun i => @bit_of_fits S e he i
  cases S
  all_goals
    simp only [rindex, advanceWith, closedIndex, width] at *
    congr 1
    refine BitVec.eq_of_getLsbD_eq fun i hi => ?_
    simp only [BitVec.getLsbD_and, BitVec.getLsbD_xor, BitVec.getLsbD_ushiftRight,
      BitVec.getLsbD_shiftLeft]
    interval_cases i <;> simp [hx', he']

/-- Retreat with the value y after an advance: x, with the closed-form entry and y XORed in; y cancels
where it is that entry (42_engine.md R92, 43_inverse_table.md R104). -/
theorem retreatWith_advanceWith {S : Style} {x e y : Word} (b : Byte) (hx : x.toNat < 2 ^ width S)
    (he : e.toNat < 2 ^ width S) (hy : y.toNat < 2 ^ width S) :
    retreatWith S (advanceWith S x e) b y = closedEntry S (fwdIndex S x b) e ^^^ x ^^^ y := by
  have hx' := fun i => @bit_of_fits S x hx i
  have he' := fun i => @bit_of_fits S e he i
  have hy' := fun i => @bit_of_fits S y hy i
  cases S
  all_goals
    simp only [retreatWith, advanceWith, closedEntry, fwdIndex, width, BitVec.ofNat_toNat,
      BitVec.setWidth_eq] at *
    refine BitVec.eq_of_getLsbD_eq fun i hi => ?_
    simp only [BitVec.getLsbD_and, BitVec.getLsbD_xor, BitVec.getLsbD_or,
      BitVec.getLsbD_ushiftRight, BitVec.getLsbD_shiftLeft, BitVec.getLsbD_setWidth]
    interval_cases i <;> simp [hx', he', hy', Bool.xor_comm, Bool.xor_left_comm]

theorem xor_byte_and_ff (y : Word) (j : Byte) :
    (y ^^^ (y.setWidth 8 ^^^ j).setWidth 32) &&& 0xFF = j.setWidth 32 := by
  refine BitVec.eq_of_getLsbD_eq fun i hi => ?_
  interval_cases i <;> simp

theorem byte_eq_of_xor_and_ff {y : Word} {b c : Byte}
    (h : (y ^^^ b.setWidth 32) &&& 0xFF = (y ^^^ c.setWidth 32) &&& 0xFF) : b = c := by
  refine BitVec.eq_of_getLsbD_eq fun i hi => ?_
  have h2 := congrArg (fun w => BitVec.getLsbD w i) h
  interval_cases i <;> simpa using h2

/-- As the byte runs over 0..255, so does the FT index (43_inverse_table.md R104). -/
theorem exists_byte_of_index (S : Style) (x : Word) {i : Nat} (h : i < 256) :
    ∃ b : Byte, fwdIndex S x b = i := by
  have key : ∀ y : Word, ∃ b : Byte, ((y ^^^ b.setWidth 32) &&& 0xFF).toNat = i := by
    intro y
    refine ⟨y.setWidth 8 ^^^ BitVec.ofNat 8 i, ?_⟩
    rw [xor_byte_and_ff]
    simp only [BitVec.toNat_setWidth, BitVec.toNat_ofNat]
    omega
  cases S
  · exact key x
  · exact key (x >>> 8)
  · exact key (x >>> 24)

/-- Different bytes give different FT indexes. -/
theorem byte_of_index_unique {S : Style} {x : Word} {b c : Byte}
    (h : fwdIndex S x b = fwdIndex S x c) : b = c := by
  cases S <;> exact byte_eq_of_xor_and_ff (BitVec.eq_of_toNat_eq h)

/-! The closed form. -/

theorem closedIndex_lt {S : Style} {e : Word} (h : e.toNat < 2 ^ width S) : closedIndex S e < 256 := by
  cases S
  · simp only [closedIndex, width] at *
    rw [BitVec.toNat_ushiftRight, Nat.shiftRight_eq_div_pow]
    omega
  · exact and_ff_lt _
  · exact and_ff_lt _

/-- The byte of a closed-form entry that holds the FT index (43_inverse_table.md R105). -/
theorem index_of_closedEntry {S : Style} {i : Nat} {e : Word} (hi : i < 256)
    (he : e.toNat < 2 ^ width S) :
    (match S with
      | .r16 => closedEntry .r16 i e &&& 0xFF
      | .n16 => closedEntry .n16 i e >>> 8
      | .p32 => closedEntry .p32 i e >>> 24) = BitVec.ofNat 32 i := by
  have he' := fun i => @bit_of_fits S e he i
  have hi' : ∀ k, 8 ≤ k → i.testBit k = false := fun k hk =>
    Nat.testBit_lt_two_pow (lt_of_lt_of_le hi (Nat.pow_le_pow_right (n := 2) (by decide) hk))
  cases S
  all_goals
    simp only [closedEntry, width] at *
    refine BitVec.eq_of_getLsbD_eq fun k hk => ?_
    simp only [BitVec.getLsbD_and, BitVec.getLsbD_or, BitVec.getLsbD_ushiftRight,
      BitVec.getLsbD_shiftLeft, BitVec.getLsbD_ofNat]
    interval_cases k <;> simp [he', hi']

theorem closedEntry_index_unique {S : Style} {i j : Nat} {e f : Word} (hi : i < 256) (hj : j < 256)
    (he : e.toNat < 2 ^ width S) (hf : f.toNat < 2 ^ width S)
    (h : closedEntry S i e = closedEntry S j f) : i = j := by
  have h1 := index_of_closedEntry hi he
  have h2 := index_of_closedEntry hj hf
  have h3 : BitVec.ofNat 32 i = BitVec.ofNat 32 j := by
    cases S <;> simp only at h1 h2 <;> rw [← h1, ← h2, h]
  have h4 := congrArg BitVec.toNat h3
  simp only [BitVec.toNat_ofNat] at h4
  omega

/-- The index part and the closed-form entry determine the FT entry. -/
theorem entry_of_closed {S : Style} {i : Nat} {e f : Word} (hi : i < 256)
    (he : e.toNat < 2 ^ width S) (hf : f.toNat < 2 ^ width S)
    (h1 : closedIndex S e = closedIndex S f) (h2 : closedEntry S i e = closedEntry S i f) : e = f := by
  have he' := fun i => @bit_of_fits S e he i
  have hf' := fun i => @bit_of_fits S f hf i
  have hi' : ∀ k, 8 ≤ k → i.testBit k = false := fun k hk =>
    Nat.testBit_lt_two_pow (lt_of_lt_of_le hi (Nat.pow_le_pow_right (n := 2) (by decide) hk))
  cases S
  all_goals
    simp only [closedIndex, closedEntry, width] at *
    have h1 := BitVec.eq_of_toNat_eq h1
    have a1 := fun k => congrArg (fun w => BitVec.getLsbD w k) h1
    have a2 := fun k => congrArg (fun w => BitVec.getLsbD w k) h2
    simp only [BitVec.getLsbD_and, BitVec.getLsbD_or, BitVec.getLsbD_ushiftRight,
      BitVec.getLsbD_shiftLeft, BitVec.getLsbD_ofNat] at a1 a2
    refine BitVec.eq_of_getLsbD_eq fun k hk => ?_
    have b1 := a1 k
    have b2 := a1 (k - 8)
    have b3 := a2 (k + 8)
    have b4 := a2 (k - 8)
    interval_cases k <;> simp [he', hf', hi'] at b1 b2 b3 b4 ⊢ <;> assumption

/-- The round trip of one state and byte holds exactly when IT holds the closed-form entry of the FT entry
that the advance reads (42_engine.md R95). -/
theorem roundTrip_iff {S : Style} {ft it : Memory} {x : Word} {b : Byte} (hx : x.toNat < 2 ^ width S)
    (hf : tableBounded S ft) (hi : tableBounded S it) :
    retreat S it (advance S ft x b) b = x ↔
      Memory.entry it (closedIndex S (Memory.entry ft (fwdIndex S x b))) =
        closedEntry S (fwdIndex S x b) (Memory.entry ft (fwdIndex S x b)) := by
  simp only [retreat, advance]
  rw [rindex_advanceWith hx (entry_fits hf _),
    retreatWith_advanceWith b hx (entry_fits hf _) (entry_fits hi _)]
  exact xor_eq_self_iff _ _ _

/-- One byte of phase 1 writes the closed-form entry of the FT entry it reads: R has cancelled
(43_inverse_table.md R104). -/
theorem patchByte_eq {S : Style} {ft : Memory} {R : Word} (tmp : Memory) (b : Byte)
    (hR : R.toNat < 2 ^ width S) (hf : tableBounded S ft) :
    patchByte S ft R tmp b =
      Memory.write tmp (closedIndex S (Memory.entry ft (fwdIndex S R b)))
        (closedEntry S (fwdIndex S R b) (Memory.entry ft (fwdIndex S R b))) := by
  simp only [patchByte, advance]
  rw [rindex_advanceWith hR (entry_fits hf _),
    retreatWith_advanceWith b hR (entry_fits hf _) hR, BitVec.xor_assoc, BitVec.xor_self,
    BitVec.xor_zero]

/-- After phase 1 every index part of FT holds the closed-form entry of some FT entry with that index part. -/
theorem read_patchTable {S : Style} {ft : Memory} {R : Word} (hR : R.toNat < 2 ^ width S)
    (hf : tableBounded S ft) {i : Nat} (hi : i < 256) :
    ∃ k, k < 256 ∧ closedIndex S (Memory.entry ft k) = closedIndex S (Memory.entry ft i) ∧
      Memory.read (patchTable S ft R) (closedIndex S (Memory.entry ft i)) =
        some (closedEntry S k (Memory.entry ft k)) := by
  have key : ∀ (bs : List Byte) (m : Memory) (j : Nat),
      ((∃ b ∈ bs, closedIndex S (Memory.entry ft (fwdIndex S R b)) = j) ∨
        (∃ k, k < 256 ∧ closedIndex S (Memory.entry ft k) = j ∧
          Memory.read m j = some (closedEntry S k (Memory.entry ft k)))) →
      ∃ k, k < 256 ∧ closedIndex S (Memory.entry ft k) = j ∧
        Memory.read (bs.foldl (patchByte S ft R) m) j =
          some (closedEntry S k (Memory.entry ft k)) := by
    intro bs
    induction bs with
    | nil =>
      rintro m j (⟨b, hb, -⟩ | h)
      · cases hb
      · exact h
    | cons b bs ih =>
      intro m j h
      rw [List.foldl_cons]
      apply ih
      by_cases hj : closedIndex S (Memory.entry ft (fwdIndex S R b)) = j
      · refine .inr ⟨fwdIndex S R b, fwdIndex_lt _ _ _, hj, ?_⟩
        rw [patchByte_eq m b hR hf, hj, Memory.read_write_same]
      · rcases h with ⟨c, hc, h⟩ | ⟨k, h1, h2, h3⟩
        · rcases List.mem_cons.1 hc with rfl | hc
          · exact absurd h hj
          · exact .inl ⟨c, hc, h⟩
        · refine .inr ⟨k, h1, h2, ?_⟩
          rw [patchByte_eq m b hR hf, Memory.read_write_other _ _ _ _ (Ne.symm hj), h3]
  obtain ⟨b, hb⟩ := exists_byte_of_index S R hi
  exact key _ _ _ (.inl ⟨b, mem_allBytes b, by rw [hb]⟩)

/-- Phase 2 passes exactly when IT holds, at the index part of every FT entry, its closed-form entry. -/
theorem validate_iff {S : Style} {ft it : Memory} {R : Word} (hR : R.toNat < 2 ^ width S)
    (hf : tableBounded S ft) (hi : tableBounded S it) :
    validate S ft it R = none ↔
      ∀ i, i < 256 → Memory.entry it (closedIndex S (Memory.entry ft i)) =
        closedEntry S i (Memory.entry ft i) := by
  rw [validate_eq_none]
  constructor
  · intro h i hi'
    obtain ⟨b, hb⟩ := exists_byte_of_index S R hi'
    have := (roundTrip_iff hR hf hi).1 (h b)
    rwa [hb] at this
  · intro h b
    exact (roundTrip_iff hR hf hi).2 (h _ (fwdIndex_lt _ _ _))

/-- A table pair in closed form has an injective index part (43_inverse_table.md R105). -/
theorem injective_of_closedForm {S : Style} {ft it : Memory} (hf : tableBounded S ft)
    (h : closedForm S ft it) : indexInjective S ft := by
  intro i hi j hj e
  have h1 := h i hi
  rw [e, h j hj] at h1
  exact (closedEntry_index_unique hj hi (entry_fits hf _) (entry_fits hf _)
    (Option.some.inj h1)).symm

/-- An index part that is injective on 0..255 takes every value of 0..255. -/
theorem index_surjective {S : Style} {ft : Memory} (hf : tableBounded S ft)
    (h : indexInjective S ft) {j : Nat} (hj : j < 256) :
    ∃ i, i < 256 ∧ closedIndex S (Memory.entry ft i) = j := by
  let g : Fin 256 → Fin 256 := fun i =>
    ⟨closedIndex S (Memory.entry ft i), closedIndex_lt (entry_fits hf _)⟩
  have hg : Function.Injective g := fun a b hab =>
    Fin.ext (h a a.2 b b.2 (congrArg Fin.val hab))
  obtain ⟨i, hi⟩ := Finite.surjective_of_injective hg ⟨j, hj⟩
  exact ⟨i, i.2, congrArg Fin.val hi⟩

/-- An inverse table in closed form holds a value everywhere. -/
theorem full_of_closedForm {S : Style} {ft it : Memory} (hf : tableBounded S ft)
    (h : closedForm S ft it) : Memory.full it = true := by
  rw [Memory.full_iff]
  intro j hj
  obtain ⟨i, hi, rfl⟩ := index_surjective hf (injective_of_closedForm hf h) hj
  rw [h i hi]
  rfl

end Sys2Proof.Machine
end

