-- ==== Sys2Proof/Laws/PerInstr.lean ====
section
/-! SUPPORT. The family TableRow: the word the encoder gives a well-formed command matches that command's row of the opcode table, whose mask and match words are written out here from spec/opcode_table.json. -/

namespace Sys2Proof.Laws.TableRow

/-- The row's mask. -/
def rowMask : Instr → Cmd
  | .nop => 0xFFFFFFFFFFFFFFFF
  | .cfg _ _ => 0xFFFCFEFFFFFFFFFF
  | .pclr => 0xFFFFFFFFFFFFFFFF
  | .pexp _ => 0xFFFF00FFFFFFFFFF
  | .pld _ => 0xFFFFFFFF00000000
  | .prev => 0xFFFFFFFFFFFFFFFF
  | .wrreg _ _ => 0xFFFCFFFF00000000
  | .xix => 0xFFFFFFFFFFFFFFFF
  | .xfx => 0xFFFFFFFFFFFFFFFF
  | .buildf => 0xFFFFFFFFFFFFFFFF
  | .buildi => 0xFFFFFFFFFFFFFFFF
  | .schk => 0xFFFFFFFFFFFFFFFF
  | .adv _ => 0xFFFFFF00FFFFFFFF
  | .ret _ => 0xFFFFFF00FFFFFFFF
  | .tabrd _ _ => 0xFFFE00FFFFFFFFFF
  | .tabwr _ _ _ => 0xFFFE00FF00000000

/-- The row's match word. -/
def rowMatch : Instr → Cmd
  | .nop => 0x0000000000000000
  | .cfg _ _ => 0x0100000000000000
  | .pclr => 0x0200000000000000
  | .pexp _ => 0x0300000000000000
  | .pld _ => 0x0400000000000000
  | .prev => 0x0500000000000000
  | .wrreg _ _ => 0x0600000000000000
  | .xix => 0x0700000000000000
  | .xfx => 0x0800000000000000
  | .buildf => 0x1000000000000000
  | .buildi => 0x1100000000000000
  | .schk => 0x1200000000000000
  | .adv _ => 0x2000000000000000
  | .ret _ => 0x2100000000000000
  | .tabrd _ _ => 0x3000000000000000
  | .tabwr _ _ _ => 0x3100000000000000

/-- A command's word matches its row. -/
def Statement (i : Instr) : Prop :=
  encode i &&& rowMask i = rowMatch i

/-- Two packed words, field by field. -/
theorem and_packFields (f g : Fields) :
    packFields f &&& packFields g =
      packFields ⟨f.op &&& g.op, f.sel &&& g.sel, f.idx &&& g.idx, f.db &&& g.db, f.imm &&& g.imm⟩ := by
  simp only [packFields]
  ext i hi
  grind

/-- The statement, from the row's mask and match split into fields. -/
theorem of_fields {i : Instr} (m : Fields) (hm : rowMask i = packFields m)
    (hr : rowMatch i =
      packFields ⟨(encodeFields i).op &&& m.op, (encodeFields i).sel &&& m.sel,
        (encodeFields i).idx &&& m.idx, (encodeFields i).db &&& m.db,
        (encodeFields i).imm &&& m.imm⟩) : Statement i := by
  rw [Statement, encode, hm, and_packFields, hr]

theorem nop : Statement .nop := of_fields ⟨0xFF, 0xFF, 0xFF, 0xFF, 0xFFFFFFFF⟩ rfl rfl
theorem cfg (c : BitVec 2) (d : Bool) : Statement (.cfg c d) := by
  refine of_fields ⟨0xFF, 0xFC, 0xFE, 0xFF, 0xFFFFFFFF⟩ rfl ?_
  revert c d; decide
theorem pclr : Statement .pclr := of_fields ⟨0xFF, 0xFF, 0xFF, 0xFF, 0xFFFFFFFF⟩ rfl rfl
theorem pexp (e : Byte) : Statement (.pexp e) := by
  refine of_fields ⟨0xFF, 0xFF, 0, 0xFF, 0xFFFFFFFF⟩ rfl ?_
  simp [encodeFields, packFields, rowMatch, Opcode.code]
theorem pld (imm : Word) : Statement (.pld imm) := by
  refine of_fields ⟨0xFF, 0xFF, 0xFF, 0xFF, 0⟩ rfl ?_
  simp [encodeFields, packFields, rowMatch, Opcode.code]
theorem prev : Statement .prev := of_fields ⟨0xFF, 0xFF, 0xFF, 0xFF, 0xFFFFFFFF⟩ rfl rfl
theorem wrreg (r : ValueReg) (imm : Word) : Statement (.wrreg r imm) := by
  refine of_fields ⟨0xFF, 0xFC, 0xFF, 0xFF, 0⟩ rfl ?_
  cases r <;> simp [encodeFields, packFields, rowMatch, Opcode.code, ValueReg.code]
theorem xix : Statement .xix := of_fields ⟨0xFF, 0xFF, 0xFF, 0xFF, 0xFFFFFFFF⟩ rfl rfl
theorem xfx : Statement .xfx := of_fields ⟨0xFF, 0xFF, 0xFF, 0xFF, 0xFFFFFFFF⟩ rfl rfl
theorem buildf : Statement .buildf := of_fields ⟨0xFF, 0xFF, 0xFF, 0xFF, 0xFFFFFFFF⟩ rfl rfl
theorem buildi : Statement .buildi := of_fields ⟨0xFF, 0xFF, 0xFF, 0xFF, 0xFFFFFFFF⟩ rfl rfl
theorem schk : Statement .schk := of_fields ⟨0xFF, 0xFF, 0xFF, 0xFF, 0xFFFFFFFF⟩ rfl rfl
theorem adv (b : Byte) : Statement (.adv b) := by
  refine of_fields ⟨0xFF, 0xFF, 0xFF, 0, 0xFFFFFFFF⟩ rfl ?_
  simp [encodeFields, packFields, rowMatch, Opcode.code]
theorem ret (b : Byte) : Statement (.ret b) := by
  refine of_fields ⟨0xFF, 0xFF, 0xFF, 0, 0xFFFFFFFF⟩ rfl ?_
  simp [encodeFields, packFields, rowMatch, Opcode.code]
theorem tabrd (tb : TableId) (idx : Byte) : Statement (.tabrd tb idx) := by
  refine of_fields ⟨0xFF, 0xFE, 0, 0xFF, 0xFFFFFFFF⟩ rfl ?_
  cases tb <;> simp [encodeFields, packFields, rowMatch, Opcode.code, TableId.code]
theorem tabwr (tb : TableId) (idx : Byte) (imm : Word) : Statement (.tabwr tb idx imm) := by
  refine of_fields ⟨0xFF, 0xFE, 0, 0xFF, 0⟩ rfl ?_
  cases tb <;> simp [encodeFields, packFields, rowMatch, Opcode.code, TableId.code]

end Sys2Proof.Laws.TableRow
end

