-- ==== Sys2Proof/Laws/State.lean ====
section
/-! SUPPORT. One lemma per field per update of the state: what each named update leaves in each field. -/

namespace Sys2Proof.Machine

/-! Completing a command. -/

@[simp] theorem State.complete_style (s : State) : (s.complete).style = s.style := rfl
@[simp] theorem State.complete_dbg (s : State) : (s.complete).dbg = s.dbg := rfl
@[simp] theorem State.complete_poly (s : State) : (s.complete).poly = s.poly := rfl
@[simp] theorem State.complete_state (s : State) : (s.complete).state = s.state := rfl
@[simp] theorem State.complete_initXor (s : State) : (s.complete).initXor = s.initXor := rfl
@[simp] theorem State.complete_finalXor (s : State) : (s.complete).finalXor = s.finalXor := rfl
@[simp] theorem State.complete_refState (s : State) : (s.complete).refState = s.refState := rfl
@[simp] theorem State.complete_result (s : State) : (s.complete).result = s.result := rfl
@[simp] theorem State.complete_busy (s : State) : (s.complete).busy = false := rfl
@[simp] theorem State.complete_fwdValid (s : State) : (s.complete).fwdValid = s.fwdValid := rfl
@[simp] theorem State.complete_invValid (s : State) : (s.complete).invValid = s.invValid := rfl
@[simp] theorem State.complete_scPass (s : State) : (s.complete).scPass = s.scPass := rfl
@[simp] theorem State.complete_err (s : State) : (s.complete).err = s.err := rfl
@[simp] theorem State.complete_errCode (s : State) : (s.complete).errCode = s.errCode := rfl
@[simp] theorem State.complete_errInfo0 (s : State) : (s.complete).errInfo0 = s.errInfo0 := rfl
@[simp] theorem State.complete_errInfo1 (s : State) : (s.complete).errInfo1 = s.errInfo1 := rfl
@[simp] theorem State.complete_errInfo2 (s : State) : (s.complete).errInfo2 = s.errInfo2 := rfl
@[simp] theorem State.complete_errCmdLo (s : State) : (s.complete).errCmdLo = s.errCmdLo := rfl
@[simp] theorem State.complete_errCmdHi (s : State) : (s.complete).errCmdHi = s.errCmdHi := rfl
@[simp] theorem State.complete_cmdLo (s : State) : (s.complete).cmdLo = s.cmdLo := rfl
@[simp] theorem State.complete_cmdHi (s : State) : (s.complete).cmdHi = s.cmdHi := rfl
@[simp] theorem State.complete_ft (s : State) : (s.complete).ft = s.ft := rfl
@[simp] theorem State.complete_it (s : State) : (s.complete).it = s.it := rfl
@[simp] theorem State.complete_busyLeft (s : State) : (s.complete).busyLeft = s.busyLeft := rfl
@[simp] theorem State.complete_bus (s : State) : (s.complete).bus = s.bus := rfl

/-! The fault procedure. -/

@[simp] theorem raise_style (e : ErrorCode) (a b c : Word) (s : State) : (raise e a b c s).style = s.style := rfl
@[simp] theorem raise_dbg (e : ErrorCode) (a b c : Word) (s : State) : (raise e a b c s).dbg = s.dbg := rfl
@[simp] theorem raise_poly (e : ErrorCode) (a b c : Word) (s : State) : (raise e a b c s).poly = s.poly := rfl
@[simp] theorem raise_state (e : ErrorCode) (a b c : Word) (s : State) : (raise e a b c s).state = s.state := rfl
@[simp] theorem raise_initXor (e : ErrorCode) (a b c : Word) (s : State) : (raise e a b c s).initXor = s.initXor := rfl
@[simp] theorem raise_finalXor (e : ErrorCode) (a b c : Word) (s : State) : (raise e a b c s).finalXor = s.finalXor := rfl
@[simp] theorem raise_refState (e : ErrorCode) (a b c : Word) (s : State) : (raise e a b c s).refState = s.refState := rfl
@[simp] theorem raise_result (e : ErrorCode) (a b c : Word) (s : State) : (raise e a b c s).result = s.result := rfl
@[simp] theorem raise_busy (e : ErrorCode) (a b c : Word) (s : State) : (raise e a b c s).busy = false := rfl
@[simp] theorem raise_fwdValid (e : ErrorCode) (a b c : Word) (s : State) : (raise e a b c s).fwdValid = s.fwdValid := rfl
@[simp] theorem raise_invValid (e : ErrorCode) (a b c : Word) (s : State) : (raise e a b c s).invValid = s.invValid := rfl
@[simp] theorem raise_scPass (e : ErrorCode) (a b c : Word) (s : State) : (raise e a b c s).scPass = s.scPass := rfl
@[simp] theorem raise_err (e : ErrorCode) (a b c : Word) (s : State) : (raise e a b c s).err = true := rfl
@[simp] theorem raise_errCode (e : ErrorCode) (a b c : Word) (s : State) : (raise e a b c s).errCode = e := rfl
@[simp] theorem raise_errInfo0 (e : ErrorCode) (a b c : Word) (s : State) : (raise e a b c s).errInfo0 = a := rfl
@[simp] theorem raise_errInfo1 (e : ErrorCode) (a b c : Word) (s : State) : (raise e a b c s).errInfo1 = b := rfl
@[simp] theorem raise_errInfo2 (e : ErrorCode) (a b c : Word) (s : State) : (raise e a b c s).errInfo2 = c := rfl
@[simp] theorem raise_errCmdLo (e : ErrorCode) (a b c : Word) (s : State) : (raise e a b c s).errCmdLo = s.cmdLo := rfl
@[simp] theorem raise_errCmdHi (e : ErrorCode) (a b c : Word) (s : State) : (raise e a b c s).errCmdHi = s.cmdHi := rfl
@[simp] theorem raise_cmdLo (e : ErrorCode) (a b c : Word) (s : State) : (raise e a b c s).cmdLo = s.cmdLo := rfl
@[simp] theorem raise_cmdHi (e : ErrorCode) (a b c : Word) (s : State) : (raise e a b c s).cmdHi = s.cmdHi := rfl
@[simp] theorem raise_ft (e : ErrorCode) (a b c : Word) (s : State) : (raise e a b c s).ft = s.ft := rfl
@[simp] theorem raise_it (e : ErrorCode) (a b c : Word) (s : State) : (raise e a b c s).it = s.it := rfl
@[simp] theorem raise_busyLeft (e : ErrorCode) (a b c : Word) (s : State) : (raise e a b c s).busyLeft = s.busyLeft := rfl
@[simp] theorem raise_bus (e : ErrorCode) (a b c : Word) (s : State) : (raise e a b c s).bus = s.bus := rfl

/-! Invalidating the tables. -/

@[simp] theorem State.invalidate_style (s : State) : (s.invalidate).style = s.style := rfl
@[simp] theorem State.invalidate_dbg (s : State) : (s.invalidate).dbg = s.dbg := rfl
@[simp] theorem State.invalidate_poly (s : State) : (s.invalidate).poly = s.poly := rfl
@[simp] theorem State.invalidate_state (s : State) : (s.invalidate).state = s.state := rfl
@[simp] theorem State.invalidate_initXor (s : State) : (s.invalidate).initXor = s.initXor := rfl
@[simp] theorem State.invalidate_finalXor (s : State) : (s.invalidate).finalXor = s.finalXor := rfl
@[simp] theorem State.invalidate_refState (s : State) : (s.invalidate).refState = s.refState := rfl
@[simp] theorem State.invalidate_result (s : State) : (s.invalidate).result = s.result := rfl
@[simp] theorem State.invalidate_busy (s : State) : (s.invalidate).busy = s.busy := rfl
@[simp] theorem State.invalidate_fwdValid (s : State) : (s.invalidate).fwdValid = false := rfl
@[simp] theorem State.invalidate_invValid (s : State) : (s.invalidate).invValid = false := rfl
@[simp] theorem State.invalidate_scPass (s : State) : (s.invalidate).scPass = false := rfl
@[simp] theorem State.invalidate_err (s : State) : (s.invalidate).err = s.err := rfl
@[simp] theorem State.invalidate_errCode (s : State) : (s.invalidate).errCode = s.errCode := rfl
@[simp] theorem State.invalidate_errInfo0 (s : State) : (s.invalidate).errInfo0 = s.errInfo0 := rfl
@[simp] theorem State.invalidate_errInfo1 (s : State) : (s.invalidate).errInfo1 = s.errInfo1 := rfl
@[simp] theorem State.invalidate_errInfo2 (s : State) : (s.invalidate).errInfo2 = s.errInfo2 := rfl
@[simp] theorem State.invalidate_errCmdLo (s : State) : (s.invalidate).errCmdLo = s.errCmdLo := rfl
@[simp] theorem State.invalidate_errCmdHi (s : State) : (s.invalidate).errCmdHi = s.errCmdHi := rfl
@[simp] theorem State.invalidate_cmdLo (s : State) : (s.invalidate).cmdLo = s.cmdLo := rfl
@[simp] theorem State.invalidate_cmdHi (s : State) : (s.invalidate).cmdHi = s.cmdHi := rfl
@[simp] theorem State.invalidate_ft (s : State) : (s.invalidate).ft = [] := rfl
@[simp] theorem State.invalidate_it (s : State) : (s.invalidate).it = [] := rfl
@[simp] theorem State.invalidate_busyLeft (s : State) : (s.invalidate).busyLeft = s.busyLeft := rfl
@[simp] theorem State.invalidate_bus (s : State) : (s.invalidate).bus = s.bus := rfl

/-! Withdrawing the inverse table. -/

@[simp] theorem State.withdrawInverse_style (s : State) : (s.withdrawInverse).style = s.style := rfl
@[simp] theorem State.withdrawInverse_dbg (s : State) : (s.withdrawInverse).dbg = s.dbg := rfl
@[simp] theorem State.withdrawInverse_poly (s : State) : (s.withdrawInverse).poly = s.poly := rfl
@[simp] theorem State.withdrawInverse_state (s : State) : (s.withdrawInverse).state = s.state := rfl
@[simp] theorem State.withdrawInverse_initXor (s : State) : (s.withdrawInverse).initXor = s.initXor := rfl
@[simp] theorem State.withdrawInverse_finalXor (s : State) : (s.withdrawInverse).finalXor = s.finalXor := rfl
@[simp] theorem State.withdrawInverse_refState (s : State) : (s.withdrawInverse).refState = s.refState := rfl
@[simp] theorem State.withdrawInverse_result (s : State) : (s.withdrawInverse).result = s.result := rfl
@[simp] theorem State.withdrawInverse_busy (s : State) : (s.withdrawInverse).busy = s.busy := rfl
@[simp] theorem State.withdrawInverse_fwdValid (s : State) : (s.withdrawInverse).fwdValid = s.fwdValid := rfl
@[simp] theorem State.withdrawInverse_invValid (s : State) : (s.withdrawInverse).invValid = false := rfl
@[simp] theorem State.withdrawInverse_scPass (s : State) : (s.withdrawInverse).scPass = false := rfl
@[simp] theorem State.withdrawInverse_err (s : State) : (s.withdrawInverse).err = s.err := rfl
@[simp] theorem State.withdrawInverse_errCode (s : State) : (s.withdrawInverse).errCode = s.errCode := rfl
@[simp] theorem State.withdrawInverse_errInfo0 (s : State) : (s.withdrawInverse).errInfo0 = s.errInfo0 := rfl
@[simp] theorem State.withdrawInverse_errInfo1 (s : State) : (s.withdrawInverse).errInfo1 = s.errInfo1 := rfl
@[simp] theorem State.withdrawInverse_errInfo2 (s : State) : (s.withdrawInverse).errInfo2 = s.errInfo2 := rfl
@[simp] theorem State.withdrawInverse_errCmdLo (s : State) : (s.withdrawInverse).errCmdLo = s.errCmdLo := rfl
@[simp] theorem State.withdrawInverse_errCmdHi (s : State) : (s.withdrawInverse).errCmdHi = s.errCmdHi := rfl
@[simp] theorem State.withdrawInverse_cmdLo (s : State) : (s.withdrawInverse).cmdLo = s.cmdLo := rfl
@[simp] theorem State.withdrawInverse_cmdHi (s : State) : (s.withdrawInverse).cmdHi = s.cmdHi := rfl
@[simp] theorem State.withdrawInverse_ft (s : State) : (s.withdrawInverse).ft = s.ft := rfl
@[simp] theorem State.withdrawInverse_it (s : State) : (s.withdrawInverse).it = [] := rfl
@[simp] theorem State.withdrawInverse_busyLeft (s : State) : (s.withdrawInverse).busyLeft = s.busyLeft := rfl
@[simp] theorem State.withdrawInverse_bus (s : State) : (s.withdrawInverse).bus = s.bus := rfl

/-! A polynomial command. -/

@[simp] theorem State.setPoly_style (s : State) (v : Word) : (s.setPoly v).style = s.style := rfl
@[simp] theorem State.setPoly_dbg (s : State) (v : Word) : (s.setPoly v).dbg = s.dbg := rfl
@[simp] theorem State.setPoly_poly (s : State) (v : Word) : (s.setPoly v).poly = v := rfl
@[simp] theorem State.setPoly_state (s : State) (v : Word) : (s.setPoly v).state = s.state := rfl
@[simp] theorem State.setPoly_initXor (s : State) (v : Word) : (s.setPoly v).initXor = s.initXor := rfl
@[simp] theorem State.setPoly_finalXor (s : State) (v : Word) : (s.setPoly v).finalXor = s.finalXor := rfl
@[simp] theorem State.setPoly_refState (s : State) (v : Word) : (s.setPoly v).refState = s.refState := rfl
@[simp] theorem State.setPoly_result (s : State) (v : Word) : (s.setPoly v).result = s.result := rfl
@[simp] theorem State.setPoly_busy (s : State) (v : Word) : (s.setPoly v).busy = s.busy := rfl
@[simp] theorem State.setPoly_fwdValid (s : State) (v : Word) : (s.setPoly v).fwdValid = false := rfl
@[simp] theorem State.setPoly_invValid (s : State) (v : Word) : (s.setPoly v).invValid = false := rfl
@[simp] theorem State.setPoly_scPass (s : State) (v : Word) : (s.setPoly v).scPass = false := rfl
@[simp] theorem State.setPoly_err (s : State) (v : Word) : (s.setPoly v).err = s.err := rfl
@[simp] theorem State.setPoly_errCode (s : State) (v : Word) : (s.setPoly v).errCode = s.errCode := rfl
@[simp] theorem State.setPoly_errInfo0 (s : State) (v : Word) : (s.setPoly v).errInfo0 = s.errInfo0 := rfl
@[simp] theorem State.setPoly_errInfo1 (s : State) (v : Word) : (s.setPoly v).errInfo1 = s.errInfo1 := rfl
@[simp] theorem State.setPoly_errInfo2 (s : State) (v : Word) : (s.setPoly v).errInfo2 = s.errInfo2 := rfl
@[simp] theorem State.setPoly_errCmdLo (s : State) (v : Word) : (s.setPoly v).errCmdLo = s.errCmdLo := rfl
@[simp] theorem State.setPoly_errCmdHi (s : State) (v : Word) : (s.setPoly v).errCmdHi = s.errCmdHi := rfl
@[simp] theorem State.setPoly_cmdLo (s : State) (v : Word) : (s.setPoly v).cmdLo = s.cmdLo := rfl
@[simp] theorem State.setPoly_cmdHi (s : State) (v : Word) : (s.setPoly v).cmdHi = s.cmdHi := rfl
@[simp] theorem State.setPoly_ft (s : State) (v : Word) : (s.setPoly v).ft = [] := rfl
@[simp] theorem State.setPoly_it (s : State) (v : Word) : (s.setPoly v).it = [] := rfl
@[simp] theorem State.setPoly_busyLeft (s : State) (v : Word) : (s.setPoly v).busyLeft = s.busyLeft := rfl
@[simp] theorem State.setPoly_bus (s : State) (v : Word) : (s.setPoly v).bus = s.bus := rfl

/-! CFG's re-initialisation. -/

@[simp] theorem State.configure_style (s : State) (st : Style) (d : Bool) : (s.configure st d).style = st := rfl
@[simp] theorem State.configure_dbg (s : State) (st : Style) (d : Bool) : (s.configure st d).dbg = d := rfl
@[simp] theorem State.configure_poly (s : State) (st : Style) (d : Bool) : (s.configure st d).poly = 0 := rfl
@[simp] theorem State.configure_state (s : State) (st : Style) (d : Bool) : (s.configure st d).state = 0 := rfl
@[simp] theorem State.configure_initXor (s : State) (st : Style) (d : Bool) : (s.configure st d).initXor = 0 := rfl
@[simp] theorem State.configure_finalXor (s : State) (st : Style) (d : Bool) : (s.configure st d).finalXor = 0 := rfl
@[simp] theorem State.configure_refState (s : State) (st : Style) (d : Bool) : (s.configure st d).refState = Config.resetRef := rfl
@[simp] theorem State.configure_result (s : State) (st : Style) (d : Bool) : (s.configure st d).result = 0 := rfl
@[simp] theorem State.configure_busy (s : State) (st : Style) (d : Bool) : (s.configure st d).busy = s.busy := rfl
@[simp] theorem State.configure_fwdValid (s : State) (st : Style) (d : Bool) : (s.configure st d).fwdValid = false := rfl
@[simp] theorem State.configure_invValid (s : State) (st : Style) (d : Bool) : (s.configure st d).invValid = false := rfl
@[simp] theorem State.configure_scPass (s : State) (st : Style) (d : Bool) : (s.configure st d).scPass = false := rfl
@[simp] theorem State.configure_err (s : State) (st : Style) (d : Bool) : (s.configure st d).err = s.err := rfl
@[simp] theorem State.configure_errCode (s : State) (st : Style) (d : Bool) : (s.configure st d).errCode = s.errCode := rfl
@[simp] theorem State.configure_errInfo0 (s : State) (st : Style) (d : Bool) : (s.configure st d).errInfo0 = s.errInfo0 := rfl
@[simp] theorem State.configure_errInfo1 (s : State) (st : Style) (d : Bool) : (s.configure st d).errInfo1 = s.errInfo1 := rfl
@[simp] theorem State.configure_errInfo2 (s : State) (st : Style) (d : Bool) : (s.configure st d).errInfo2 = s.errInfo2 := rfl
@[simp] theorem State.configure_errCmdLo (s : State) (st : Style) (d : Bool) : (s.configure st d).errCmdLo = s.errCmdLo := rfl
@[simp] theorem State.configure_errCmdHi (s : State) (st : Style) (d : Bool) : (s.configure st d).errCmdHi = s.errCmdHi := rfl
@[simp] theorem State.configure_cmdLo (s : State) (st : Style) (d : Bool) : (s.configure st d).cmdLo = s.cmdLo := rfl
@[simp] theorem State.configure_cmdHi (s : State) (st : Style) (d : Bool) : (s.configure st d).cmdHi = s.cmdHi := rfl
@[simp] theorem State.configure_ft (s : State) (st : Style) (d : Bool) : (s.configure st d).ft = [] := rfl
@[simp] theorem State.configure_it (s : State) (st : Style) (d : Bool) : (s.configure st d).it = [] := rfl
@[simp] theorem State.configure_busyLeft (s : State) (st : Style) (d : Bool) : (s.configure st d).busyLeft = s.busyLeft := rfl
@[simp] theorem State.configure_bus (s : State) (st : Style) (d : Bool) : (s.configure st d).bus = s.bus := rfl

/-! The host has done an action. -/

@[simp] theorem State.afterAction_style (s : State) (rest : List HostAction) : (s.afterAction rest).style = s.style := rfl
@[simp] theorem State.afterAction_dbg (s : State) (rest : List HostAction) : (s.afterAction rest).dbg = s.dbg := rfl
@[simp] theorem State.afterAction_poly (s : State) (rest : List HostAction) : (s.afterAction rest).poly = s.poly := rfl
@[simp] theorem State.afterAction_state (s : State) (rest : List HostAction) : (s.afterAction rest).state = s.state := rfl
@[simp] theorem State.afterAction_initXor (s : State) (rest : List HostAction) : (s.afterAction rest).initXor = s.initXor := rfl
@[simp] theorem State.afterAction_finalXor (s : State) (rest : List HostAction) : (s.afterAction rest).finalXor = s.finalXor := rfl
@[simp] theorem State.afterAction_refState (s : State) (rest : List HostAction) : (s.afterAction rest).refState = s.refState := rfl
@[simp] theorem State.afterAction_result (s : State) (rest : List HostAction) : (s.afterAction rest).result = s.result := rfl
@[simp] theorem State.afterAction_busy (s : State) (rest : List HostAction) : (s.afterAction rest).busy = s.busy := rfl
@[simp] theorem State.afterAction_fwdValid (s : State) (rest : List HostAction) : (s.afterAction rest).fwdValid = s.fwdValid := rfl
@[simp] theorem State.afterAction_invValid (s : State) (rest : List HostAction) : (s.afterAction rest).invValid = s.invValid := rfl
@[simp] theorem State.afterAction_scPass (s : State) (rest : List HostAction) : (s.afterAction rest).scPass = s.scPass := rfl
@[simp] theorem State.afterAction_err (s : State) (rest : List HostAction) : (s.afterAction rest).err = s.err := rfl
@[simp] theorem State.afterAction_errCode (s : State) (rest : List HostAction) : (s.afterAction rest).errCode = s.errCode := rfl
@[simp] theorem State.afterAction_errInfo0 (s : State) (rest : List HostAction) : (s.afterAction rest).errInfo0 = s.errInfo0 := rfl
@[simp] theorem State.afterAction_errInfo1 (s : State) (rest : List HostAction) : (s.afterAction rest).errInfo1 = s.errInfo1 := rfl
@[simp] theorem State.afterAction_errInfo2 (s : State) (rest : List HostAction) : (s.afterAction rest).errInfo2 = s.errInfo2 := rfl
@[simp] theorem State.afterAction_errCmdLo (s : State) (rest : List HostAction) : (s.afterAction rest).errCmdLo = s.errCmdLo := rfl
@[simp] theorem State.afterAction_errCmdHi (s : State) (rest : List HostAction) : (s.afterAction rest).errCmdHi = s.errCmdHi := rfl
@[simp] theorem State.afterAction_cmdLo (s : State) (rest : List HostAction) : (s.afterAction rest).cmdLo = s.cmdLo := rfl
@[simp] theorem State.afterAction_cmdHi (s : State) (rest : List HostAction) : (s.afterAction rest).cmdHi = s.cmdHi := rfl
@[simp] theorem State.afterAction_ft (s : State) (rest : List HostAction) : (s.afterAction rest).ft = s.ft := rfl
@[simp] theorem State.afterAction_it (s : State) (rest : List HostAction) : (s.afterAction rest).it = s.it := rfl
@[simp] theorem State.afterAction_busyLeft (s : State) (rest : List HostAction) : (s.afterAction rest).busyLeft = s.busyLeft := rfl
@[simp] theorem State.afterAction_bus (s : State) (rest : List HostAction) : (s.afterAction rest).bus = { s.bus with pending := rest } := rfl

/-! A host read answered. -/

@[simp] theorem State.answerRead_style (s : State) (v : Word) : (s.answerRead v).style = s.style := rfl
@[simp] theorem State.answerRead_dbg (s : State) (v : Word) : (s.answerRead v).dbg = s.dbg := rfl
@[simp] theorem State.answerRead_poly (s : State) (v : Word) : (s.answerRead v).poly = s.poly := rfl
@[simp] theorem State.answerRead_state (s : State) (v : Word) : (s.answerRead v).state = s.state := rfl
@[simp] theorem State.answerRead_initXor (s : State) (v : Word) : (s.answerRead v).initXor = s.initXor := rfl
@[simp] theorem State.answerRead_finalXor (s : State) (v : Word) : (s.answerRead v).finalXor = s.finalXor := rfl
@[simp] theorem State.answerRead_refState (s : State) (v : Word) : (s.answerRead v).refState = s.refState := rfl
@[simp] theorem State.answerRead_result (s : State) (v : Word) : (s.answerRead v).result = s.result := rfl
@[simp] theorem State.answerRead_busy (s : State) (v : Word) : (s.answerRead v).busy = s.busy := rfl
@[simp] theorem State.answerRead_fwdValid (s : State) (v : Word) : (s.answerRead v).fwdValid = s.fwdValid := rfl
@[simp] theorem State.answerRead_invValid (s : State) (v : Word) : (s.answerRead v).invValid = s.invValid := rfl
@[simp] theorem State.answerRead_scPass (s : State) (v : Word) : (s.answerRead v).scPass = s.scPass := rfl
@[simp] theorem State.answerRead_err (s : State) (v : Word) : (s.answerRead v).err = s.err := rfl
@[simp] theorem State.answerRead_errCode (s : State) (v : Word) : (s.answerRead v).errCode = s.errCode := rfl
@[simp] theorem State.answerRead_errInfo0 (s : State) (v : Word) : (s.answerRead v).errInfo0 = s.errInfo0 := rfl
@[simp] theorem State.answerRead_errInfo1 (s : State) (v : Word) : (s.answerRead v).errInfo1 = s.errInfo1 := rfl
@[simp] theorem State.answerRead_errInfo2 (s : State) (v : Word) : (s.answerRead v).errInfo2 = s.errInfo2 := rfl
@[simp] theorem State.answerRead_errCmdLo (s : State) (v : Word) : (s.answerRead v).errCmdLo = s.errCmdLo := rfl
@[simp] theorem State.answerRead_errCmdHi (s : State) (v : Word) : (s.answerRead v).errCmdHi = s.errCmdHi := rfl
@[simp] theorem State.answerRead_cmdLo (s : State) (v : Word) : (s.answerRead v).cmdLo = s.cmdLo := rfl
@[simp] theorem State.answerRead_cmdHi (s : State) (v : Word) : (s.answerRead v).cmdHi = s.cmdHi := rfl
@[simp] theorem State.answerRead_ft (s : State) (v : Word) : (s.answerRead v).ft = s.ft := rfl
@[simp] theorem State.answerRead_it (s : State) (v : Word) : (s.answerRead v).it = s.it := rfl
@[simp] theorem State.answerRead_busyLeft (s : State) (v : Word) : (s.answerRead v).busyLeft = s.busyLeft := rfl
@[simp] theorem State.answerRead_bus (s : State) (v : Word) : (s.answerRead v).bus = { s.bus with readData := some v } := rfl

/-! RESET asserted. -/

@[simp] theorem State.enterReset_style (s : State) (rest : List HostAction) : (s.enterReset rest).style = State.reset.style := rfl
@[simp] theorem State.enterReset_dbg (s : State) (rest : List HostAction) : (s.enterReset rest).dbg = State.reset.dbg := rfl
@[simp] theorem State.enterReset_poly (s : State) (rest : List HostAction) : (s.enterReset rest).poly = State.reset.poly := rfl
@[simp] theorem State.enterReset_state (s : State) (rest : List HostAction) : (s.enterReset rest).state = State.reset.state := rfl
@[simp] theorem State.enterReset_initXor (s : State) (rest : List HostAction) : (s.enterReset rest).initXor = State.reset.initXor := rfl
@[simp] theorem State.enterReset_finalXor (s : State) (rest : List HostAction) : (s.enterReset rest).finalXor = State.reset.finalXor := rfl
@[simp] theorem State.enterReset_refState (s : State) (rest : List HostAction) : (s.enterReset rest).refState = State.reset.refState := rfl
@[simp] theorem State.enterReset_result (s : State) (rest : List HostAction) : (s.enterReset rest).result = State.reset.result := rfl
@[simp] theorem State.enterReset_busy (s : State) (rest : List HostAction) : (s.enterReset rest).busy = State.reset.busy := rfl
@[simp] theorem State.enterReset_fwdValid (s : State) (rest : List HostAction) : (s.enterReset rest).fwdValid = State.reset.fwdValid := rfl
@[simp] theorem State.enterReset_invValid (s : State) (rest : List HostAction) : (s.enterReset rest).invValid = State.reset.invValid := rfl
@[simp] theorem State.enterReset_scPass (s : State) (rest : List HostAction) : (s.enterReset rest).scPass = State.reset.scPass := rfl
@[simp] theorem State.enterReset_err (s : State) (rest : List HostAction) : (s.enterReset rest).err = State.reset.err := rfl
@[simp] theorem State.enterReset_errCode (s : State) (rest : List HostAction) : (s.enterReset rest).errCode = State.reset.errCode := rfl
@[simp] theorem State.enterReset_errInfo0 (s : State) (rest : List HostAction) : (s.enterReset rest).errInfo0 = State.reset.errInfo0 := rfl
@[simp] theorem State.enterReset_errInfo1 (s : State) (rest : List HostAction) : (s.enterReset rest).errInfo1 = State.reset.errInfo1 := rfl
@[simp] theorem State.enterReset_errInfo2 (s : State) (rest : List HostAction) : (s.enterReset rest).errInfo2 = State.reset.errInfo2 := rfl
@[simp] theorem State.enterReset_errCmdLo (s : State) (rest : List HostAction) : (s.enterReset rest).errCmdLo = State.reset.errCmdLo := rfl
@[simp] theorem State.enterReset_errCmdHi (s : State) (rest : List HostAction) : (s.enterReset rest).errCmdHi = State.reset.errCmdHi := rfl
@[simp] theorem State.enterReset_cmdLo (s : State) (rest : List HostAction) : (s.enterReset rest).cmdLo = State.reset.cmdLo := rfl
@[simp] theorem State.enterReset_cmdHi (s : State) (rest : List HostAction) : (s.enterReset rest).cmdHi = State.reset.cmdHi := rfl
@[simp] theorem State.enterReset_ft (s : State) (rest : List HostAction) : (s.enterReset rest).ft = State.reset.ft := rfl
@[simp] theorem State.enterReset_it (s : State) (rest : List HostAction) : (s.enterReset rest).it = State.reset.it := rfl
@[simp] theorem State.enterReset_busyLeft (s : State) (rest : List HostAction) : (s.enterReset rest).busyLeft = State.reset.busyLeft := rfl
@[simp] theorem State.enterReset_bus (s : State) (rest : List HostAction) : (s.enterReset rest).bus = { s.bus with pending := rest, held := none, resetLine := true } := rfl

/-! STATE written. -/

@[simp] theorem State.setState_style (s : State) (v : Word) : (s.setState v).style = s.style := rfl
@[simp] theorem State.setState_dbg (s : State) (v : Word) : (s.setState v).dbg = s.dbg := rfl
@[simp] theorem State.setState_poly (s : State) (v : Word) : (s.setState v).poly = s.poly := rfl
@[simp] theorem State.setState_state (s : State) (v : Word) : (s.setState v).state = v := rfl
@[simp] theorem State.setState_initXor (s : State) (v : Word) : (s.setState v).initXor = s.initXor := rfl
@[simp] theorem State.setState_finalXor (s : State) (v : Word) : (s.setState v).finalXor = s.finalXor := rfl
@[simp] theorem State.setState_refState (s : State) (v : Word) : (s.setState v).refState = s.refState := rfl
@[simp] theorem State.setState_result (s : State) (v : Word) : (s.setState v).result = s.result := rfl
@[simp] theorem State.setState_busy (s : State) (v : Word) : (s.setState v).busy = s.busy := rfl
@[simp] theorem State.setState_fwdValid (s : State) (v : Word) : (s.setState v).fwdValid = s.fwdValid := rfl
@[simp] theorem State.setState_invValid (s : State) (v : Word) : (s.setState v).invValid = s.invValid := rfl
@[simp] theorem State.setState_scPass (s : State) (v : Word) : (s.setState v).scPass = s.scPass := rfl
@[simp] theorem State.setState_err (s : State) (v : Word) : (s.setState v).err = s.err := rfl
@[simp] theorem State.setState_errCode (s : State) (v : Word) : (s.setState v).errCode = s.errCode := rfl
@[simp] theorem State.setState_errInfo0 (s : State) (v : Word) : (s.setState v).errInfo0 = s.errInfo0 := rfl
@[simp] theorem State.setState_errInfo1 (s : State) (v : Word) : (s.setState v).errInfo1 = s.errInfo1 := rfl
@[simp] theorem State.setState_errInfo2 (s : State) (v : Word) : (s.setState v).errInfo2 = s.errInfo2 := rfl
@[simp] theorem State.setState_errCmdLo (s : State) (v : Word) : (s.setState v).errCmdLo = s.errCmdLo := rfl
@[simp] theorem State.setState_errCmdHi (s : State) (v : Word) : (s.setState v).errCmdHi = s.errCmdHi := rfl
@[simp] theorem State.setState_cmdLo (s : State) (v : Word) : (s.setState v).cmdLo = s.cmdLo := rfl
@[simp] theorem State.setState_cmdHi (s : State) (v : Word) : (s.setState v).cmdHi = s.cmdHi := rfl
@[simp] theorem State.setState_ft (s : State) (v : Word) : (s.setState v).ft = s.ft := rfl
@[simp] theorem State.setState_it (s : State) (v : Word) : (s.setState v).it = s.it := rfl
@[simp] theorem State.setState_busyLeft (s : State) (v : Word) : (s.setState v).busyLeft = s.busyLeft := rfl
@[simp] theorem State.setState_bus (s : State) (v : Word) : (s.setState v).bus = s.bus := rfl

/-! RESULT written. -/

@[simp] theorem State.setResult_style (s : State) (v : Word) : (s.setResult v).style = s.style := rfl
@[simp] theorem State.setResult_dbg (s : State) (v : Word) : (s.setResult v).dbg = s.dbg := rfl
@[simp] theorem State.setResult_poly (s : State) (v : Word) : (s.setResult v).poly = s.poly := rfl
@[simp] theorem State.setResult_state (s : State) (v : Word) : (s.setResult v).state = s.state := rfl
@[simp] theorem State.setResult_initXor (s : State) (v : Word) : (s.setResult v).initXor = s.initXor := rfl
@[simp] theorem State.setResult_finalXor (s : State) (v : Word) : (s.setResult v).finalXor = s.finalXor := rfl
@[simp] theorem State.setResult_refState (s : State) (v : Word) : (s.setResult v).refState = s.refState := rfl
@[simp] theorem State.setResult_result (s : State) (v : Word) : (s.setResult v).result = v := rfl
@[simp] theorem State.setResult_busy (s : State) (v : Word) : (s.setResult v).busy = s.busy := rfl
@[simp] theorem State.setResult_fwdValid (s : State) (v : Word) : (s.setResult v).fwdValid = s.fwdValid := rfl
@[simp] theorem State.setResult_invValid (s : State) (v : Word) : (s.setResult v).invValid = s.invValid := rfl
@[simp] theorem State.setResult_scPass (s : State) (v : Word) : (s.setResult v).scPass = s.scPass := rfl
@[simp] theorem State.setResult_err (s : State) (v : Word) : (s.setResult v).err = s.err := rfl
@[simp] theorem State.setResult_errCode (s : State) (v : Word) : (s.setResult v).errCode = s.errCode := rfl
@[simp] theorem State.setResult_errInfo0 (s : State) (v : Word) : (s.setResult v).errInfo0 = s.errInfo0 := rfl
@[simp] theorem State.setResult_errInfo1 (s : State) (v : Word) : (s.setResult v).errInfo1 = s.errInfo1 := rfl
@[simp] theorem State.setResult_errInfo2 (s : State) (v : Word) : (s.setResult v).errInfo2 = s.errInfo2 := rfl
@[simp] theorem State.setResult_errCmdLo (s : State) (v : Word) : (s.setResult v).errCmdLo = s.errCmdLo := rfl
@[simp] theorem State.setResult_errCmdHi (s : State) (v : Word) : (s.setResult v).errCmdHi = s.errCmdHi := rfl
@[simp] theorem State.setResult_cmdLo (s : State) (v : Word) : (s.setResult v).cmdLo = s.cmdLo := rfl
@[simp] theorem State.setResult_cmdHi (s : State) (v : Word) : (s.setResult v).cmdHi = s.cmdHi := rfl
@[simp] theorem State.setResult_ft (s : State) (v : Word) : (s.setResult v).ft = s.ft := rfl
@[simp] theorem State.setResult_it (s : State) (v : Word) : (s.setResult v).it = s.it := rfl
@[simp] theorem State.setResult_busyLeft (s : State) (v : Word) : (s.setResult v).busyLeft = s.busyLeft := rfl
@[simp] theorem State.setResult_bus (s : State) (v : Word) : (s.setResult v).bus = s.bus := rfl

/-! A forward table installed. -/

@[simp] theorem State.installForward_style (s : State) (m : Memory) : (s.installForward m).style = s.style := rfl
@[simp] theorem State.installForward_dbg (s : State) (m : Memory) : (s.installForward m).dbg = s.dbg := rfl
@[simp] theorem State.installForward_poly (s : State) (m : Memory) : (s.installForward m).poly = s.poly := rfl
@[simp] theorem State.installForward_state (s : State) (m : Memory) : (s.installForward m).state = s.state := rfl
@[simp] theorem State.installForward_initXor (s : State) (m : Memory) : (s.installForward m).initXor = s.initXor := rfl
@[simp] theorem State.installForward_finalXor (s : State) (m : Memory) : (s.installForward m).finalXor = s.finalXor := rfl
@[simp] theorem State.installForward_refState (s : State) (m : Memory) : (s.installForward m).refState = s.refState := rfl
@[simp] theorem State.installForward_result (s : State) (m : Memory) : (s.installForward m).result = s.result := rfl
@[simp] theorem State.installForward_busy (s : State) (m : Memory) : (s.installForward m).busy = s.busy := rfl
@[simp] theorem State.installForward_fwdValid (s : State) (m : Memory) : (s.installForward m).fwdValid = true := rfl
@[simp] theorem State.installForward_invValid (s : State) (m : Memory) : (s.installForward m).invValid = s.invValid := rfl
@[simp] theorem State.installForward_scPass (s : State) (m : Memory) : (s.installForward m).scPass = s.scPass := rfl
@[simp] theorem State.installForward_err (s : State) (m : Memory) : (s.installForward m).err = s.err := rfl
@[simp] theorem State.installForward_errCode (s : State) (m : Memory) : (s.installForward m).errCode = s.errCode := rfl
@[simp] theorem State.installForward_errInfo0 (s : State) (m : Memory) : (s.installForward m).errInfo0 = s.errInfo0 := rfl
@[simp] theorem State.installForward_errInfo1 (s : State) (m : Memory) : (s.installForward m).errInfo1 = s.errInfo1 := rfl
@[simp] theorem State.installForward_errInfo2 (s : State) (m : Memory) : (s.installForward m).errInfo2 = s.errInfo2 := rfl
@[simp] theorem State.installForward_errCmdLo (s : State) (m : Memory) : (s.installForward m).errCmdLo = s.errCmdLo := rfl
@[simp] theorem State.installForward_errCmdHi (s : State) (m : Memory) : (s.installForward m).errCmdHi = s.errCmdHi := rfl
@[simp] theorem State.installForward_cmdLo (s : State) (m : Memory) : (s.installForward m).cmdLo = s.cmdLo := rfl
@[simp] theorem State.installForward_cmdHi (s : State) (m : Memory) : (s.installForward m).cmdHi = s.cmdHi := rfl
@[simp] theorem State.installForward_ft (s : State) (m : Memory) : (s.installForward m).ft = m := rfl
@[simp] theorem State.installForward_it (s : State) (m : Memory) : (s.installForward m).it = s.it := rfl
@[simp] theorem State.installForward_busyLeft (s : State) (m : Memory) : (s.installForward m).busyLeft = s.busyLeft := rfl
@[simp] theorem State.installForward_bus (s : State) (m : Memory) : (s.installForward m).bus = s.bus := rfl

/-! An inverse table installed. -/

@[simp] theorem State.installInverse_style (s : State) (m : Memory) : (s.installInverse m).style = s.style := rfl
@[simp] theorem State.installInverse_dbg (s : State) (m : Memory) : (s.installInverse m).dbg = s.dbg := rfl
@[simp] theorem State.installInverse_poly (s : State) (m : Memory) : (s.installInverse m).poly = s.poly := rfl
@[simp] theorem State.installInverse_state (s : State) (m : Memory) : (s.installInverse m).state = s.state := rfl
@[simp] theorem State.installInverse_initXor (s : State) (m : Memory) : (s.installInverse m).initXor = s.initXor := rfl
@[simp] theorem State.installInverse_finalXor (s : State) (m : Memory) : (s.installInverse m).finalXor = s.finalXor := rfl
@[simp] theorem State.installInverse_refState (s : State) (m : Memory) : (s.installInverse m).refState = s.refState := rfl
@[simp] theorem State.installInverse_result (s : State) (m : Memory) : (s.installInverse m).result = s.result := rfl
@[simp] theorem State.installInverse_busy (s : State) (m : Memory) : (s.installInverse m).busy = s.busy := rfl
@[simp] theorem State.installInverse_fwdValid (s : State) (m : Memory) : (s.installInverse m).fwdValid = s.fwdValid := rfl
@[simp] theorem State.installInverse_invValid (s : State) (m : Memory) : (s.installInverse m).invValid = true := rfl
@[simp] theorem State.installInverse_scPass (s : State) (m : Memory) : (s.installInverse m).scPass = false := rfl
@[simp] theorem State.installInverse_err (s : State) (m : Memory) : (s.installInverse m).err = s.err := rfl
@[simp] theorem State.installInverse_errCode (s : State) (m : Memory) : (s.installInverse m).errCode = s.errCode := rfl
@[simp] theorem State.installInverse_errInfo0 (s : State) (m : Memory) : (s.installInverse m).errInfo0 = s.errInfo0 := rfl
@[simp] theorem State.installInverse_errInfo1 (s : State) (m : Memory) : (s.installInverse m).errInfo1 = s.errInfo1 := rfl
@[simp] theorem State.installInverse_errInfo2 (s : State) (m : Memory) : (s.installInverse m).errInfo2 = s.errInfo2 := rfl
@[simp] theorem State.installInverse_errCmdLo (s : State) (m : Memory) : (s.installInverse m).errCmdLo = s.errCmdLo := rfl
@[simp] theorem State.installInverse_errCmdHi (s : State) (m : Memory) : (s.installInverse m).errCmdHi = s.errCmdHi := rfl
@[simp] theorem State.installInverse_cmdLo (s : State) (m : Memory) : (s.installInverse m).cmdLo = s.cmdLo := rfl
@[simp] theorem State.installInverse_cmdHi (s : State) (m : Memory) : (s.installInverse m).cmdHi = s.cmdHi := rfl
@[simp] theorem State.installInverse_ft (s : State) (m : Memory) : (s.installInverse m).ft = s.ft := rfl
@[simp] theorem State.installInverse_it (s : State) (m : Memory) : (s.installInverse m).it = m := rfl
@[simp] theorem State.installInverse_busyLeft (s : State) (m : Memory) : (s.installInverse m).busyLeft = s.busyLeft := rfl
@[simp] theorem State.installInverse_bus (s : State) (m : Memory) : (s.installInverse m).bus = s.bus := rfl

/-! A self-check passed. -/

@[simp] theorem State.markPass_style (s : State) : (s.markPass).style = s.style := rfl
@[simp] theorem State.markPass_dbg (s : State) : (s.markPass).dbg = s.dbg := rfl
@[simp] theorem State.markPass_poly (s : State) : (s.markPass).poly = s.poly := rfl
@[simp] theorem State.markPass_state (s : State) : (s.markPass).state = s.state := rfl
@[simp] theorem State.markPass_initXor (s : State) : (s.markPass).initXor = s.initXor := rfl
@[simp] theorem State.markPass_finalXor (s : State) : (s.markPass).finalXor = s.finalXor := rfl
@[simp] theorem State.markPass_refState (s : State) : (s.markPass).refState = s.refState := rfl
@[simp] theorem State.markPass_result (s : State) : (s.markPass).result = s.result := rfl
@[simp] theorem State.markPass_busy (s : State) : (s.markPass).busy = s.busy := rfl
@[simp] theorem State.markPass_fwdValid (s : State) : (s.markPass).fwdValid = s.fwdValid := rfl
@[simp] theorem State.markPass_invValid (s : State) : (s.markPass).invValid = s.invValid := rfl
@[simp] theorem State.markPass_scPass (s : State) : (s.markPass).scPass = true := rfl
@[simp] theorem State.markPass_err (s : State) : (s.markPass).err = s.err := rfl
@[simp] theorem State.markPass_errCode (s : State) : (s.markPass).errCode = s.errCode := rfl
@[simp] theorem State.markPass_errInfo0 (s : State) : (s.markPass).errInfo0 = s.errInfo0 := rfl
@[simp] theorem State.markPass_errInfo1 (s : State) : (s.markPass).errInfo1 = s.errInfo1 := rfl
@[simp] theorem State.markPass_errInfo2 (s : State) : (s.markPass).errInfo2 = s.errInfo2 := rfl
@[simp] theorem State.markPass_errCmdLo (s : State) : (s.markPass).errCmdLo = s.errCmdLo := rfl
@[simp] theorem State.markPass_errCmdHi (s : State) : (s.markPass).errCmdHi = s.errCmdHi := rfl
@[simp] theorem State.markPass_cmdLo (s : State) : (s.markPass).cmdLo = s.cmdLo := rfl
@[simp] theorem State.markPass_cmdHi (s : State) : (s.markPass).cmdHi = s.cmdHi := rfl
@[simp] theorem State.markPass_ft (s : State) : (s.markPass).ft = s.ft := rfl
@[simp] theorem State.markPass_it (s : State) : (s.markPass).it = s.it := rfl
@[simp] theorem State.markPass_busyLeft (s : State) : (s.markPass).busyLeft = s.busyLeft := rfl
@[simp] theorem State.markPass_bus (s : State) : (s.markPass).bus = s.bus := rfl

/-! SC_PASS cleared. -/

@[simp] theorem State.clearPass_style (s : State) : (s.clearPass).style = s.style := rfl
@[simp] theorem State.clearPass_dbg (s : State) : (s.clearPass).dbg = s.dbg := rfl
@[simp] theorem State.clearPass_poly (s : State) : (s.clearPass).poly = s.poly := rfl
@[simp] theorem State.clearPass_state (s : State) : (s.clearPass).state = s.state := rfl
@[simp] theorem State.clearPass_initXor (s : State) : (s.clearPass).initXor = s.initXor := rfl
@[simp] theorem State.clearPass_finalXor (s : State) : (s.clearPass).finalXor = s.finalXor := rfl
@[simp] theorem State.clearPass_refState (s : State) : (s.clearPass).refState = s.refState := rfl
@[simp] theorem State.clearPass_result (s : State) : (s.clearPass).result = s.result := rfl
@[simp] theorem State.clearPass_busy (s : State) : (s.clearPass).busy = s.busy := rfl
@[simp] theorem State.clearPass_fwdValid (s : State) : (s.clearPass).fwdValid = s.fwdValid := rfl
@[simp] theorem State.clearPass_invValid (s : State) : (s.clearPass).invValid = s.invValid := rfl
@[simp] theorem State.clearPass_scPass (s : State) : (s.clearPass).scPass = false := rfl
@[simp] theorem State.clearPass_err (s : State) : (s.clearPass).err = s.err := rfl
@[simp] theorem State.clearPass_errCode (s : State) : (s.clearPass).errCode = s.errCode := rfl
@[simp] theorem State.clearPass_errInfo0 (s : State) : (s.clearPass).errInfo0 = s.errInfo0 := rfl
@[simp] theorem State.clearPass_errInfo1 (s : State) : (s.clearPass).errInfo1 = s.errInfo1 := rfl
@[simp] theorem State.clearPass_errInfo2 (s : State) : (s.clearPass).errInfo2 = s.errInfo2 := rfl
@[simp] theorem State.clearPass_errCmdLo (s : State) : (s.clearPass).errCmdLo = s.errCmdLo := rfl
@[simp] theorem State.clearPass_errCmdHi (s : State) : (s.clearPass).errCmdHi = s.errCmdHi := rfl
@[simp] theorem State.clearPass_cmdLo (s : State) : (s.clearPass).cmdLo = s.cmdLo := rfl
@[simp] theorem State.clearPass_cmdHi (s : State) : (s.clearPass).cmdHi = s.cmdHi := rfl
@[simp] theorem State.clearPass_ft (s : State) : (s.clearPass).ft = s.ft := rfl
@[simp] theorem State.clearPass_it (s : State) : (s.clearPass).it = s.it := rfl
@[simp] theorem State.clearPass_busyLeft (s : State) : (s.clearPass).busyLeft = s.busyLeft := rfl
@[simp] theorem State.clearPass_bus (s : State) : (s.clearPass).bus = s.bus := rfl

/-! A self-check failed. -/

@[simp] theorem State.failCheck_style (s : State) : (s.failCheck).style = s.style := rfl
@[simp] theorem State.failCheck_dbg (s : State) : (s.failCheck).dbg = s.dbg := rfl
@[simp] theorem State.failCheck_poly (s : State) : (s.failCheck).poly = s.poly := rfl
@[simp] theorem State.failCheck_state (s : State) : (s.failCheck).state = s.state := rfl
@[simp] theorem State.failCheck_initXor (s : State) : (s.failCheck).initXor = s.initXor := rfl
@[simp] theorem State.failCheck_finalXor (s : State) : (s.failCheck).finalXor = s.finalXor := rfl
@[simp] theorem State.failCheck_refState (s : State) : (s.failCheck).refState = s.refState := rfl
@[simp] theorem State.failCheck_result (s : State) : (s.failCheck).result = s.result := rfl
@[simp] theorem State.failCheck_busy (s : State) : (s.failCheck).busy = s.busy := rfl
@[simp] theorem State.failCheck_fwdValid (s : State) : (s.failCheck).fwdValid = s.fwdValid := rfl
@[simp] theorem State.failCheck_invValid (s : State) : (s.failCheck).invValid = false := rfl
@[simp] theorem State.failCheck_scPass (s : State) : (s.failCheck).scPass = false := rfl
@[simp] theorem State.failCheck_err (s : State) : (s.failCheck).err = s.err := rfl
@[simp] theorem State.failCheck_errCode (s : State) : (s.failCheck).errCode = s.errCode := rfl
@[simp] theorem State.failCheck_errInfo0 (s : State) : (s.failCheck).errInfo0 = s.errInfo0 := rfl
@[simp] theorem State.failCheck_errInfo1 (s : State) : (s.failCheck).errInfo1 = s.errInfo1 := rfl
@[simp] theorem State.failCheck_errInfo2 (s : State) : (s.failCheck).errInfo2 = s.errInfo2 := rfl
@[simp] theorem State.failCheck_errCmdLo (s : State) : (s.failCheck).errCmdLo = s.errCmdLo := rfl
@[simp] theorem State.failCheck_errCmdHi (s : State) : (s.failCheck).errCmdHi = s.errCmdHi := rfl
@[simp] theorem State.failCheck_cmdLo (s : State) : (s.failCheck).cmdLo = s.cmdLo := rfl
@[simp] theorem State.failCheck_cmdHi (s : State) : (s.failCheck).cmdHi = s.cmdHi := rfl
@[simp] theorem State.failCheck_ft (s : State) : (s.failCheck).ft = s.ft := rfl
@[simp] theorem State.failCheck_it (s : State) : (s.failCheck).it = s.it := rfl
@[simp] theorem State.failCheck_busyLeft (s : State) : (s.failCheck).busyLeft = s.busyLeft := rfl
@[simp] theorem State.failCheck_bus (s : State) : (s.failCheck).bus = s.bus := rfl

/-! WRREG's write: only the selected register changes. -/

@[simp] theorem State.writeReg_style (s : State) (r : ValueReg) (v : Word) : (s.writeReg r v).style = s.style := by cases r <;> rfl
@[simp] theorem State.writeReg_dbg (s : State) (r : ValueReg) (v : Word) : (s.writeReg r v).dbg = s.dbg := by cases r <;> rfl
@[simp] theorem State.writeReg_poly (s : State) (r : ValueReg) (v : Word) : (s.writeReg r v).poly = s.poly := by cases r <;> rfl
@[simp] theorem State.writeReg_state (s : State) (r : ValueReg) (v : Word) : (s.writeReg r v).state = if r = .state then v else s.state := by cases r <;> rfl
@[simp] theorem State.writeReg_initXor (s : State) (r : ValueReg) (v : Word) : (s.writeReg r v).initXor = if r = .initXor then v else s.initXor := by cases r <;> rfl
@[simp] theorem State.writeReg_finalXor (s : State) (r : ValueReg) (v : Word) : (s.writeReg r v).finalXor = if r = .finalXor then v else s.finalXor := by cases r <;> rfl
@[simp] theorem State.writeReg_refState (s : State) (r : ValueReg) (v : Word) : (s.writeReg r v).refState = if r = .refState then v else s.refState := by cases r <;> rfl
@[simp] theorem State.writeReg_result (s : State) (r : ValueReg) (v : Word) : (s.writeReg r v).result = s.result := by cases r <;> rfl
@[simp] theorem State.writeReg_busy (s : State) (r : ValueReg) (v : Word) : (s.writeReg r v).busy = s.busy := by cases r <;> rfl
@[simp] theorem State.writeReg_fwdValid (s : State) (r : ValueReg) (v : Word) : (s.writeReg r v).fwdValid = s.fwdValid := by cases r <;> rfl
@[simp] theorem State.writeReg_invValid (s : State) (r : ValueReg) (v : Word) : (s.writeReg r v).invValid = s.invValid := by cases r <;> rfl
@[simp] theorem State.writeReg_scPass (s : State) (r : ValueReg) (v : Word) : (s.writeReg r v).scPass = s.scPass := by cases r <;> rfl
@[simp] theorem State.writeReg_err (s : State) (r : ValueReg) (v : Word) : (s.writeReg r v).err = s.err := by cases r <;> rfl
@[simp] theorem State.writeReg_errCode (s : State) (r : ValueReg) (v : Word) : (s.writeReg r v).errCode = s.errCode := by cases r <;> rfl
@[simp] theorem State.writeReg_errInfo0 (s : State) (r : ValueReg) (v : Word) : (s.writeReg r v).errInfo0 = s.errInfo0 := by cases r <;> rfl
@[simp] theorem State.writeReg_errInfo1 (s : State) (r : ValueReg) (v : Word) : (s.writeReg r v).errInfo1 = s.errInfo1 := by cases r <;> rfl
@[simp] theorem State.writeReg_errInfo2 (s : State) (r : ValueReg) (v : Word) : (s.writeReg r v).errInfo2 = s.errInfo2 := by cases r <;> rfl
@[simp] theorem State.writeReg_errCmdLo (s : State) (r : ValueReg) (v : Word) : (s.writeReg r v).errCmdLo = s.errCmdLo := by cases r <;> rfl
@[simp] theorem State.writeReg_errCmdHi (s : State) (r : ValueReg) (v : Word) : (s.writeReg r v).errCmdHi = s.errCmdHi := by cases r <;> rfl
@[simp] theorem State.writeReg_cmdLo (s : State) (r : ValueReg) (v : Word) : (s.writeReg r v).cmdLo = s.cmdLo := by cases r <;> rfl
@[simp] theorem State.writeReg_cmdHi (s : State) (r : ValueReg) (v : Word) : (s.writeReg r v).cmdHi = s.cmdHi := by cases r <;> rfl
@[simp] theorem State.writeReg_ft (s : State) (r : ValueReg) (v : Word) : (s.writeReg r v).ft = s.ft := by cases r <;> rfl
@[simp] theorem State.writeReg_it (s : State) (r : ValueReg) (v : Word) : (s.writeReg r v).it = s.it := by cases r <;> rfl
@[simp] theorem State.writeReg_busyLeft (s : State) (r : ValueReg) (v : Word) : (s.writeReg r v).busyLeft = s.busyLeft := by cases r <;> rfl
@[simp] theorem State.writeReg_bus (s : State) (r : ValueReg) (v : Word) : (s.writeReg r v).bus = s.bus := by cases r <;> rfl

/-! TABWR's write: only the selected table changes. -/

@[simp] theorem State.writeTable_style (s : State) (t : TableId) (i : Nat) (v : Word) : (s.writeTable t i v).style = s.style := by cases t <;> rfl
@[simp] theorem State.writeTable_dbg (s : State) (t : TableId) (i : Nat) (v : Word) : (s.writeTable t i v).dbg = s.dbg := by cases t <;> rfl
@[simp] theorem State.writeTable_poly (s : State) (t : TableId) (i : Nat) (v : Word) : (s.writeTable t i v).poly = s.poly := by cases t <;> rfl
@[simp] theorem State.writeTable_state (s : State) (t : TableId) (i : Nat) (v : Word) : (s.writeTable t i v).state = s.state := by cases t <;> rfl
@[simp] theorem State.writeTable_initXor (s : State) (t : TableId) (i : Nat) (v : Word) : (s.writeTable t i v).initXor = s.initXor := by cases t <;> rfl
@[simp] theorem State.writeTable_finalXor (s : State) (t : TableId) (i : Nat) (v : Word) : (s.writeTable t i v).finalXor = s.finalXor := by cases t <;> rfl
@[simp] theorem State.writeTable_refState (s : State) (t : TableId) (i : Nat) (v : Word) : (s.writeTable t i v).refState = s.refState := by cases t <;> rfl
@[simp] theorem State.writeTable_result (s : State) (t : TableId) (i : Nat) (v : Word) : (s.writeTable t i v).result = s.result := by cases t <;> rfl
@[simp] theorem State.writeTable_busy (s : State) (t : TableId) (i : Nat) (v : Word) : (s.writeTable t i v).busy = s.busy := by cases t <;> rfl
@[simp] theorem State.writeTable_fwdValid (s : State) (t : TableId) (i : Nat) (v : Word) : (s.writeTable t i v).fwdValid = s.fwdValid := by cases t <;> rfl
@[simp] theorem State.writeTable_invValid (s : State) (t : TableId) (i : Nat) (v : Word) : (s.writeTable t i v).invValid = s.invValid := by cases t <;> rfl
@[simp] theorem State.writeTable_scPass (s : State) (t : TableId) (i : Nat) (v : Word) : (s.writeTable t i v).scPass = s.scPass := by cases t <;> rfl
@[simp] theorem State.writeTable_err (s : State) (t : TableId) (i : Nat) (v : Word) : (s.writeTable t i v).err = s.err := by cases t <;> rfl
@[simp] theorem State.writeTable_errCode (s : State) (t : TableId) (i : Nat) (v : Word) : (s.writeTable t i v).errCode = s.errCode := by cases t <;> rfl
@[simp] theorem State.writeTable_errInfo0 (s : State) (t : TableId) (i : Nat) (v : Word) : (s.writeTable t i v).errInfo0 = s.errInfo0 := by cases t <;> rfl
@[simp] theorem State.writeTable_errInfo1 (s : State) (t : TableId) (i : Nat) (v : Word) : (s.writeTable t i v).errInfo1 = s.errInfo1 := by cases t <;> rfl
@[simp] theorem State.writeTable_errInfo2 (s : State) (t : TableId) (i : Nat) (v : Word) : (s.writeTable t i v).errInfo2 = s.errInfo2 := by cases t <;> rfl
@[simp] theorem State.writeTable_errCmdLo (s : State) (t : TableId) (i : Nat) (v : Word) : (s.writeTable t i v).errCmdLo = s.errCmdLo := by cases t <;> rfl
@[simp] theorem State.writeTable_errCmdHi (s : State) (t : TableId) (i : Nat) (v : Word) : (s.writeTable t i v).errCmdHi = s.errCmdHi := by cases t <;> rfl
@[simp] theorem State.writeTable_cmdLo (s : State) (t : TableId) (i : Nat) (v : Word) : (s.writeTable t i v).cmdLo = s.cmdLo := by cases t <;> rfl
@[simp] theorem State.writeTable_cmdHi (s : State) (t : TableId) (i : Nat) (v : Word) : (s.writeTable t i v).cmdHi = s.cmdHi := by cases t <;> rfl
@[simp] theorem State.writeTable_ft (s : State) (t : TableId) (i : Nat) (v : Word) : (s.writeTable t i v).ft = if t = .ft then Memory.write s.ft i v else s.ft := by cases t <;> rfl
@[simp] theorem State.writeTable_it (s : State) (t : TableId) (i : Nat) (v : Word) : (s.writeTable t i v).it = if t = .it then Memory.write s.it i v else s.it := by cases t <;> rfl
@[simp] theorem State.writeTable_busyLeft (s : State) (t : TableId) (i : Nat) (v : Word) : (s.writeTable t i v).busyLeft = s.busyLeft := by cases t <;> rfl
@[simp] theorem State.writeTable_bus (s : State) (t : TableId) (i : Nat) (v : Word) : (s.writeTable t i v).bus = s.bus := by cases t <;> rfl

/-! The number of the core in its system: no action of the host changes it (log 15). -/

@[simp] theorem State.issue_coreId (s : State) (h : Word) : (s.issue h).bus.coreId = s.bus.coreId := by
  unfold State.issue; split <;> rfl

@[simp] theorem State.hostWrite_coreId (s : State) (o : BitVec 8) (v : Word) :
    (s.hostWrite o v).bus.coreId = s.bus.coreId := by
  unfold State.hostWrite; (repeat' split) <;> simp

@[simp] theorem State.releaseHeld_coreId (s : State) (o : BitVec 8) (v : Word) :
    (s.releaseHeld o v).bus.coreId = s.bus.coreId := by
  simp [State.releaseHeld]

@[simp] theorem State.busyRead_coreId (s : State) (o : BitVec 8) :
    (s.busyRead o).bus.coreId = s.bus.coreId := by
  unfold State.busyRead; split <;> rfl

/-! The word a platform that splits registers sees (20_memory.md R43; log 16). -/

theorem State.splitWord_idle {s : State} (h : s.busy = false) (o : BitVec 8) :
    s.splitWord o = s.hostRead o := by
  simp [State.splitWord, h]

theorem State.splitWord_defined {o : BitVec 8} (h : definedWhileBusy o = true) (s : State) :
    s.splitWord o = s.hostRead o := by
  simp [State.splitWord, h]

/-- The four bytes of register k are the lanes of the one word seen at its offset. -/
theorem State.byteAt_lane (s : State) {k j : Nat} (hk : k < 64) (hj : j < 4) :
    s.byteAt (s.base + 4 * k + j) = some (laneByte (s.splitWord (BitVec.ofNat 8 (4 * k))) j) := by
  have ho : s.base + 4 * k + j - s.base = 4 * k + j := by omega
  have hd : (4 * k + j) / 4 * 4 = 4 * k := by omega
  have hm : (4 * k + j) % 4 = j := by omega
  rw [State.byteAt, if_pos ⟨by omega, by simp only [Config.windowBytes]; omega⟩]
  simp only [ho, hd, hm]

end Sys2Proof.Machine
end

