-- ==== Sys2Proof/Laws/Step.lean ====
section
/-! SUPPORT. One inversion lemma for the step and for each of its phases: everything it can do when it answers a next state. -/

namespace Sys2Proof.Machine

/-- The phases of a step (70_reset_and_hazards.md R138, R139, R144, R149). -/
theorem step_next {s t : State} (h : step s = .next t) :
    (∃ rest, s.resetNext = some rest ∧ t = s.enterReset rest) ∨
    (s.resetNext = none ∧ s.bus.resetLine = true ∧ resetStep s = .next t) ∨
    (s.resetNext = none ∧ s.bus.resetLine = false ∧ s.busy = true ∧ s.busyLeft = 0 ∧
      executeCommand s = .next t) ∨
    (∃ k, s.resetNext = none ∧ s.bus.resetLine = false ∧ s.busy = true ∧ s.busyLeft = k + 1 ∧
      busyStep { s with busyLeft := k } = .next t) ∨
    (s.resetNext = none ∧ s.bus.resetLine = false ∧ s.busy = false ∧ idleStep s = .next t) := by
  unfold step clockStep at h
  split at h
  · exact .inl ⟨_, by assumption, (Host.Outcome.next.inj h).symm⟩
  · split at h
    · exact .inr (.inl ⟨by assumption, by assumption, h⟩)
    · split at h
      · split at h
        · exact .inr (.inr (.inl ⟨by assumption, by simp_all, by assumption, by assumption, h⟩))
        · exact .inr (.inr (.inr (.inl ⟨s.busyLeft - 1, by assumption, by simp_all, by assumption,
            by omega, h⟩)))
      · exact .inr (.inr (.inr (.inr ⟨by assumption, by simp_all, by simp_all, h⟩)))

/-- The command cycle (30_encoding.md R65). -/
theorem executeCommand_next {s t : State} (h : executeCommand s = .next t) :
    (s.err = true ∧ t = s.complete) ∨
    (s.err = false ∧ decode s.cmdWord = .illegalOpcode ∧ t = raise .illegalOpcode 0 0 0 s) ∨
    (s.err = false ∧ decode s.cmdWord = .illegalOperand ∧ t = raise .illegalOperand 0 0 0 s) ∨
    (s.err = false ∧ ∃ i, decode s.cmdWord = .legal i ∧ exec i s = .next t) := by
  unfold executeCommand at h
  split at h
  · exact .inl ⟨by assumption, (Host.Outcome.next.inj h).symm⟩
  · refine .inr ?_
    split at h
    · exact .inl ⟨by simp_all, by assumption, (Host.Outcome.next.inj h).symm⟩
    · exact .inr (.inl ⟨by simp_all, by assumption, (Host.Outcome.next.inj h).symm⟩)
    · exact .inr (.inr ⟨by simp_all, _, by assumption, h⟩)

/-- The host between commands (20_memory.md R44, R45, R50). -/
theorem idleStep_next {s t : State} (h : idleStep s = .next t) :
    (∃ o v, s.bus.held = some (o, v) ∧ t = s.releaseHeld o v) ∨
    (s.bus.held = none ∧
      ((s.bus.pending = [] ∧ t = s) ∨
      (∃ w o v rest, s.bus.pending = .write w o v :: rest ∧ accessRefusal w o = none ∧
        t = (s.afterAction rest).hostWrite o v) ∨
      (∃ w o rest, s.bus.pending = .read w o :: rest ∧ accessRefusal w o = none ∧
        t = (s.afterAction rest).answerRead (s.hostRead o)) ∨
      (∃ rest, s.bus.pending = .assertReset :: rest ∧ t = s.enterReset rest) ∨
      (∃ a rest, s.bus.pending = a :: rest ∧ (a = .releaseReset ∨ a = .wait) ∧
        t = s.afterAction rest))) := by
  unfold idleStep at h
  split at h
  · exact .inl ⟨_, _, by assumption, (Host.Outcome.next.inj h).symm⟩
  · refine .inr ⟨by assumption, ?_⟩
    split at h
    · exact .inl ⟨by assumption, (Host.Outcome.next.inj h).symm⟩
    · split at h
      · cases h
      · exact .inr (.inl ⟨_, _, _, _, by assumption, by assumption, (Host.Outcome.next.inj h).symm⟩)
    · split at h
      · cases h
      · exact .inr (.inr (.inl ⟨_, _, _, by assumption, by assumption, (Host.Outcome.next.inj h).symm⟩))
    · exact .inr (.inr (.inr (.inl ⟨_, by assumption, (Host.Outcome.next.inj h).symm⟩)))
    · exact .inr (.inr (.inr (.inr ⟨_, _, by assumption, .inl rfl, (Host.Outcome.next.inj h).symm⟩)))
    · exact .inr (.inr (.inr (.inr ⟨_, _, by assumption, .inr rfl, (Host.Outcome.next.inj h).symm⟩)))

/-- The host while a command runs (70_reset_and_hazards.md R144). -/
theorem busyStep_next {s t : State} (h : busyStep s = .next t) :
    (∃ p, s.bus.held = some p ∧ t = s) ∨
    (s.bus.held = none ∧
      ((s.bus.pending = [] ∧ t = s) ∨
      (∃ w o v rest, s.bus.pending = .write w o v :: rest ∧ accessRefusal w o = none ∧
        isCmdOffset o = true ∧
        t = { s with bus := { s.bus with pending := rest, held := some (o, v) } }) ∨
      (∃ w o v rest, s.bus.pending = .write w o v :: rest ∧ accessRefusal w o = none ∧
        isCmdOffset o = false ∧ t = s.afterAction rest) ∨
      (∃ w o rest, s.bus.pending = .read w o :: rest ∧ accessRefusal w o = none ∧
        t = (s.afterAction rest).busyRead o) ∨
      (∃ rest, s.bus.pending = .assertReset :: rest ∧ t = s.enterReset rest) ∨
      (∃ a rest, s.bus.pending = a :: rest ∧ (a = .releaseReset ∨ a = .wait) ∧
        t = s.afterAction rest))) := by
  unfold busyStep at h
  split at h
  · exact .inl ⟨_, by assumption, (Host.Outcome.next.inj h).symm⟩
  · refine .inr ⟨by assumption, ?_⟩
    split at h
    · exact .inl ⟨by assumption, (Host.Outcome.next.inj h).symm⟩
    · split at h
      · cases h
      · split at h
        · exact .inr (.inl ⟨_, _, _, _, by assumption, by assumption, by assumption,
            (Host.Outcome.next.inj h).symm⟩)
        · exact .inr (.inr (.inl ⟨_, _, _, _, by assumption, by assumption, by simp_all,
            (Host.Outcome.next.inj h).symm⟩))
    · split at h
      · cases h
      · exact .inr (.inr (.inr (.inl ⟨_, _, _, by assumption, by assumption,
          (Host.Outcome.next.inj h).symm⟩)))
    · exact .inr (.inr (.inr (.inr (.inl ⟨_, by assumption, (Host.Outcome.next.inj h).symm⟩))))
    · exact .inr (.inr (.inr (.inr (.inr ⟨_, _, by assumption, .inl rfl,
        (Host.Outcome.next.inj h).symm⟩))))
    · exact .inr (.inr (.inr (.inr (.inr ⟨_, _, by assumption, .inr rfl,
        (Host.Outcome.next.inj h).symm⟩))))

/-- The host while RESET is asserted (70_reset_and_hazards.md R138). -/
theorem resetStep_next {s t : State} (h : resetStep s = .next t) :
    (s.bus.pending = [] ∧ t = s) ∨
    (∃ a rest, s.bus.pending = a :: rest ∧ t = s.afterAction rest) ∨
    (∃ w o rest, s.bus.pending = .read w o :: rest ∧
      t = (s.afterAction rest).answerRead (s.hostRead o)) ∨
    (∃ rest, s.bus.pending = .assertReset :: rest ∧ t = s.enterReset rest) ∨
    (∃ rest, s.bus.pending = .releaseReset :: rest ∧
      t = { s with bus := { s.bus with pending := rest, resetLine := false } }) := by
  unfold resetStep at h
  split at h
  · exact .inl ⟨by assumption, (Host.Outcome.next.inj h).symm⟩
  · split at h
    · cases h
    · exact .inr (.inl ⟨_, _, by assumption, (Host.Outcome.next.inj h).symm⟩)
  · split at h
    · cases h
    · exact .inr (.inr (.inl ⟨_, _, _, by assumption, (Host.Outcome.next.inj h).symm⟩))
  · exact .inr (.inr (.inr (.inl ⟨_, by assumption, (Host.Outcome.next.inj h).symm⟩)))
  · exact .inr (.inr (.inr (.inr ⟨_, by assumption, (Host.Outcome.next.inj h).symm⟩)))
  · exact .inr (.inl ⟨_, _, by assumption, (Host.Outcome.next.inj h).symm⟩)

/-- The word in flight after a command has been placed. -/
theorem cmdWord_withFetchWord (s : State) (nbits w : Nat) :
    (s.withFetchWord nbits w).cmdWord = BitVec.ofNat 64 (w % 2 ^ nbits) := by
  simp only [State.withFetchWord, State.placeCommand, State.cmdWord]
  ext i hi
  grind

/-- A row of the opcode map decodes as `legal` says when `legal` answers the row's operands exactly where
its reserved fields are zero. -/
theorem decodesAs_of_row {op : Byte} {o : Opcode} (ho : Opcode.ofByte op = some o)
    {legal : Fields → Option Instr}
    (h : ∀ f : Fields, legal f = if o.reservedZero f then o.operands f else none) :
    decodesAs op legal := by
  have key : ∀ w : Cmd, (fieldsOf w).op = op → decode w =
      match legal (fieldsOf w) with
      | some i => .legal i
      | none => .illegalOperand := by
    intro w hw
    rw [h, decode, decodeFields, hw, ho]
    cases hz : o.reservedZero (fieldsOf w) <;> cases hi : o.operands (fieldsOf w) <;> simp_all
  refine ⟨key, fun s he hop hl => ?_⟩
  have hd := key _ hop
  rw [hl] at hd
  simp [executeCommand, he, hd]

end Sys2Proof.Machine
end

