-- ==== Sys2Proof/Tests/Slice0.lean ====
section
/-! SUPPORT. The model's own tests, with expected results from 95_test_vectors.md or worked out by hand from the rules, and a witness for every statement that has hypotheses. -/

open Sys2Proof Sys2Proof.Machine

/-! ## Helpers -/

/-- p holds of the next state. -/
def testNext (r : Result) (p : State → Bool) : Bool :=
  match r with
  | .next t => p t
  | .fault _ => false
  | .refused _ => false

/-- The outcome is a refusal. -/
def testRefused (r : Result) : Bool :=
  match r with
  | .next _ => false
  | .fault _ => false
  | .refused _ => true

/-- A core with a forward table as BUILDF leaves it. -/
def testBuilt (S : Style) (poly : Word) : State :=
  { State.reset with style := S, poly := poly, fwdValid := true, ft := forwardTable S poly }

/-- What the fault procedure records (60_exceptions.md R124): code, information words, STATUS, and the word
that faulted. -/
def testRecord (code : BitVec 4) (i0 i1 i2 status : Word) (w : Cmd) (t : State) : Bool :=
  errorBits t.errCode == code && t.errInfo0 == i0 && t.errInfo1 == i1 && t.errInfo2 == i2 &&
    t.statusWord == status && t.errCmdHi ++ t.errCmdLo == w

/-- The nine bytes of "123456789" (95_test_vectors.md section 1.4). -/
def testDigits : List Byte := [0x31, 0x32, 0x33, 0x34, 0x35, 0x36, 0x37, 0x38, 0x39]

/-! ## Well-formedness -/

theorem test_wf_refuses_style3 : Instr.wf (.cfg 3 false) = false ∧ Instr.wf (.cfg 3 true) = false := by
  decide

theorem test_wf_admits_styles :
    Instr.wf (.cfg 0 false) = true ∧ Instr.wf (.cfg 1 true) = true ∧ Instr.wf (.cfg 2 false) = true ∧
    Instr.wf (.pexp 255) = true := by
  decide

/-! ## Decoding: the words of 95_test_vectors.md section 2.1 and of the rules' examples -/

theorem test_decode_config :
    decodeTableWord 64 0x0000000000000000 = some .nop ∧
    decodeTableWord 64 0x0100000000000000 = some (.cfg 0 false) ∧
    decodeTableWord 64 0x0101000000000000 = some (.cfg 1 false) ∧
    decodeTableWord 64 0x0102010000000000 = some (.cfg 2 true) := by
  decide

theorem test_decode_polynomial :
    decodeTableWord 64 0x0200000000000000 = some .pclr ∧
    decodeTableWord 64 0x03000F0000000000 = some (.pexp 15) ∧
    decodeTableWord 64 0x0400000004C11DB7 = some (.pld 0x04C11DB7) ∧
    decodeTableWord 64 0x0500000000000000 = some .prev := by
  decide

theorem test_decode_registers :
    decodeTableWord 64 0x060000000000FFFF = some (.wrreg .state 0xFFFF) ∧
    decodeTableWord 64 0x060100000000FFFF = some (.wrreg .initXor 0xFFFF) ∧
    decodeTableWord 64 0x06020000FFFFFFFF = some (.wrreg .finalXor 0xFFFFFFFF) ∧
    decodeTableWord 64 0x0603000000001234 = some (.wrreg .refState 0x1234) ∧
    decodeTableWord 64 0x0700000000000000 = some .xix ∧
    decodeTableWord 64 0x0800000000000000 = some .xfx := by
  decide

theorem test_decode_builders :
    decodeTableWord 64 0x1000000000000000 = some .buildf ∧
    decodeTableWord 64 0x1100000000000000 = some .buildi ∧
    decodeTableWord 64 0x1200000000000000 = some .schk := by
  decide

theorem test_decode_engine :
    decodeTableWord 64 0x2000003100000000 = some (.adv 0x31) ∧
    decodeTableWord 64 0x200000FF00000000 = some (.adv 0xFF) ∧
    decodeTableWord 64 0x2100003900000000 = some (.ret 0x39) := by
  decide

theorem test_decode_tables :
    decodeTableWord 64 0x3000010000000000 = some (.tabrd .ft 1) ∧
    decodeTableWord 64 0x3001FF0000000000 = some (.tabrd .it 0xFF) ∧
    decodeTableWord 64 0x3101FF0000000054 = some (.tabwr .it 0xFF 0x54) ∧
    decodeTableWord 64 0x3100800000008000 = some (.tabwr .ft 0x80 0x8000) := by
  decide

/-- The first and last reserved opcode of each gap (30_encoding.md R63). -/
theorem test_decode_reserved :
    decode 0x0900000000000000 = .illegalOpcode ∧ decode 0x0F00000000000000 = .illegalOpcode ∧
    decode 0x1300000000000000 = .illegalOpcode ∧ decode 0x1F00000000000000 = .illegalOpcode ∧
    decode 0x2200000000000000 = .illegalOpcode ∧ decode 0x2F00000000000000 = .illegalOpcode ∧
    decode 0x3200000000000000 = .illegalOpcode ∧ decode 0xFF00000000000001 = .illegalOpcode := by
  decide

/-- Non-zero reserved fields and selectors outside their range (30_encoding.md R61, R62). -/
theorem test_decode_operands :
    decode 0x0000000000000001 = .illegalOperand ∧ decode 0x0103000000000000 = .illegalOperand ∧
    decode 0x0100020000000000 = .illegalOperand ∧ decode 0x0604000000000000 = .illegalOperand ∧
    decode 0x2000000000000001 = .illegalOperand ∧ decode 0x3002000000000000 = .illegalOperand ∧
    decode 0x3102000000000000 = .illegalOperand ∧ decode 0x3100000100000000 = .illegalOperand := by
  decide

/-! ## One step of each command -/

/-- 40_config_polynomial.md R73. -/
theorem test_nop : testNext (runWord 0x0000000000000000 State.reset) (fun t => t == State.reset) := by
  decide

/-- Section 2.2, row `CFG P32, DBG`; R74: everything is cleared. -/
theorem test_cfg : testNext (exec (.cfg 2 true) (testBuilt .r16 0x8005)) (fun t =>
    t.cfgWord == 0x00002012 && t.poly == 0 && t.refState == 0x1234 && t.statusWord == 0) := by
  decide

/-- 60_exceptions.md R118: style 3. -/
theorem test_cfg_style3 : testNext (runWord 0x0103000000000000 State.reset)
    (testRecord 2 0 0 0 0x00000210 0x0103000000000000) := by
  decide

/-- R75's example. -/
theorem test_pclr : testNext (exec .pclr (testBuilt .r16 0x8005)) (fun t =>
    t.poly == 0 && t.revPoly == 0 && t.statusWord == 0) := by
  decide

/-- R76's example, POLY = 0x0005. -/
theorem test_pexp : testNext (exec (.pexp 15) { State.reset with poly := 0x0005 }) (fun t =>
    t.poly == 0x8005 && t.revPoly == 0xA001) := by
  decide

/-- R76: e = W. -/
theorem test_pexp_contract : testNext (runWord 0x0300100000000000 State.reset)
    (testRecord 3 0x10 0 0 0x00000310 0x0300100000000000) := by
  decide

/-- R77's example. -/
theorem test_pld : testNext (exec (.pld 0x1021) { State.reset with style := .n16 }) (fun t =>
    t.poly == 0x1021 && t.revPoly == 0x8408) := by
  decide

/-- R77: the value 2^W. -/
theorem test_pld_contract : testNext (runWord 0x0400000000010000 State.reset)
    (testRecord 3 0x10000 0 0 0x00000310 0x0400000000010000) := by
  decide

/-- R78's example, and section 2.2's P32 row. -/
theorem test_prev :
    testNext (exec .prev { State.reset with poly := 0x8005 }) (fun t =>
      t.poly == 0xA001 && t.revPoly == 0x8005) ∧
    testNext (exec .prev { State.reset with style := .p32, poly := 0x04C11DB7 }) (fun t =>
      t.poly == 0xEDB88320) := by
  decide

/-- Section 2.3: the mirror. -/
theorem test_reverse :
    reverse .r16 0x0001 = 0x8000 ∧ reverse .r16 0x0100 = 0x0080 ∧ reverse .n16 0x1021 = 0x8408 ∧
    reverse .r16 0xFFFF = 0xFFFF ∧ reverse .p32 0x00000001 = 0x80000000 ∧ reverse .p32 0 = 0 := by
  decide

/-- R79's example. -/
theorem test_wrreg : testNext (exec (.wrreg .initXor 0xFFFF) State.reset) (fun t =>
    t.initXor == 0xFFFF && t.state == 0 && t.finalXor == 0 && t.refState == 0x1234) := by
  decide

/-- Section 9: a zero reference state faults. -/
theorem test_wrreg_zero : testNext (runWord 0x0603000000000000 State.reset)
    (testRecord 3 0 0 0 0x00000310 0x0603000000000000) := by
  decide

/-- Section 2.2: STATE = 0xFFFF, INITXOR = 0x00FF. -/
theorem test_xix : testNext (exec .xix { State.reset with state := 0xFFFF, initXor := 0x00FF })
    (fun t => t.state == 0xFF00 && t.initXor == 0x00FF) := by
  decide

/-- R81's example. -/
theorem test_xfx : testNext
    (exec .xfx { State.reset with style := .p32, state := 0x89A1897F, finalXor := 0xFFFFFFFF })
    (fun t => t.state == 0x765E7680) := by
  decide

/-- R87's example. -/
theorem test_buildf : testNext (exec .buildf { State.reset with poly := 0x8005, invValid := true })
    (fun t => Memory.read t.ft 0x01 == some 0xC0C1 && Memory.read t.ft 0x80 == some 0xA001 &&
      Memory.read t.ft 0xFF == some 0x4040 && t.statusWord == 0x00000002) := by
  decide +kernel

/-- Sections 3.1 and 3.3: stored and raw entries of the other two styles. -/
theorem test_forward_entries :
    fwdEntry .n16 0x1021 0x80 = 0x9188 ∧ fwdEntry .n16 0x1021 0xFF = 0x1EF0 ∧
    fwdRaw .n16 0x1021 0xFF = 0xF1EF0 ∧ fwdEntry .p32 0x04C11DB7 0x80 = 0x690CE0EE ∧
    fwdRaw .p32 0x04C11DB7 0xFF = 0xFCB1F740B4 := by
  decide

/-- R99's example. -/
theorem test_buildi : testNext (exec .buildi { testBuilt .r16 0x8005 with scPass := true }) (fun t =>
    Memory.read t.it 0x01 == some 0x4003 && Memory.read t.it 0xD4 == some 0xC131 &&
      Memory.read t.it 0xFF == some 0x0154 && t.statusWord == 0x00000006) := by
  decide +kernel

/-- R103's example: POLY = 0. -/
theorem test_buildi_fails : testNext (runWord 0x1100000000000000 (testBuilt .r16 0))
    (testRecord 5 0x1234 0x12CB 0 0x00000512 0x1100000000000000) := by
  decide +kernel

/-- R111, by hand: with POLY = 1 in R16, FT[n] = n * 256 and IT[n] = n; IT[0] = 1 instead of 0 fails at
state 0, byte 0, with the value 1. -/
theorem test_schk_fails : testNext
    (exec .schk { State.reset with
      poly := 1, fwdValid := true, invValid := true, scPass := true,
      ft := Memory.ofEntries fun n => BitVec.ofNat 32 (n * 256),
      it := Memory.write (Memory.ofEntries fun n => BitVec.ofNat 32 n) 0 1 })
    (testRecord 6 0 1 0 0x00000612 0) := by
  decide +kernel

/-- 60_exceptions.md R120: no inverse table. -/
theorem test_schk_not_ready : testNext (runWord 0x1200000000000000 State.reset)
    (testRecord 4 0 0 0 0x00000410 0x1200000000000000) := by
  decide

/-- Section 4.1, row "the reset REFSTATE" of each style. -/
theorem test_adv :
    testNext (exec (.adv 0xA5) { testBuilt .r16 0x8005 with state := 0x1234 })
      (fun t => t.state == 0xACD3) ∧
    testNext (exec (.adv 0xA5) { testBuilt .n16 0x1021 with state := 0x1234 })
      (fun t => t.state == 0xE33C) ∧
    testNext (exec (.adv 0xA5) { testBuilt .p32 0x04C11DB7 with state := 0x1234 })
      (fun t => t.state == 0xE6F80965) := by
  decide

/-- Section 4.4: the check values. -/
theorem test_adv_check_values :
    feed .r16 (forwardTable .r16 0x8005) 0 testDigits = 0xBB3D ∧
    feed .n16 (forwardTable .n16 0x1021) 0xFFFF testDigits = 0x29B1 ∧
    feed .p32 (forwardTable .p32 0x04C11DB7) 0 testDigits = 0x89A1897F := by
  decide +kernel

/-- R94's example: RET reads IT[0xD4] = 0xC131 and no other entry. -/
theorem test_ret : testNext
    (exec (.ret 0x31) { State.reset with
      poly := 0x8005, invValid := true, state := 0xD4C1, it := [(0xD4, 0xC131)] })
    (fun t => t.state == 0x0000) := by
  decide

/-- Section 4.2, v = 0, b = 0x31 (IT[0] = 0 in every style). -/
theorem test_ret_lanes :
    testNext (exec (.ret 0x31) { State.reset with style := .n16, invValid := true, it := [(0, 0)] })
      (fun t => t.state == 0x3100) ∧
    testNext (exec (.ret 0x31) { State.reset with style := .p32, invValid := true, it := [(0, 0)] })
      (fun t => t.state == 0x31000000) := by
  decide

/-- R112's example. -/
theorem test_tabrd : testNext (exec (.tabrd .ft 1) (testBuilt .n16 0x1021)) (fun t =>
    t.result == 0x00001021 && t.statusWord == 0x00000002) := by
  decide

/-- 60_exceptions.md R120: INV_VALID = 0. -/
theorem test_tabrd_not_ready : testNext (exec (.tabrd .it 1) (testBuilt .n16 0x1021)) (fun t =>
    t.errCode == .notReady && t.result == 0) := by
  decide

/-- R113: the entry is written, SC_PASS is cleared, the valid flags stay. -/
theorem test_tabwr : testNext
    (exec (.tabwr .it 0xFF 0x0054) { State.reset with
      dbg := true, fwdValid := true, invValid := true, scPass := true, it := [(0, 0), (0xFF, 0x0154)] })
    (fun t => t.it == [(0, 0), (0xFF, 0x0054)] && t.statusWord == 0x00000006) := by
  decide

/-- Section 9: the order PERMISSION, NOT_READY, CONTRACT. -/
theorem test_tabwr_order :
    testNext (runWord 0x3100000000000000 State.reset)
      (testRecord 7 0 0 0 0x00000710 0x3100000000000000) ∧
    testNext (runWord 0x3101000000010000 { State.reset with dbg := true })
      (testRecord 4 0 0 0 0x00000410 0x3101000000010000) ∧
    testNext (runWord 0x3100000000010000 { testBuilt .r16 0x8005 with dbg := true })
      (testRecord 3 0x10000 0 0 0x00000312 0x3100000000010000) := by
  decide

/-! ## The sequencer, the host and reset -/

/-- Section 9, first row. -/
theorem test_illegal_opcode : testNext (runWord 0xFF00000000000000 State.reset)
    (testRecord 1 0 0 0 0x00000110 0xFF00000000000000) := by
  decide

/-- A placed command is the next one the machine runs, right after reset. -/
theorem test_placed_command : testNext (step (State.reset.withFetchWord 64 0x0400000000001021))
    (fun t => t.poly == 0x1021 && t.busy == false && t.err == false) := by
  decide

/-- 60_exceptions.md R125: after a fault a command changes nothing. -/
theorem test_halt_drops : testNext (runWord 0x0300100000000000 State.reset) (fun t =>
    testNext (runWord 0x0400000000001021 t) (fun u =>
      u.poly == 0 && u.errCmdHi == 0x03001000 && u.statusWord == 0x00000310)) := by
  decide

/-- 20_memory.md R45: the CMD_HI write issues (CMD_HI << 32) OR CMD_LO and sets BUSY. -/
theorem test_issue : testNext
    (step { State.reset with
      cmdLo := 0x00001021
      bus := { State.reset.bus with pending := [.write .w32 0x3C 0x04000000] } })
    (fun t => t.busy && t.cmdWord == 0x0400000000001021 && t.poly == 0) := by
  decide

/-- 20_memory.md R50: a CMD_HI write while BUSY = 1 is held. -/
theorem test_held : testNext
    (step { State.reset with
      busy := true
      busyLeft := 3
      bus := { State.reset.bus with pending := [.write .w32 0x3C 0x02000000] } })
    (fun t => t.bus.held == some (0x3C, 0x02000000) && t.cmdHi == 0 && t.busyLeft == 2) := by
  decide

/-- 20_memory.md R42: an access of 8 bits, and one at offset 2. -/
theorem test_refused_accesses :
    testRefused (step { State.reset with
      bus := { State.reset.bus with pending := [.read .w8 0x00] } }) ∧
    testRefused (step { State.reset with
      bus := { State.reset.bus with pending := [.write .w32 0x02 0] } }) := by
  decide

/-- 70_reset_and_hazards.md R139: reset in the middle of a command, with a write held. -/
theorem test_reset_wins : testNext
    (step { testBuilt .n16 0x1021 with
      busy := true
      busyLeft := 5
      bus := { State.reset.bus with pending := [.assertReset], held := some (0x38, 7) } })
    (fun t => t.statusWord == 0 && t.cfgWord == 0x00001000 && t.ft == [] && t.bus.held == none &&
      t.bus.resetLine) := by
  decide

/-- 95_test_vectors.md section 2.1 and program P1: assembly lines. -/
theorem test_assemble :
    assemble ["CFG P32, DBG".toList, "TABWR IT, 0xFF, 0x0054".toList, "ADV '1'".toList] =
      some [0x0102010000000000, 0x3101FF0000000054, 0x2000003100000000] ∧
    assembleLine "UNFEED 1, 2".toList = some [.ret 2, .ret 1] ∧
    assembleLine "PEXP 256".toList = none := by
  decide

/-! ## Witnesses: the hypotheses of every statement that has some can be met together -/

/-- A core with both tables built for POLY = 1 in style R16, where FT[n] = n * 256 and IT[n] = n
(41_forward_table.md R83, 43_inverse_table.md R104). -/
def testPair : State :=
  { State.reset with
    poly := 1, fwdValid := true, invValid := true
    ft := forwardTable .r16 1
    it := Memory.ofEntries fun n => BitVec.ofNat 32 n }

theorem testPair_entry : ∀ i : Fin 256, fwdEntry .r16 1 i = BitVec.ofNat 32 (i * 256) := by
  decide +kernel

theorem testPair_closed : closedForm .r16 testPair.ft testPair.it := by
  intro i hi
  have h1 : Memory.entry testPair.ft i = BitVec.ofNat 32 (i * 256) := by
    rw [testPair, entry_forwardTable _ _ hi]
    exact testPair_entry ⟨i, hi⟩
  have h2 : closedIndex .r16 (BitVec.ofNat 32 (i * 256)) = i := by
    simp only [closedIndex, BitVec.toNat_ushiftRight, BitVec.toNat_ofNat, Nat.shiftRight_eq_div_pow]
    omega
  have h3 : ∀ k : Fin 256, closedEntry .r16 k (BitVec.ofNat 32 (k * 256)) = BitVec.ofNat 32 k := by
    decide +kernel
  rw [h1, h2, testPair, Memory.read_ofEntries, if_pos hi]
  exact congrArg some (h3 ⟨i, hi⟩).symm

theorem testPair_ft_bounded : tableBounded .r16 testPair.ft := bounded_forwardTable _ _

theorem testPair_it_bounded : tableBounded .r16 testPair.it := by
  intro c hc
  simp only [testPair, Memory.ofEntries, List.mem_map, List.mem_range'_1] at hc
  obtain ⟨i, hi, rfl⟩ := hc
  simp only [BitVec.toNat_ofNat, width]
  simp only [Config.tableDepth] at hi
  omega

theorem testPair_inv : StateInv testPair where
  poly_fits := by decide
  state_fits := by decide
  initXor_fits := by decide
  finalXor_fits := by decide
  refState_fits := by decide
  refState_ne := by decide
  result_fits := by decide
  ft_wf := wf_forwardTable _ _
  it_wf := Memory.wf_ofEntries _
  ft_bounded := testPair_ft_bounded
  it_bounded := testPair_it_bounded
  ft_full := fun _ => full_forwardTable _ _
  it_full := fun _ => Memory.full_ofEntries _
  pass_inv := by decide
  inv_fwd := by decide
  code_iff := by decide
  record_clear := by decide
  halt_idle := by decide
  held_cmd := by intro o v h; cases h
  reset_held := by intro h; cases h

theorem testPair_roundTrips : roundTrips .r16 testPair.ft testPair.it := by
  intro x b hx
  refine (roundTrip_iff hx testPair_ft_bounded testPair_it_bounded).2 ?_
  rw [Memory.entry, testPair_closed _ (fwdIndex_lt _ _ _)]
  rfl

/-- BUILDI on the pair's forward table installs the pair's inverse table. -/
theorem testPair_patch : patchTable .r16 testPair.ft 0x1234 = testPair.it := by
  have hinj := injective_of_closedForm testPair_ft_bounded testPair_closed
  refine Memory.eq_of_read (wf_patchTable _ _ _) (Memory.wf_ofEntries _) fun j => ?_
  by_cases hj : j < 256
  · obtain ⟨i, hi, rfl⟩ := index_surjective testPair_ft_bounded hinj hj
    obtain ⟨k, hk, h1, h2⟩ := read_patchTable (R := 0x1234) (by decide) testPair_ft_bounded hi
    rw [h2, testPair_closed i hi, hinj k hk i hi h1]
  · rw [testPair, Memory.read_ofEntries, if_neg hj]
    cases h : Memory.read (patchTable .r16 (forwardTable .r16 1) 0x1234) j with
    | none => rfl
    | some v => exact absurd ((wf_patchTable _ _ _).2 _ (Memory.mem_of_read h)) hj

theorem testPair_buildi : exec .buildi testPair = .next testPair := by
  have hp : patchTable testPair.style testPair.ft testPair.refState = testPair.it := testPair_patch
  have hv : validate testPair.style testPair.ft testPair.it testPair.refState = none :=
    validate_eq_none.2 fun b => testPair_roundTrips 0x1234 b (by decide)
  show execBuildi testPair = .next testPair
  unfold execBuildi
  rw [if_pos (show testPair.fwdValid = true from rfl),
    if_pos (show testPair.ft.full = true from full_forwardTable _ _), hp, hv]
  rfl

theorem witness_ResetLeavesSpecValues : (0x3C : BitVec 8) ≠ 0x04 ∧ (0x3C : BitVec 8) ≠ 0x1C := by decide

theorem witness_EveryStepKeepsInvariant : StateInv testPair ∧ step testPair = .next testPair :=
  ⟨testPair_inv, rfl⟩

theorem witness_EveryStepKeepsTablesCertified :
    StateInv testPair ∧ Certified testPair ∧ testPair.dbg = false ∧ testPair.invValid = true ∧
      step testPair = .next testPair :=
  ⟨testPair_inv, fun _ => ⟨fun _ => rfl, fun _ => testPair_closed⟩, rfl, rfl, rfl⟩

theorem witness_EveryStepKeepsPassVerified :
    let s := { testPair with scPass := true }
    StateInv s ∧ Verified s ∧ step s = .next s := by
  refine ⟨{ testPair_inv with pass_inv := fun _ => rfl, reset_held := by intro h; cases h },
    fun _ x hx b => testPair_roundTrips x b ?_, rfl⟩
  simp only [testPair, State.reset, testedStates, List.mem_map, List.mem_range'_1] at hx
  obtain ⟨i, hi, rfl⟩ := hx
  simp only [BitVec.toNat_ofNat, width]
  omega

theorem witness_NoStepFaultsUnderInvariant : StateInv testPair ∧ Admitted testPair :=
  ⟨testPair_inv, trivial⟩

theorem witness_DecodeOfEncodeIsTheCommand :
    Instr.wf (.cfg 2 true) = true ∧ Instr.wf (.tabwr .it 0xFF 0xFFFFFFFF) = true := by
  decide

theorem witness_LegalWordIsItsEncoding :
    decode 0x0102010000000000 = .legal (.cfg 2 true) ∧
    decode 0x3101FF0000000054 = .legal (.tabwr .it 0xFF 0x54) := by
  decide

/-- The two ends of every gap. -/
theorem witness_ReservedOpcodesRaise :
    (([0x09000000, 0x0F000000, 0x13000000, 0x1F000000, 0x22000000, 0x2F000000, 0x32000000,
        0xFF000000] : List Word).all fun hi =>
      let s := { State.reset with cmdHi := hi }
      let op := (fieldsOf s.cmdWord).op.toNat
      !s.err && decide ((0x09 ≤ op ∧ op ≤ 0x0F) ∨ (0x13 ≤ op ∧ op ≤ 0x1F) ∨ (0x22 ≤ op ∧ op ≤ 0x2F) ∨
        0x32 ≤ op)) = true := by
  decide

theorem witness_BadOperandsRaise :
    (State.reset.err = false ∧
      (fieldsOf (State.cmdWord { State.reset with cmdLo := 1 })).op = Opcode.nop.code ∧
      Opcode.reservedZero .nop (fieldsOf (State.cmdWord { State.reset with cmdLo := 1 })) = false) ∧
    ((fieldsOf (State.cmdWord { State.reset with cmdHi := 0x01030000 })).op = Opcode.cfg.code ∧
      2 < (fieldsOf (State.cmdWord { State.reset with cmdHi := 0x01030000 })).sel.toNat) ∧
    ((fieldsOf (State.cmdWord { State.reset with cmdHi := 0x01000200 })).op = Opcode.cfg.code ∧
      1 < (fieldsOf (State.cmdWord { State.reset with cmdHi := 0x01000200 })).idx.toNat) ∧
    ((fieldsOf (State.cmdWord { State.reset with cmdHi := 0x06040000 })).op = Opcode.wrreg.code ∧
      3 < (fieldsOf (State.cmdWord { State.reset with cmdHi := 0x06040000 })).sel.toNat) ∧
    ((fieldsOf (State.cmdWord { State.reset with cmdHi := 0x30020000 })).op = Opcode.tabrd.code ∧
      1 < (fieldsOf (State.cmdWord { State.reset with cmdHi := 0x30020000 })).sel.toNat) := by
  decide

theorem witness_BadOperandsRaise_legal :
    ((fieldsOf 0x0102010000000000).op = Opcode.cfg.code ∧
      Opcode.reservedZero .cfg (fieldsOf 0x0102010000000000) = true ∧
      (fieldsOf 0x0102010000000000).sel.toNat ≤ 2 ∧ (fieldsOf 0x0102010000000000).idx.toNat ≤ 1) ∧
    ((fieldsOf 0x0603000000000000).op = Opcode.wrreg.code ∧
      Opcode.reservedZero .wrreg (fieldsOf 0x0603000000000000) = true ∧
      (fieldsOf 0x0603000000000000).sel.toNat ≤ 3) ∧
    ((fieldsOf 0x3101000000000000).op = Opcode.tabwr.code ∧
      Opcode.reservedZero .tabwr (fieldsOf 0x3101000000000000) = true ∧
      (fieldsOf 0x3101000000000000).sel.toNat ≤ 1) := by
  decide

/-- A command in flight whose time is over. -/
def testDue (hi lo : Word) (s : State) : State :=
  { s with cmdHi := hi, cmdLo := lo, busy := true, busyLeft := 0 }

theorem witness_StepRunsDecodedCommand :
    (let s := testDue 0x10000000 0 State.reset
     s.resetNext = none ∧ s.bus.resetLine = false ∧ s.busy = true ∧ s.busyLeft = 0 ∧ s.err = false ∧
       decode s.cmdWord = .legal .buildf) ∧
    (State.reset.err = false ∧ decodeTableWord 64 0x1000000000000000 = some .buildf) := by
  decide

/-- The words of 60_exceptions.md R127's examples, with the state each of them names. -/
theorem witness_ChecksInPriorityOrder :
    (let s := { State.reset with cmdHi := 0x40FFFFFF }
     s.err = false ∧ decode s.cmdWord = .illegalOpcode) ∧
    (let s := { State.reset with cmdHi := 0x31020000 }
     s.err = false ∧ decode s.cmdWord = .illegalOperand) ∧
    (let s := { State.reset with cmdHi := 0x31000000, cmdLo := 0x10000 }
     s.err = false ∧ decode s.cmdWord = .legal (.tabwr .ft 0 0x10000) ∧
       needsDbg (.tabwr .ft 0 0x10000) = true ∧ s.dbg = false) ∧
    (let s := { State.reset with cmdHi := 0x31000000, cmdLo := 0x10000, dbg := true }
     s.err = false ∧ decode s.cmdWord = .legal (.tabwr .ft 0 0x10000) ∧ s.dbg = true ∧
       prerequisite (.tabwr .ft 0 0x10000) s = false) ∧
    (let s := { State.reset with cmdHi := 0x31000000, cmdLo := 0x10000, dbg := true, fwdValid := true }
     s.err = false ∧ decode s.cmdWord = .legal (.tabwr .ft 0 0x10000) ∧ s.dbg = true ∧
       prerequisite (.tabwr .ft 0 0x10000) s = true ∧
       brokenContract (.tabwr .ft 0 0x10000) s = some 0x10000) := by
  decide

/-- The contracts of the other three commands, each in a state that meets its prerequisite. -/
theorem witness_ChecksInPriorityOrder_contracts :
    prerequisite (.pexp 16) State.reset = true ∧
    brokenContract (.pexp 16) State.reset = some 16 ∧
    brokenContract (.pld 0x10000) State.reset = some 0x10000 ∧
    brokenContract (.wrreg .refState 0) State.reset = some 0 ∧
    brokenContract (.wrreg .state 0x10000) State.reset = some 0x10000 ∧
    prerequisite (.adv 0) State.reset = false ∧ prerequisite .schk State.reset = false := by
  decide

theorem witness_FaultsArePrecise :
    (State.reset.err = false ∧ testNext (exec (.adv 0) State.reset) (fun t => t.err)) ∧
    testNext (exec .buildi (testBuilt .r16 0)) (fun t => t.err) ∧
    testNext (exec .schk { State.reset with
      fwdValid := true, invValid := true, ft := Memory.ofEntries fun _ => 0,
      it := Memory.ofEntries fun _ => 1 }) (fun t => t.err) := by
  decide +kernel

/-- A core halted by PEXP 16. -/
def testHalted : State := raise .contract 0x10 0 0 (testDue 0x03001000 0 State.reset)

theorem testHalted_inv (pending : List HostAction) :
    StateInv { testHalted with bus := { State.reset.bus with pending := pending } } where
  poly_fits := by show 0 < 2 ^ 16; decide
  state_fits := by show 0 < 2 ^ 16; decide
  initXor_fits := by show 0 < 2 ^ 16; decide
  finalXor_fits := by show 0 < 2 ^ 16; decide
  refState_fits := by show 0x1234 < 2 ^ 16; decide
  refState_ne := by show Config.resetRef ≠ 0; decide
  result_fits := by show 0 < 2 ^ 16; decide
  ft_wf := Memory.wf_nil
  it_wf := Memory.wf_nil
  ft_bounded := bounded_nil _
  it_bounded := bounded_nil _
  ft_full := by intro h; cases h
  it_full := by intro h; cases h
  pass_inv := by intro h; cases h
  inv_fwd := by intro h; cases h
  code_iff := by constructor <;> (intro h; cases h)
  record_clear := by intro h; cases h
  halt_idle := by intro _; rfl
  held_cmd := by intro o v h; cases h
  reset_held := by intro h; cases h

theorem witness_HaltedCoreDropsCommands (v : Word) :
    (let s := { testHalted with bus := { State.reset.bus with pending := [.write .w32 0x3C v] } }
     StateInv s ∧ s.err = true ∧ s.resetNext = none ∧ s.bus.held = none ∧
       s.bus.pending = [.write .w32 0x3C v] ∧ ∃ t, step s = .next t) ∧
    (let s := { testHalted with bus := { State.reset.bus with pending := [.read .w32 0x24] } }
     StateInv s ∧ s.err = true ∧ s.bus.held = none ∧ (0x24 : BitVec 8).toNat % 4 = 0 ∧
       s.bus.pending = [.read .w32 0x24]) ∧
    (let s := { testHalted with bus := { State.reset.bus with pending := [.assertReset] } }
     s.bus.pending = [.assertReset]) :=
  ⟨⟨testHalted_inv _, rfl, rfl, rfl, rfl, _, rfl⟩, ⟨testHalted_inv _, rfl, rfl, rfl, rfl⟩, rfl⟩

theorem witness_RegisterMapAndByteLanes :
    (0x40 ≤ (0x40 : BitVec 8).toNat ∧ 0x40 ≤ (0xFF : BitVec 8).toNat) ∧
    ((0x34 : BitVec 8) ≠ 0x38 ∧ (0x34 : BitVec 8) ≠ 0x3C) ∧ (63 < 64 ∧ 3 < 4) ∧
    State.reset.busy = false ∧ State.busy { State.reset with busy := true } = true ∧ 16 ≤ 63 := by
  decide

/-- 20_memory.md R43 by hand: CFG reads 0x00001000 at reset, so its byte lanes 0 and 1 are 0x00 and 0x10. -/
theorem test_byte_lanes :
    State.reset.byteAt (Config.crcmBase 0 + 4) = some 0x00 ∧
    State.reset.byteAt (Config.crcmBase 0 + 5) = some 0x10 := by
  have hb : State.reset.base = Config.crcmBase 0 := rfl
  constructor <;>
    rw [State.byteAt, hb, if_pos ⟨by omega, by simp [Config.windowBytes]⟩, Nat.add_sub_cancel_left] <;>
    rfl

/-- An idle core whose host does one action next. -/
def testHost (a : HostAction) : State :=
  { State.reset with bus := { State.reset.bus with pending := [a] } }

theorem witness_OtherAccessesRefused :
    (let s := testHost (.write .w8 0 0)
     s.bus.held = none ∧ ¬(s.bus.resetLine = false ∧ s.busy = true ∧ s.busyLeft = 0) ∧
       AccessWidth.w8 ≠ .w32 ∧ s.bus.pending = [.write .w8 0 0]) ∧
    (let s := { testHost (.read .w32 2) with busy := true, busyLeft := 1 }
     s.bus.held = none ∧ ¬(s.bus.resetLine = false ∧ s.busy = true ∧ s.busyLeft = 0) ∧
       (2 : BitVec 8).toNat % 4 ≠ 0 ∧ s.bus.pending = [.read .w32 2]) := by
  decide

theorem witness_HostAccessesHaveNoSideEffect :
    (let s := testHost (.read .w32 0x10)
     s.bus.resetLine = false ∧ s.busy = false ∧ s.bus.held = none ∧ (0x10 : BitVec 8).toNat % 4 = 0 ∧
       s.bus.pending = [.read .w32 0x10]) ∧
    (let s := testHost (.write .w32 0xFC 5)
     s.bus.resetLine = false ∧ s.busy = false ∧ s.bus.held = none ∧ (0xFC : BitVec 8).toNat % 4 = 0 ∧
       (0xFC : BitVec 8) ≠ 0x38 ∧ (0xFC : BitVec 8) ≠ 0x3C ∧ s.bus.pending = [.write .w32 0xFC 5]) ∧
    0x40 ≤ (0xFC : BitVec 8).toNat := by
  decide

theorem witness_CommandIssue :
    (let s := testHost (.write .w32 0x3C 0x10000000)
     s.bus.resetLine = false ∧ s.busy = false ∧ s.bus.held = none ∧
       s.bus.pending = [.write .w32 0x3C 0x10000000] ∧ s.err = false) ∧
    (let s := { testHalted with bus := { State.reset.bus with pending := [.write .w32 0x3C 0] } }
     s.bus.resetLine = false ∧ s.busy = false ∧ s.bus.held = none ∧
       s.bus.pending = [.write .w32 0x3C 0] ∧ s.err = true) := by
  decide

theorem witness_CmdWriteHeldWhileBusy :
    (let s := { testHost (.write .w32 0x38 9) with busy := true, busyLeft := 1 }
     s.bus.resetLine = false ∧ s.busy = true ∧ s.busyLeft = 0 + 1 ∧ s.bus.held = none ∧
       s.bus.pending = [.write .w32 0x38 9]) ∧
    (let s := { State.reset with
       busy := true, busyLeft := 1, bus := { State.reset.bus with held := some (0x3C, 9) } }
     s.resetNext = none ∧ s.bus.resetLine = false ∧ s.busy = true ∧ s.busyLeft = 0 + 1 ∧
       s.bus.held = some (0x3C, 9)) ∧
    (let s := { State.reset with bus := { State.reset.bus with held := some (0x3C, 9) } }
     s.resetNext = none ∧ s.bus.resetLine = false ∧ s.busy = false ∧
       s.bus.held = some (0x3C, 9)) := by
  decide

theorem witness_BusyWindow :
    (let s := { testHost (.read .w32 0x00) with busy := true, busyLeft := 1 }
     s.bus.resetLine = false ∧ s.busy = true ∧ s.busyLeft = 0 + 1 ∧ s.bus.held = none ∧
       (0x00 : BitVec 8).toNat % 4 = 0 ∧ s.bus.pending = [.read .w32 0x00]) ∧
    (let s := { testHost (.read .w32 0x3C) with busy := true, busyLeft := 1 }
     s.bus.resetLine = false ∧ s.busy = true ∧ s.busyLeft = 0 + 1 ∧ s.bus.held = none ∧
       (0x3C : BitVec 8).toNat % 4 = 0 ∧ (0x3C : BitVec 8) ≠ 0x00 ∧ (0x3C : BitVec 8).toNat < 0x40 ∧
       s.bus.pending = [.read .w32 0x3C]) ∧
    (let s := { testHost (.write .w32 0x34 1) with busy := true, busyLeft := 1 }
     s.bus.resetLine = false ∧ s.busy = true ∧ s.busyLeft = 0 + 1 ∧ s.bus.held = none ∧
       (0x34 : BitVec 8).toNat % 4 = 0 ∧ (0x34 : BitVec 8) ≠ 0x38 ∧ (0x34 : BitVec 8) ≠ 0x3C ∧
       s.bus.pending = [.write .w32 0x34 1]) := by
  decide

/-- BUILDF in flight with busyLeft steps to go, and a host that polls STATUS, writes CMD_LO and waits. -/
def testPolled (busyLeft : Nat) : State :=
  { testDue 0x10000000 0 State.reset with
    busyLeft := busyLeft
    bus := { State.reset.bus with pending := [.read .w32 0x00, .write .w32 0x38 1, .wait] } }

theorem testPolled_inv (n : Nat) : StateInv (testPolled n) where
  poly_fits := by show 0 < 2 ^ 16; decide
  state_fits := by show 0 < 2 ^ 16; decide
  initXor_fits := by show 0 < 2 ^ 16; decide
  finalXor_fits := by show 0 < 2 ^ 16; decide
  refState_fits := by show 0x1234 < 2 ^ 16; decide
  refState_ne := by show Config.resetRef ≠ 0; decide
  result_fits := by show 0 < 2 ^ 16; decide
  ft_wf := Memory.wf_nil
  it_wf := Memory.wf_nil
  ft_bounded := bounded_nil _
  it_bounded := bounded_nil _
  ft_full := by intro h; cases h
  it_full := by intro h; cases h
  pass_inv := by intro h; cases h
  inv_fwd := by intro h; cases h
  code_iff := by constructor <;> (intro _; rfl)
  record_clear := by intro _; exact ⟨rfl, rfl, rfl, rfl, rfl⟩
  halt_idle := by intro h; cases h
  held_cmd := by intro o v h; cases h
  reset_held := by intro h; cases h

theorem witness_CommandCompletesInFiniteTime :
    (∀ a ∈ (testPolled 7).bus.pending, admittedAction a ∧ a ≠ .assertReset) ∧
    (testPolled 7).bus.resetLine = false ∧ (testPolled 7).busy = true ∧ (testPolled 7).busyLeft = 7 ∧
    StateInv (testPolled 7) ∧
    (let s := testDue 0x10000000 0 State.reset
     s.bus.pending = [] ∧ s.bus.resetLine = false ∧ s.busy = true ∧ s.busyLeft = 0) := by
  refine ⟨?_, rfl, rfl, rfl, testPolled_inv 7, rfl, rfl, rfl, rfl⟩
  intro a ha
  simp only [testPolled, List.mem_cons, List.not_mem_nil, or_false] at ha
  obtain rfl | rfl | rfl := ha <;> exact ⟨by first | rfl | trivial, nofun⟩

/-- A core whose RESET is asserted. -/
def testInReset (a : HostAction) : State :=
  { State.reset with bus := { State.reset.bus with pending := [a], resetLine := true } }

theorem testInReset_inv (a : HostAction) : StateInv (testInReset a) where
  poly_fits := by show 0 < 2 ^ 16; decide
  state_fits := by show 0 < 2 ^ 16; decide
  initXor_fits := by show 0 < 2 ^ 16; decide
  finalXor_fits := by show 0 < 2 ^ 16; decide
  refState_fits := by show 0x1234 < 2 ^ 16; decide
  refState_ne := by show Config.resetRef ≠ 0; decide
  result_fits := by show 0 < 2 ^ 16; decide
  ft_wf := Memory.wf_nil
  it_wf := Memory.wf_nil
  ft_bounded := bounded_nil _
  it_bounded := bounded_nil _
  ft_full := by intro h; cases h
  it_full := by intro h; cases h
  pass_inv := by intro h; cases h
  inv_fwd := by intro h; cases h
  code_iff := by constructor <;> (intro _; rfl)
  record_clear := by intro _; exact ⟨rfl, rfl, rfl, rfl, rfl⟩
  halt_idle := by intro h; cases h
  held_cmd := by intro o v h; cases h
  reset_held := by intro _; rfl

theorem witness_ResetWinsAndHolds :
    State.bus (testHost .assertReset) = { State.reset.bus with pending := [.assertReset] } ∧
    (∀ a, StateInv (testInReset a) ∧ (testInReset a).bus.resetLine = true ∧
      (testInReset a).bus.pending = [a]) ∧ (0x1C : BitVec 8).toNat % 4 = 0 :=
  ⟨rfl, fun a => ⟨testInReset_inv a, rfl, rfl⟩, rfl⟩

theorem witness_NopRule : testHalted.err = true := by decide

theorem witness_decodesAs :
    (fieldsOf 0x0000000000000000).op = 0x00 ∧ (fieldsOf 0x0102010000000000).op = 0x01 ∧
    (fieldsOf 0x0200000000000000).op = 0x02 ∧ (fieldsOf 0x0300000000000000).op = 0x03 ∧
    (fieldsOf 0x0400000000000000).op = 0x04 ∧ (fieldsOf 0x0500000000000000).op = 0x05 ∧
    (fieldsOf 0x0600000000000000).op = 0x06 ∧ (fieldsOf 0x0700000000000000).op = 0x07 ∧
    (fieldsOf 0x0800000000000000).op = 0x08 ∧ (fieldsOf 0x1000000000000000).op = 0x10 ∧
    (fieldsOf 0x2000000000000000).op = 0x20 ∧ (fieldsOf 0x2100000000000000).op = 0x21 ∧
    (fieldsOf 0x3000000000000000).op = 0x30 ∧ (fieldsOf 0x3100000000000000).op = 0x31 := by
  decide

/-- A word with a bad operand for each command whose other fields all or partly are reserved. -/
theorem witness_decodesAs_bad :
    (([0x00000001, 0x01030000, 0x02000001, 0x03010000, 0x04010000, 0x05000001, 0x06040000, 0x07000001,
        0x08000001, 0x10000001, 0x11000001, 0x12000001, 0x20010000, 0x21010000, 0x30020000,
        0x31020000] : List Word).all fun hi =>
      let s := { State.reset with cmdHi := hi }
      !s.err && decide (decode s.cmdWord = .illegalOperand)) = true := by
  decide

theorem witness_CfgRule :
    ((2 : BitVec 2) = 0 ∧ Style.p32 = .r16) ∨ ((2 : BitVec 2) = 1 ∧ Style.p32 = .n16) ∨
      ((2 : BitVec 2) = 2 ∧ Style.p32 = .p32) := by
  decide

theorem witness_PclrAndPldRules :
    2 ^ width State.reset.style ≤ (0x10000 : Word).toNat ∧
    (0xFFFF : Word).toNat < 2 ^ width State.reset.style := by
  decide

theorem witness_PexpRule :
    width State.reset.style ≤ (16 : Byte).toNat ∧ (15 : Byte).toNat < width State.reset.style ∧
    width .p32 ≤ (32 : Byte).toNat ∧ (31 : Byte).toNat < width .p32 := by
  decide

theorem witness_PrevRule : (0xFFFF : Word).toNat < 2 ^ width .r16 := by decide

theorem witness_ReverseIsTheMirror :
    (0x8005 : Word).toNat < 2 ^ width .r16 ∧ (0xFFFFFFFF : Word).toNat < 2 ^ width .p32 ∧
    0 < width .r16 ∧ 31 < width .p32 := by
  decide

theorem witness_WrregRule :
    2 ^ width State.reset.style ≤ (0x10000 : Word).toNat ∧
    (ValueReg.refState = .refState ∧ (0 : Word) = 0) ∧
    ((0xFFFF : Word).toNat < 2 ^ width State.reset.style ∧ (0xFFFF : Word) ≠ 0) := by
  decide

theorem witness_XixXfxRules :
    let s := { State.reset with state := 0x00FF, initXor := 0xFFFF, finalXor := 0x0F0F }
    (exec .xix s = .next { s with state := 0xFF00 } ∧
      exec .xix { s with state := 0xFF00 } = .next { s with state := 0x00FF }) ∧
    (exec .xfx s = .next { s with state := 0x0FF0 } ∧
      exec .xfx { s with state := 0x0FF0 } = .next { s with state := 0x00FF }) :=
  ⟨⟨rfl, rfl⟩, ⟨rfl, rfl⟩⟩

theorem witness_BuildfRule : 255 < 256 ∧ 256 ≤ 256 := by decide

theorem witness_ForwardTableIsLinear :
    (0x1021 : Word).toNat < 2 ^ width .n16 ∧ 1 < 256 ∧ 255 < 256 ∧ Style.n16 ≠ .r16 := by
  decide

theorem witness_TruncationIsUnobservable : (0xFFFF : Word).toNat < 2 ^ width .n16 ∧ 255 < 256 := by
  decide

theorem witness_IndexPartBijectiveIffConstantTerm :
    (0x8005 : Word).toNat < 2 ^ width .r16 ∧ (0x8005 : Word).getLsbD 0 = true ∧
    (0x8004 : Word).toNat < 2 ^ width .r16 ∧ (0x8004 : Word).getLsbD 0 = false := by
  decide

theorem witness_AdvRule :
    State.reset.fwdValid = false ∧ testPair.fwdValid = true ∧ Memory.full testPair.ft = true :=
  ⟨rfl, rfl, full_forwardTable _ _⟩

theorem witness_RetRule :
    State.reset.invValid = false ∧ testPair.invValid = true ∧ Memory.full testPair.it = true ∧
    closedForm .r16 (forwardTable .r16 1) testPair.it :=
  ⟨rfl, rfl, Memory.full_ofEntries _, testPair_closed⟩

theorem witness_RoundTripOfValidatedTables :
    (StateInv testPair ∧ exec .buildi testPair = .next testPair ∧ testPair.invValid = true ∧
      testPair.err = false) ∧
    (StateInv testPair ∧ Certified testPair ∧ testPair.dbg = false ∧ testPair.invValid = true) :=
  ⟨⟨testPair_inv, testPair_buildi, rfl, rfl⟩,
    ⟨testPair_inv, fun _ => ⟨fun _ => rfl, fun _ => testPair_closed⟩, rfl, rfl⟩⟩

theorem witness_AdvanceIsABijection :
    roundTrips .r16 testPair.ft testPair.it ∧ (0xFFFF : Word).toNat < 2 ^ width .r16 :=
  ⟨testPair_roundTrips, by decide⟩

theorem witness_StreamsReturnToTheirStart :
    roundTrips .r16 testPair.ft testPair.it ∧ (0x1234 : Word).toNat < 2 ^ width .r16 :=
  ⟨testPair_roundTrips, by decide⟩

theorem witness_BuildiSucceedsOnBijection :
    testPair.fwdValid = true ∧ Memory.full testPair.ft = true ∧
    tableBounded testPair.style testPair.ft ∧
    testPair.refState.toNat < 2 ^ width testPair.style ∧ indexInjective testPair.style testPair.ft :=
  ⟨rfl, full_forwardTable _ _, testPair_ft_bounded, by decide,
    injective_of_closedForm testPair_ft_bounded testPair_closed⟩

/-- FT all zeros: the table of POLY = 0 (41_forward_table.md R87). -/
theorem witness_BuildiFailsOtherwise :
    let s := { State.reset with fwdValid := true, ft := Memory.ofEntries fun _ => 0 }
    s.fwdValid = true ∧ Memory.full s.ft = true ∧ tableBounded s.style s.ft ∧
    s.refState.toNat < 2 ^ width s.style ∧ ¬indexInjective s.style s.ft := by
  refine ⟨rfl, Memory.full_ofEntries _, ?_, by decide, ?_⟩
  · intro c hc
    simp only [Memory.ofEntries, List.mem_map] at hc
    obtain ⟨i, -, rfl⟩ := hc
    show 0 < 2 ^ 16
    decide
  · intro h
    have := h 0 (by decide) 1 (by decide) (by
      rw [Memory.entry_ofEntries _ (by decide), Memory.entry_ofEntries _ (by decide)])
    cases this

theorem witness_BuildiIndependentOfReference :
    StateInv testPair ∧ (0xFFFF : Word).toNat < 2 ^ width testPair.style ∧
    (1 : Word).toNat < 2 ^ width testPair.style ∧ exec .buildi testPair = .next testPair ∧
    testPair.invValid = true :=
  ⟨testPair_inv, by decide, by decide, testPair_buildi, rfl⟩

theorem witness_SchkPassesOnBuiltTables :
    StateInv testPair ∧ testPair.invValid = true ∧
    closedForm testPair.style testPair.ft testPair.it :=
  ⟨testPair_inv, rfl, testPair_closed⟩

/-- The pair with IT[0] changed from 0 to 1 fails at the first state and the first byte. -/
theorem witness_SchkReportsFirstFailure :
    let it := Memory.write testPair.it 0 1
    testPair.invValid = true ∧ Memory.full testPair.ft = true ∧ Memory.full it = true ∧
    testedStates .r16 = [] ++ 0 :: (List.range' 1 65535).map (fun n => BitVec.ofNat 32 n) ∧
    retreat .r16 it (advance .r16 testPair.ft 0 0) 0 ≠ 0 := by
  refine ⟨rfl, full_forwardTable _ _, Memory.full_write (Memory.full_ofEntries _) _ _, ?_, ?_⟩
  · simp only [testedStates, List.nil_append]
    rfl
  · intro h
    rw [roundTrip_iff (by decide) testPair_ft_bounded
      (bounded_write testPair_it_bounded 0 (by decide))] at h
    have h1 : Memory.entry testPair.ft 0 = 0 := by
      rw [testPair, entry_forwardTable _ _ (by decide)]; decide
    have h2 : fwdIndex .r16 0 0 = 0 := by decide
    have h3 : closedIndex .r16 0 = 0 := by decide
    rw [h2, h1, h3, Memory.entry, Memory.read_write_same] at h
    revert h
    decide

theorem witness_SingleCorruptionIsReported :
    (StateInv testPair ∧ testPair.invValid = true ∧
      closedForm testPair.style testPair.ft testPair.it ∧
      (1 : Word).toNat < 2 ^ width testPair.style) ∧
    (1 : Word) ≠ Memory.entry testPair.ft (255 : Byte).toNat ∧
    (1 : Word) ≠ Memory.entry testPair.it (0 : Byte).toNat := by
  refine ⟨⟨testPair_inv, rfl, testPair_closed, by decide⟩, ?_, ?_⟩
  · rw [testPair, entry_forwardTable _ _ (by decide)]; decide
  · rw [testPair, Memory.entry_ofEntries _ (by decide)]; decide

theorem witness_TestedStatesInOrder : 65535 < 65536 ∧ 31 < 32 ∧ 0 < 32 := by decide

theorem witness_TabrdRule :
    State.reset.tableValid .ft = false ∧ State.reset.tableValid .it = false ∧
    testPair.fwdValid = true ∧ Memory.full testPair.ft = true ∧ testPair.invValid = true ∧
    Memory.full testPair.it = true :=
  ⟨rfl, rfl, rfl, full_forwardTable _ _, rfl, Memory.full_ofEntries _⟩

theorem witness_TabrdRule_result :
    StateInv testPair ∧ ∃ t, exec (.tabrd .it 0xFF) testPair = .next t := by
  refine ⟨testPair_inv, ?_⟩
  have h : Memory.read testPair.it 0xFF = some 0xFF := by
    rw [testPair, Memory.read_ofEntries, if_pos (by decide)]
    rfl
  show ∃ t, execTabrd .it 0xFF testPair = .next t
  unfold execTabrd
  rw [if_pos (show testPair.tableValid .it = true from rfl),
    show Memory.read (testPair.table .it) (0xFF : Byte).toNat = some 0xFF from h]
  exact ⟨_, rfl⟩

theorem witness_TabwrRule :
    State.reset.dbg = false ∧
    (State.dbg { State.reset with dbg := true } = true ∧
      State.tableValid { State.reset with dbg := true } .it = false) ∧
    (State.dbg { testPair with dbg := true } = true ∧
      State.tableValid { testPair with dbg := true } .it = true ∧
      2 ^ width testPair.style ≤ (0x10000 : Word).toNat ∧
      (0xFFFF : Word).toNat < 2 ^ width testPair.style) :=
  ⟨rfl, ⟨rfl, rfl⟩, rfl, rfl, by decide, by decide⟩

/-- For FrameOfValueRegisters, FrameOfTables and BoundaryConstantsInfluenceNothingElse. -/
theorem witness_frames :
    exec .nop State.reset = .next State.reset ∧ invalidates .nop = false ∧
    (∀ c d, Instr.nop ≠ .cfg c d) ∧ Instr.nop ≠ .xix ∧ Instr.nop ≠ .xfx :=
  ⟨rfl, rfl, fun _ _ h => (nomatch h), fun h => (nomatch h), fun h => (nomatch h)⟩

/-- The same with commands that write: TABWR one entry of IT, and BUILDI all of it. -/
theorem witness_FrameOfTables_writes :
    (let s := { testPair with dbg := true }
     (∃ t, exec (.tabwr .it 0xFF 0) s = .next t ∧ t.err = false) ∧
       invalidates (.tabwr .it 0xFF 0) = false ∧ (0 : Nat) ≠ (0xFF : Byte).toNat) ∧
    exec .buildi testPair = .next testPair ∧ invalidates .buildi = false :=
  ⟨⟨⟨_, rfl, rfl⟩, rfl, by decide⟩, testPair_buildi, rfl⟩

theorem witness_FlagRules :
    (StateInv testPair ∧ testPair.err = false ∧ exec .buildi testPair = .next testPair) ∧
    exec (.tabwr .ft 0 0) testPair = .next (raise .permission 0 0 0 testPair) ∧
    (raise .permission 0 0 0 testPair).err = true :=
  ⟨⟨testPair_inv, rfl, testPair_buildi⟩, rfl, rfl⟩

theorem witness_FrameOfRecordAndHost :
    (exec .xix testHalted = .next testHalted ∧ testHalted.err = true) ∧
    (exec .buildi testPair = .next testPair ∧ testPair.err = false) :=
  ⟨⟨rfl, rfl⟩, testPair_buildi, rfl⟩

theorem witness_CoresShareNoState :
    stepSystem 1 [State.reset, testPair] = .next [State.reset, testPair] ∧
    [State.reset, testPair][1]? = some testPair := ⟨rfl, rfl⟩

theorem witness_CoresShareNoState_numbered :
    isSystem systemReset ∧ ∃ cores', stepSystem Config.nCores systemReset = .next cores' := by
  refine ⟨⟨by simp [systemReset], fun k s h => ?_⟩, systemReset, ?_⟩
  · simp only [systemReset, List.getElem?_map, Option.map_eq_some_iff] at h
    obtain ⟨j, hj, rfl⟩ := h
    obtain ⟨hk, hv⟩ := List.getElem?_eq_some_iff.1 hj
    rw [List.getElem_range] at hv
    exact hv.symm
  · simp [stepSystem, systemReset]

theorem witness_PsetProgramSetsTheExponents :
    State.reset.err = false ∧ (∀ e ∈ ([0, 15, 15] : List Byte), e.toNat < width State.reset.style) ∧
    (∀ e ∈ ([31] : List Byte), e.toNat < width .p32) := by
  decide

theorem witness_GenPublishesVerifiedTables :
    StateInv testPair ∧ testPair.err = false ∧ testPair.poly.getLsbD 0 = true :=
  ⟨testPair_inv, rfl, by decide⟩
end

/-! The host side of one core under a command and under a step: what both leave alone (00_scope.md R3, 60_exceptions.md R135). -/

namespace Sys2Proof.Machine

/-- No command touches the host's side of the core, whether it completes or raises an error. -/
theorem exec_bus {i : Instr} {s t : State} (h : exec i s = .next t) : t.bus = s.bus := by
  cases i with
  | nop | pclr | prev | xix | xfx | buildf => cases h; rfl
  | cfg c d => obtain ⟨-, rfl⟩ | ⟨_, -, rfl⟩ := execCfg_next h <;> rfl
  | pexp e => obtain ⟨-, rfl⟩ | ⟨-, rfl⟩ := execPexp_next h <;> rfl
  | pld imm => obtain ⟨-, rfl⟩ | ⟨-, rfl⟩ := execPld_next h <;> rfl
  | wrreg r imm => obtain ⟨-, rfl⟩ | ⟨-, rfl⟩ := execWrreg_next h <;> simp
  | adv b => obtain ⟨-, rfl⟩ | ⟨-, _, -, rfl⟩ := execAdv_next h <;> rfl
  | ret b => obtain ⟨-, rfl⟩ | ⟨-, _, -, rfl⟩ := execRet_next h <;> rfl
  | buildi => obtain ⟨-, rfl⟩ | ⟨-, -, ⟨-, rfl⟩ | ⟨_, _, -, rfl⟩⟩ := execBuildi_next h <;> rfl
  | schk => obtain ⟨-, rfl⟩ | ⟨-, -, -, ⟨-, rfl⟩ | ⟨_, _, _, -, rfl⟩⟩ := execSchk_next h <;> rfl
  | tabrd tb idx => obtain ⟨-, rfl⟩ | ⟨-, _, -, rfl⟩ := execTabrd_next h <;> rfl
  | tabwr tb idx imm =>
    obtain ⟨-, rfl⟩ | ⟨-, -, rfl⟩ | ⟨-, -, -, rfl⟩ | ⟨-, -, -, rfl⟩ := execTabwr_next h <;> simp

/-- Nor does the command cycle around it. -/
theorem executeCommand_bus {s t : State} (h : executeCommand s = .next t) : t.bus = s.bus := by
  obtain ⟨-, rfl⟩ | ⟨-, -, rfl⟩ | ⟨-, -, rfl⟩ | ⟨-, i, -, hi⟩ := executeCommand_next h
  · rfl
  · rfl
  · rfl
  · exact exec_bus hi

theorem idleStep_coreId {s t : State} (h : idleStep s = .next t) : t.bus.coreId = s.bus.coreId := by
  obtain ⟨o, v, -, rfl⟩ | ⟨-, ⟨-, rfl⟩ | ⟨w, o, v, rest, -, -, rfl⟩ | ⟨w, o, rest, -, -, rfl⟩ |
    ⟨rest, -, rfl⟩ | ⟨a, rest, -, -, rfl⟩⟩ := idleStep_next h <;> simp

theorem busyStep_coreId {s t : State} (h : busyStep s = .next t) : t.bus.coreId = s.bus.coreId := by
  obtain ⟨p, -, rfl⟩ | ⟨-, ⟨-, rfl⟩ | ⟨w, o, v, rest, -, -, -, rfl⟩ | ⟨w, o, v, rest, -, -, -, rfl⟩ |
    ⟨w, o, rest, -, -, rfl⟩ | ⟨rest, -, rfl⟩ | ⟨a, rest, -, -, rfl⟩⟩ := busyStep_next h <;> simp

theorem resetStep_coreId {s t : State} (h : resetStep s = .next t) : t.bus.coreId = s.bus.coreId := by
  obtain ⟨-, rfl⟩ | ⟨a, rest, -, rfl⟩ | ⟨w, o, rest, -, rfl⟩ | ⟨rest, -, rfl⟩ | ⟨rest, -, rfl⟩ :=
    resetStep_next h <;> simp

/-- A step keeps the core's number, in each of its phases. -/
theorem step_coreId {s t : State} (h : step s = .next t) : t.bus.coreId = s.bus.coreId := by
  obtain ⟨rest, -, rfl⟩ | ⟨-, -, hr⟩ | ⟨-, -, -, -, hc⟩ | ⟨k, -, -, -, -, hb⟩ | ⟨-, -, -, hi⟩ :=
    step_next h
  · simp
  · exact resetStep_coreId hr
  · rw [executeCommand_bus hc]
  · exact (busyStep_coreId hb :)
  · exact idleStep_coreId hi

/-! Systems of several cores. -/

/-- Everything a step of a system can do when it answers a next system. -/
theorem stepSystem_next {k : Nat} {cores cores' : List State} (h : stepSystem k cores = .next cores') :
    (cores[k]? = none ∧ cores' = cores) ∨
    (∃ s t, cores[k]? = some s ∧ step s = .next t ∧ cores' = cores.set k t) := by
  unfold stepSystem at h
  split at h
  next hk => exact .inl ⟨hk, (Host.Outcome.next.inj h).symm⟩
  next s hk =>
    split at h
    next t ht => exact .inr ⟨s, t, hk, ht, (Host.Outcome.next.inj h).symm⟩
    next => cases h
    next => cases h

/-- Putting a core with the same number in a core's place keeps the numbering. -/
theorem isSystem_set {cores : List State} {k : Nat} {s t : State} (hk : cores[k]? = some s)
    (hid : t.bus.coreId = s.bus.coreId) (h : isSystem cores) : isSystem (cores.set k t) := by
  obtain ⟨hlen, hnum⟩ := h
  refine ⟨by rw [List.length_set, hlen], fun j u hu => ?_⟩
  rw [List.getElem?_set] at hu
  split at hu
  next hkj =>
    obtain ⟨-, rfl⟩ : k < cores.length ∧ t = u := by simpa using hu
    rw [hid, hnum k s hk, hkj]
  next => exact hnum j u hu

/-- Settles O58: a step of the system is a write of one place of the list, and a step of a core keeps the
core's number. -/
theorem coresShareNoState : Obligations.CoresShareNoState := by
  intro cores cores' k h
  obtain ⟨hk, rfl⟩ | ⟨s, t, hk, hst, rfl⟩ := stepSystem_next h
  · exact ⟨rfl, fun _ _ => rfl, fun s hs => by simp [hk] at hs, id⟩
  · refine ⟨List.length_set, fun j hj => List.getElem?_set_ne hj.symm, fun s' hs' => ?_,
      isSystem_set hk (step_coreId hst)⟩
    obtain rfl : s = s' := Option.some.inj (hk.symm.trans hs')
    obtain ⟨hlt, -⟩ := List.getElem?_eq_some_iff.1 hk
    exact ⟨t, hst, List.getElem?_set_self hlt⟩

end Sys2Proof.Machine

/-! What a command can do to the state, said once for all sixteen: the update it makes when it completes, and what the fault procedure starts from when it fails. -/

namespace Sys2Proof.Machine

/-- The update a command makes when it completes, without the return of BUSY to 0, and the checks it has passed
by then. -/
inductive Completes : Instr → State → State → Prop where
  | nop {s : State} : Completes .nop s s
  | cfg {s : State} {c : BitVec 2} {d : Bool} {S : Style} (code : styleOfCode c = some S) :
      Completes (.cfg c d) s (s.configure S d)
  | pclr {s : State} : Completes .pclr s (s.setPoly 0)
  | pexp {s : State} {e : Byte} (below : e.toNat < width s.style) :
      Completes (.pexp e) s (s.setPoly (s.poly ||| (1#32 <<< e.toNat)))
  | pld {s : State} {v : Word} (fit : fits s.style v = true) : Completes (.pld v) s (s.setPoly v)
  | prev {s : State} : Completes .prev s (s.setPoly s.revPoly)
  | wrreg {s : State} {r : ValueReg} {v : Word} (fit : regFits s.style r v = true) :
      Completes (.wrreg r v) s (s.writeReg r v)
  | xix {s : State} : Completes .xix s (s.setState (s.state ^^^ s.initXor))
  | xfx {s : State} : Completes .xfx s (s.setState (s.state ^^^ s.finalXor))
  | buildf {s : State} :
      Completes .buildf s (s.withdrawInverse.installForward (forwardTable s.style s.poly))
  | buildi {s : State} (valid : s.fwdValid = true) (full : Memory.full s.ft = true)
      (passed : validate s.style s.ft (patchTable s.style s.ft s.refState) s.refState = none) :
      Completes .buildi s (s.installInverse (patchTable s.style s.ft s.refState))
  | schk {s : State} (valid : s.invValid = true) (ftFull : Memory.full s.ft = true)
      (itFull : Memory.full s.it = true) (passed : firstFailure s.style s.ft s.it = none) :
      Completes .schk s s.markPass
  | adv {s : State} {b : Byte} {e : Word} (valid : s.fwdValid = true)
      (entry : Memory.read s.ft (fwdIndex s.style s.state b) = some e) :
      Completes (.adv b) s (s.setState (advanceWith s.style s.state e))
  | ret {s : State} {b : Byte} {e : Word} (valid : s.invValid = true)
      (entry : Memory.read s.it (rindex s.style s.state) = some e) :
      Completes (.ret b) s (s.setState (retreatWith s.style s.state b e))
  | tabrd {s : State} {tb : TableId} {idx : Byte} {e : Word} (valid : s.tableValid tb = true)
      (entry : Memory.read (s.table tb) idx.toNat = some e) :
      Completes (.tabrd tb idx) s (s.setResult e)
  | tabwr {s : State} {tb : TableId} {idx : Byte} {v : Word} (enabled : s.dbg = true)
      (valid : s.tableValid tb = true) (fit : fits s.style v = true) :
      Completes (.tabwr tb idx v) s (s.writeTable tb idx.toNat v).clearPass

/-- The errors that are found before a command has changed anything (60_exceptions.md R117 to R120, R123). -/
def ErrorCode.isEarly : ErrorCode → Bool
  | .illegalOpcode | .illegalOperand | .contract | .notReady | .permission => true
  | .none | .invVerify | .selfCheck => false

/-- The error of a command that fails, and the state its fault procedure starts from (60_exceptions.md R126). -/
inductive Fails : Instr → State → ErrorCode → State → Prop where
  | early {i : Instr} {s : State} {e : ErrorCode} (isEarly : e.isEarly = true) : Fails i s e s
  | inverse {s : State} : Fails .buildi s .invVerify s.withdrawInverse
  | check {s : State} : Fails .schk s .selfCheck s.failCheck

/-- A command that answers a next state has completed or has taken the fault procedure. -/
inductive Effect (i : Instr) (s : State) : State → Prop where
  | completed {u : State} (effect : Completes i s u) : Effect i s u.complete
  | failed {e : ErrorCode} {u : State} (a b c : Word) (failure : Fails i s e u) :
      Effect i s (raise e a b c u)

theorem Effect.raised {i : Instr} {s : State} {e : ErrorCode} (he : e.isEarly = true) (a b c : Word) :
    Effect i s (raise e a b c s) :=
  .failed a b c (.early he)

/-- Every next state that exec answers is an effect of its command. -/
theorem exec_effect {i : Instr} {s t : State} (h : exec i s = .next t) : Effect i s t := by
  cases i with
  | nop => cases h; exact .completed .nop
  | pclr => cases h; exact .completed .pclr
  | prev => cases h; exact .completed .prev
  | xix => cases h; exact .completed .xix
  | xfx => cases h; exact .completed .xfx
  | buildf => cases h; exact .completed .buildf
  | cfg c d =>
    obtain ⟨-, rfl⟩ | ⟨S, hS, rfl⟩ := execCfg_next h
    · exact .raised rfl ..
    · exact .completed (.cfg hS)
  | pexp e =>
    obtain ⟨-, rfl⟩ | ⟨he, rfl⟩ := execPexp_next h
    · exact .raised rfl ..
    · exact .completed (.pexp he)
  | pld v =>
    obtain ⟨-, rfl⟩ | ⟨hv, rfl⟩ := execPld_next h
    · exact .raised rfl ..
    · exact .completed (.pld hv)
  | wrreg r v =>
    obtain ⟨-, rfl⟩ | ⟨hv, rfl⟩ := execWrreg_next h
    · exact .raised rfl ..
    · exact .completed (.wrreg hv)
  | adv b =>
    obtain ⟨-, rfl⟩ | ⟨hv, e, he, rfl⟩ := execAdv_next h
    · exact .raised rfl ..
    · exact .completed (.adv hv he)
  | ret b =>
    obtain ⟨-, rfl⟩ | ⟨hv, e, he, rfl⟩ := execRet_next h
    · exact .raised rfl ..
    · exact .completed (.ret hv he)
  | buildi =>
    obtain ⟨-, rfl⟩ | ⟨hv, hf, ⟨hp, rfl⟩ | ⟨v, b, -, rfl⟩⟩ := execBuildi_next h
    · exact .raised rfl ..
    · exact .completed (.buildi hv hf hp)
    · exact .failed _ _ _ .inverse
  | schk =>
    obtain ⟨-, rfl⟩ | ⟨hv, hf, hi, ⟨hp, rfl⟩ | ⟨x, r, b, -, rfl⟩⟩ := execSchk_next h
    · exact .raised rfl ..
    · exact .completed (.schk hv hf hi hp)
    · exact .failed _ _ _ .check
  | tabrd tb idx =>
    obtain ⟨-, rfl⟩ | ⟨hv, e, he, rfl⟩ := execTabrd_next h
    · exact .raised rfl ..
    · exact .completed (.tabrd hv he)
  | tabwr tb idx v =>
    obtain ⟨-, rfl⟩ | ⟨-, -, rfl⟩ | ⟨-, -, -, rfl⟩ | ⟨hd, hv, hf, rfl⟩ := execTabwr_next h
    · exact .raised rfl ..
    · exact .raised rfl ..
    · exact .raised rfl ..
    · exact .completed (.tabwr hd hv hf)

/-! What every completing command leaves alone, and what every failing one does. -/

/-- A completing command leaves the error record and the host's side (10_state.md R30, R31). -/
theorem Completes.record_host {i : Instr} {s u : State} (h : Completes i s u) :
    sameRecord s u ∧ u.busyLeft = s.busyLeft ∧ u.cmdLo = s.cmdLo ∧ u.cmdHi = s.cmdHi ∧ u.bus = s.bus := by
  cases h <;> simp [sameRecord]

/-- Before the fault procedure runs, a failing command has changed nothing but INV_VALID, SC_PASS and IT. -/
theorem Fails.frame {i : Instr} {s u : State} {e : ErrorCode} (h : Fails i s e u) :
    u = { s with invValid := u.invValid, scPass := u.scPass, it := u.it } := by
  cases h <;> rfl

/-- The fault procedure always records an error. -/
theorem Fails.code_ne_none {i : Instr} {s u : State} {e : ErrorCode} (h : Fails i s e u) : e ≠ .none := by
  cases h with
  | early he => rintro rfl; cases he
  | inverse | check => decide

/-- Settles O56: a command that completes leaves the record, one that fails ends with ERR = 1. -/
theorem frameOfRecordAndHost : Obligations.FrameOfRecordAndHost := by
  intro i s t h
  cases exec_effect h with
  | completed hc =>
    obtain ⟨hrec, hleft, hlo, hhi, hbus⟩ := hc.record_host
    have herr := hrec.1
    exact ⟨fun _ => hrec, fun h => herr.trans h, rfl, hleft, hlo, hhi, hbus⟩
  | failed a b c hf =>
    rw [hf.frame]
    exact ⟨fun h => (nomatch h), fun _ => rfl, rfl, rfl, rfl, rfl, rfl⟩

/-- Settles O53: each update writes one value register, the one its command names. -/
theorem frameOfValueRegisters : Obligations.FrameOfValueRegisters := by
  intro i s t h hcfg
  cases exec_effect h with
  | failed a b c hf =>
    rw [hf.frame]
    simp
  | completed hc =>
    cases hc with
    | cfg => exact absurd rfl (hcfg _ _)
    | @wrreg _ r => cases r <;> simp
    | nop | pclr | pexp | pld | prev | xix | xfx | buildf | buildi | schk | adv | ret | tabrd | tabwr => simp

/-- Settles O54: of the commands that invalidate nothing only the builders and TABWR write a table, and a
BUILDI that fails is the only failure that touches one. -/
theorem frameOfTables : Obligations.FrameOfTables := by
  intro i s t h hinv
  cases exec_effect h with
  | failed a b c hf => cases hf <;> simp
  | completed hc =>
    cases hc with
    | cfg | pclr | pexp | pld | prev => cases hinv
    | buildf | buildi => simp
    | nop | wrreg | xix | xfx | schk | adv | ret | tabrd => simp
    | @tabwr _ tb idx v =>
      cases tb <;> simp +contextual [Memory.read_write_other]

/-- Settles O55: the flags each update writes; an early error keeps all three, and the two late ones clear
INV_VALID and SC_PASS before the fault procedure. -/
theorem flagRules : Obligations.FlagRules := by
  intro i s t _ herr h
  cases exec_effect h with
  | completed hc =>
    refine ⟨fun _ => ?_, fun ht => ?_⟩
    · cases hc <;> simp [invalidates, needsDbg]
    · simp [hc.record_host.1.1, herr] at ht
  | @failed e u a b c hf =>
    refine ⟨fun ht => (nomatch ht), fun _ => ?_⟩
    cases hf with
    | inverse | check => simp
    | early he => cases e <;> simp_all [ErrorCode.isEarly]

end Sys2Proof.Machine

/-! What a step can do to the state, said once: reset, the host's side only, or one command. -/

namespace Sys2Proof.Machine

/-- t differs from s only in what the host side of a step may change: the command latches, BUSY and its time,
and the bus. -/
def SameCore (s t : State) : Prop :=
  ∃ lo hi busy left bus,
    t = { s with cmdLo := lo, cmdHi := hi, busy := busy, busyLeft := left, bus := bus }

/-- A move of the host's side of a step: the core keeps its registers, tables, flags and record. -/
structure HostMove (s t : State) : Prop where
  /-- only the latches, BUSY, its time and the bus change -/
  core : SameCore s t
  /-- a halted core issues no command (60_exceptions.md R125) -/
  halted : s.err = true → t.busy = s.busy
  /-- only a write to CMD_LO or CMD_HI becomes held (20_memory.md R50) -/
  held : ∀ o v, t.bus.held = some (o, v) → s.bus.held = some (o, v) ∨ isCmdOffset o = true
  /-- RESET is not asserted by the move, and under it only the bus changes (70_reset_and_hazards.md R138) -/
  line : t.bus.resetLine = true → s.bus.resetLine = true ∧ t = { s with bus := t.bus }

theorem HostMove.trans {s t u : State} (h : HostMove s t) (g : HostMove t u) : HostMove s u where
  core := by
    obtain ⟨_, _, _, _, _, rfl⟩ := h.core
    obtain ⟨lo, hi, b, n, bus, rfl⟩ := g.core
    exact ⟨lo, hi, b, n, bus, rfl⟩
  halted he := by
    have ht : t.err = true := by obtain ⟨_, _, _, _, _, rfl⟩ := h.core; exact he
    rw [g.halted ht, h.halted he]
  held o v hu := (g.held o v hu).elim (h.held o v) .inr
  line hu := by
    obtain ⟨ht, hut⟩ := g.line hu
    obtain ⟨hs, hts⟩ := h.line ht
    exact ⟨hs, by rw [hut, hts]⟩

/-- A move of the bus alone that neither asserts RESET nor holds a write. -/
theorem HostMove.ofBus (s : State) {bus : HostBus} (held : bus.held = s.bus.held ∨ bus.held = none)
    (line : bus.resetLine = true → s.bus.resetLine = true) : HostMove s { s with bus := bus } where
  core := ⟨_, _, _, _, _, rfl⟩
  halted _ := rfl
  held o v h := by obtain e | e := held <;> simp_all
  line h := ⟨line h, rfl⟩

theorem HostMove.refl (s : State) : HostMove s s := .ofBus s (.inl rfl) id

theorem hostMove_afterAction (s : State) (rest : List HostAction) : HostMove s (s.afterAction rest) :=
  .ofBus s (.inl rfl) id

theorem hostMove_answerRead (s : State) (v : Word) : HostMove s (s.answerRead v) :=
  .ofBus s (.inl rfl) id

theorem hostMove_busyRead (s : State) (o : BitVec 8) : HostMove s (s.busyRead o) := by
  unfold State.busyRead
  split
  · exact hostMove_answerRead s _
  · exact .ofBus s (.inl rfl) id

/-- A CMD write becomes held (20_memory.md R50). -/
theorem hostMove_hold (s : State) {o : BitVec 8} (ho : isCmdOffset o = true) (v : Word)
    (rest : List HostAction) :
    HostMove s { s with bus := { s.bus with pending := rest, held := some (o, v) } } where
  core := ⟨_, _, _, _, _, rfl⟩
  halted _ := rfl
  held o' v' h := by cases h; exact .inr ho
  line h := ⟨h, rfl⟩

/-- One unit of a command's time has passed (70_reset_and_hazards.md R149). -/
theorem hostMove_tick {s : State} (hl : s.bus.resetLine = false) (k : Nat) :
    HostMove s { s with busyLeft := k } where
  core := ⟨_, _, _, _, _, rfl⟩
  halted _ := rfl
  held _ _ h := .inl h
  line h := absurd h (by simp [hl])

theorem hostMove_issue {s : State} (hl : s.bus.resetLine = false) (v : Word) :
    HostMove s (s.issue v) := by
  unfold State.issue
  split
  · exact .refl s
  next he =>
    exact { core := ⟨_, _, _, _, _, rfl⟩
            halted := fun h => absurd h he
            held := fun _ _ h => .inl h
            line := fun h => absurd h (by simp [hl]) }

theorem hostMove_hostWrite {s : State} (hl : s.bus.resetLine = false) (o : BitVec 8) (v : Word) :
    HostMove s (s.hostWrite o v) := by
  unfold State.hostWrite
  split
  · exact { core := ⟨_, _, _, _, _, rfl⟩
            halted := fun _ => rfl
            held := fun _ _ h => .inl h
            line := fun h => absurd h (by simp [hl]) }
  · split
    · exact hostMove_issue hl v
    · exact .refl s

theorem hostMove_releaseHeld {s : State} (hl : s.bus.resetLine = false) (o : BitVec 8) (v : Word) :
    HostMove s (s.releaseHeld o v) :=
  (HostMove.ofBus s (bus := { s.bus with held := none }) (.inr rfl) id).trans
    (hostMove_hostWrite (s := { s with bus := { s.bus with held := none } }) hl o v)

/-! Each phase of a step is a move of the host's side, unless the host asserts RESET. -/

theorem idleStep_effect {s t : State} (hl : s.bus.resetLine = false) (h : idleStep s = .next t) :
    (∃ rest, t = s.enterReset rest) ∨ HostMove s t := by
  obtain ⟨o, v, -, rfl⟩ | ⟨-, ⟨-, rfl⟩ | ⟨w, o, v, rest, -, -, rfl⟩ | ⟨w, o, rest, -, -, rfl⟩ |
    ⟨rest, -, rfl⟩ | ⟨a, rest, -, -, rfl⟩⟩ := idleStep_next h
  · exact .inr (hostMove_releaseHeld hl o v)
  · exact .inr (.refl _)
  · exact .inr ((hostMove_afterAction s rest).trans
      (hostMove_hostWrite (s := s.afterAction rest) hl o v))
  · exact .inr ((hostMove_afterAction s rest).trans (hostMove_answerRead _ _))
  · exact .inl ⟨rest, rfl⟩
  · exact .inr (hostMove_afterAction s rest)

theorem busyStep_effect {s t : State} (h : busyStep s = .next t) :
    (∃ rest, t = s.enterReset rest) ∨ HostMove s t := by
  obtain ⟨p, -, rfl⟩ | ⟨-, ⟨-, rfl⟩ | ⟨w, o, v, rest, -, -, ho, rfl⟩ | ⟨w, o, v, rest, -, -, -, rfl⟩ |
    ⟨w, o, rest, -, -, rfl⟩ | ⟨rest, -, rfl⟩ | ⟨a, rest, -, -, rfl⟩⟩ := busyStep_next h
  · exact .inr (.refl _)
  · exact .inr (.refl _)
  · exact .inr (hostMove_hold s ho v rest)
  · exact .inr (hostMove_afterAction s rest)
  · exact .inr ((hostMove_afterAction s rest).trans (hostMove_busyRead _ o))
  · exact .inl ⟨rest, rfl⟩
  · exact .inr (hostMove_afterAction s rest)

theorem resetStep_effect {s t : State} (h : resetStep s = .next t) :
    (∃ rest, t = s.enterReset rest) ∨ HostMove s t := by
  obtain ⟨-, rfl⟩ | ⟨a, rest, -, rfl⟩ | ⟨w, o, rest, -, rfl⟩ | ⟨rest, -, rfl⟩ | ⟨rest, -, rfl⟩ :=
    resetStep_next h
  · exact .inr (.refl _)
  · exact .inr (hostMove_afterAction s rest)
  · exact .inr ((hostMove_afterAction s rest).trans (hostMove_answerRead _ _))
  · exact .inl ⟨rest, rfl⟩
  · exact .inr (.ofBus s (.inl rfl) fun h => nomatch h)

/-- A step resets the core, or moves the host's side only, or runs the command in flight. -/
theorem step_effect {s t : State} (h : step s = .next t) :
    (∃ rest, t = s.enterReset rest) ∨ HostMove s t ∨
    (s.bus.resetLine = false ∧ executeCommand s = .next t) := by
  obtain ⟨rest, -, rfl⟩ | ⟨-, -, hr⟩ | ⟨-, hl, -, -, hc⟩ | ⟨k, -, hl, -, -, hb⟩ | ⟨-, hl, -, hi⟩ :=
    step_next h
  · exact .inl ⟨rest, rfl⟩
  · exact (resetStep_effect hr).imp_right .inl
  · exact .inr (.inr ⟨hl, hc⟩)
  · exact (busyStep_effect hb).imp_right fun m => .inl ((hostMove_tick hl k).trans m)
  · exact (idleStep_effect hl hi).imp_right .inl

/-- The command cycle drops the command, raises an early error, or runs exec (30_encoding.md R65). -/
theorem executeCommand_effect {s t : State} (h : executeCommand s = .next t) :
    t = s.complete ∨ (∃ e, e.isEarly = true ∧ t = raise e 0 0 0 s) ∨ (∃ i, Effect i s t) := by
  obtain ⟨-, rfl⟩ | ⟨-, -, rfl⟩ | ⟨-, -, rfl⟩ | ⟨-, i, -, hi⟩ := executeCommand_next h
  · exact .inl rfl
  · exact .inr (.inl ⟨_, rfl, rfl⟩)
  · exact .inr (.inl ⟨_, rfl, rfl⟩)
  · exact .inr (.inr ⟨i, exec_effect hi⟩)

end Sys2Proof.Machine

/-! The invariant of the core, update by update. -/

namespace Sys2Proof
open Machine

theorem fits_iff {S : Style} {v : Word} : fits S v = true ↔ v.toNat < 2 ^ width S := by
  simp [fits]

theorem regFits_iff {S : Style} {r : ValueReg} {v : Word} :
    regFits S r v = true ↔ v.toNat < 2 ^ width S ∧ (r = .refState → v ≠ 0) := by
  cases r <;> simp [regFits, fits]

/-- The reset state meets the invariant, whatever its bus, as long as only CMD writes are held. -/
theorem stateInv_reset_bus {bus : HostBus}
    (held : ∀ o v, bus.held = some (o, v) → isCmdOffset o = true) :
    StateInv { State.reset with bus := bus } where
  poly_fits := Nat.two_pow_pos _
  state_fits := Nat.two_pow_pos _
  initXor_fits := Nat.two_pow_pos _
  finalXor_fits := Nat.two_pow_pos _
  refState_fits := (by decide : Config.resetRef.toNat < 2 ^ width .r16)
  refState_ne := (by decide : Config.resetRef ≠ 0)
  result_fits := Nat.two_pow_pos _
  ft_wf := Memory.wf_nil
  it_wf := Memory.wf_nil
  ft_bounded := bounded_nil _
  it_bounded := bounded_nil _
  ft_full := by intro h; cases h
  it_full := by intro h; cases h
  pass_inv := by intro h; cases h
  inv_fwd := by intro h; cases h
  code_iff := ⟨fun _ => rfl, fun _ => rfl⟩
  record_clear _ := ⟨rfl, rfl, rfl, rfl, rfl⟩
  halt_idle := by intro h; cases h
  held_cmd := held
  reset_held _ := rfl

theorem stateInv_enterReset (s : State) (rest : List HostAction) : StateInv (s.enterReset rest) :=
  stateInv_reset_bus (bus := (s.enterReset rest).bus) (by intro o v h; cases h)

theorem StateInv.hostMove {s t : State} (h : StateInv s) (m : HostMove s t) : StateInv t := by
  obtain ⟨⟨lo, hi, b, n, bus, rfl⟩, halted, held, line⟩ := m
  exact { h with
    halt_idle := fun he => (halted he).trans (h.halt_idle he)
    held_cmd := fun o v hv => (held o v hv).elim (h.held_cmd o v) id
    reset_held := fun hl => by
      obtain ⟨hs, ht⟩ := line hl
      rw [ht, h.reset_held hs] }

/-! Under a released RESET line each update of a command keeps the invariant when the values it writes are
legal. -/

section
variable {s : State} (h : StateInv s) (hl : s.bus.resetLine = false)
include h hl

theorem StateInv.complete : StateInv s.complete :=
  { h with halt_idle := fun _ => rfl, reset_held := by simp [hl] }

theorem StateInv.raise {e : ErrorCode} (he : e ≠ .none) (a b c : Word) : StateInv (raise e a b c s) :=
  { h with
    code_iff := by simp [he]
    record_clear := by simp
    halt_idle := fun _ => rfl
    reset_held := by simp [hl] }

theorem StateInv.configure (S : Style) (d : Bool) : StateInv (s.configure S d) :=
  have hw : 2 ^ 16 ≤ 2 ^ width S := by cases S <;> decide
  { h with
    poly_fits := Nat.two_pow_pos _
    state_fits := Nat.two_pow_pos _
    initXor_fits := Nat.two_pow_pos _
    finalXor_fits := Nat.two_pow_pos _
    refState_fits := lt_of_lt_of_le (by decide : Config.resetRef.toNat < 2 ^ 16) hw
    refState_ne := (by decide : Config.resetRef ≠ 0)
    result_fits := Nat.two_pow_pos _
    ft_wf := Memory.wf_nil
    it_wf := Memory.wf_nil
    ft_bounded := bounded_nil _
    it_bounded := bounded_nil _
    ft_full := by simp
    it_full := by simp
    pass_inv := by simp
    inv_fwd := by simp
    reset_held := by simp [hl] }

theorem StateInv.setPoly {v : Word} (hv : v.toNat < 2 ^ width s.style) : StateInv (s.setPoly v) :=
  { h with
    poly_fits := hv
    ft_wf := Memory.wf_nil
    it_wf := Memory.wf_nil
    ft_bounded := bounded_nil _
    it_bounded := bounded_nil _
    ft_full := by simp
    it_full := by simp
    pass_inv := by simp
    inv_fwd := by simp
    reset_held := by simp [hl] }

theorem StateInv.setState {v : Word} (hv : v.toNat < 2 ^ width s.style) : StateInv (s.setState v) :=
  { h with state_fits := hv, reset_held := by simp [hl] }

theorem StateInv.setResult {v : Word} (hv : v.toNat < 2 ^ width s.style) : StateInv (s.setResult v) :=
  { h with result_fits := hv, reset_held := by simp [hl] }

theorem StateInv.writeReg {r : ValueReg} {v : Word} (hv : v.toNat < 2 ^ width s.style)
    (h0 : r = .refState → v ≠ 0) : StateInv (s.writeReg r v) := by
  cases r with
  | state => exact { h with state_fits := hv, reset_held := by simp [hl] }
  | initXor => exact { h with initXor_fits := hv, reset_held := by simp [hl] }
  | finalXor => exact { h with finalXor_fits := hv, reset_held := by simp [hl] }
  | refState =>
    exact { h with refState_fits := hv, refState_ne := h0 rfl, reset_held := by simp [hl] }

theorem StateInv.withdrawInverse : StateInv s.withdrawInverse :=
  { h with
    it_wf := Memory.wf_nil
    it_bounded := bounded_nil _
    it_full := by simp
    pass_inv := by simp
    inv_fwd := by simp
    reset_held := by simp [hl] }

theorem StateInv.installForward {ft : Memory} (hw : Memory.wf ft) (hb : tableBounded s.style ft)
    (hf : Memory.full ft = true) : StateInv (s.installForward ft) :=
  { h with
    ft_wf := hw
    ft_bounded := hb
    ft_full := fun _ => hf
    inv_fwd := fun _ => rfl
    reset_held := by simp [hl] }

theorem StateInv.installInverse {it : Memory} (hv : s.fwdValid = true) (hw : Memory.wf it)
    (hb : tableBounded s.style it) (hf : Memory.full it = true) : StateInv (s.installInverse it) :=
  { h with
    it_wf := hw
    it_bounded := hb
    it_full := fun _ => hf
    pass_inv := by simp
    inv_fwd := fun _ => hv
    reset_held := by simp [hl] }

theorem StateInv.markPass (hv : s.invValid = true) : StateInv s.markPass :=
  { h with pass_inv := fun _ => hv, reset_held := by simp [hl] }

theorem StateInv.clearPass : StateInv s.clearPass :=
  { h with pass_inv := by simp, reset_held := by simp [hl] }

theorem StateInv.failCheck : StateInv s.failCheck :=
  { h with it_full := by simp, pass_inv := by simp, inv_fwd := by simp, reset_held := by simp [hl] }

theorem StateInv.writeTable {t : TableId} {i : Nat} {v : Word} (hi : i < Config.tableDepth)
    (hv : v.toNat < 2 ^ width s.style) : StateInv (s.writeTable t i v) := by
  cases t with
  | ft =>
    exact { h with
      ft_wf := Memory.wf_write h.ft_wf hi v
      ft_bounded := bounded_write h.ft_bounded i hv
      ft_full := fun hf => Memory.full_write (h.ft_full hf) i v
      reset_held := by simp [hl] }
  | it =>
    exact { h with
      it_wf := Memory.wf_write h.it_wf hi v
      it_bounded := bounded_write h.it_bounded i hv
      it_full := fun hf => Memory.full_write (h.it_full hf) i v
      reset_held := by simp [hl] }

end

/-! The commands. -/

/-- A table that phase 2 accepts is the closed form of FT (43_inverse_table.md R101, R104). -/
theorem closedForm_patchTable {S : Style} {ft : Memory} {R : Word} (hR : R.toNat < 2 ^ width S)
    (hf : tableBounded S ft) (h : validate S ft (patchTable S ft R) R = none) :
    closedForm S ft (patchTable S ft R) := by
  intro i hi
  obtain ⟨k, -, -, hread⟩ := read_patchTable hR hf hi
  have hentry := (validate_iff hR hf (bounded_patchTable S ft R)).1 h i hi
  have hsome : Memory.entry (patchTable S ft R) (closedIndex S (Memory.entry ft i)) =
      closedEntry S k (Memory.entry ft k) := by rw [Memory.entry, hread, Option.getD_some]
  rw [hread, ← hsome, hentry]

theorem StateInv.table_bounded {s : State} (h : StateInv s) (tb : TableId) :
    tableBounded s.style (s.table tb) := by
  cases tb
  · exact h.ft_bounded
  · exact h.it_bounded

theorem StateInv.of_completes {i : Instr} {s u : State} (h : StateInv s)
    (hl : s.bus.resetLine = false) (hc : Completes i s u) : StateInv u := by
  cases hc with
  | nop => exact h
  | cfg => exact h.configure hl _ _
  | pclr => exact h.setPoly hl (Nat.two_pow_pos _)
  | pexp below => exact h.setPoly hl (or_fits h.poly_fits (bit_fits below))
  | pld fit => exact h.setPoly hl (fits_iff.1 fit)
  | prev => exact h.setPoly hl (reverse_lt _ _)
  | wrreg fit => exact h.writeReg hl (regFits_iff.1 fit).1 (regFits_iff.1 fit).2
  | xix => exact h.setState hl (xor_fits h.state_fits h.initXor_fits)
  | xfx => exact h.setState hl (xor_fits h.state_fits h.finalXor_fits)
  | buildf =>
    exact (h.withdrawInverse hl).installForward hl (wf_forwardTable _ _) (bounded_forwardTable _ _)
      (full_forwardTable _ _)
  | buildi valid _ passed =>
    exact h.installInverse hl valid (wf_patchTable _ _ _) (bounded_patchTable _ _ _)
      (full_of_closedForm h.ft_bounded (closedForm_patchTable h.refState_fits h.ft_bounded passed))
  | schk valid => exact h.markPass hl valid
  | adv => exact h.setState hl (advanceWith_lt _ _ _)
  | ret => exact h.setState hl (retreatWith_lt _ _ _ _)
  | tabrd _ entry => exact h.setResult hl (h.table_bounded _ _ (Memory.mem_of_read entry))
  | @tabwr _ tb idx v _ _ fit =>
    exact (h.writeTable hl idx.isLt (fits_iff.1 fit)).clearPass (by simpa using hl)

theorem StateInv.of_fails {i : Instr} {s u : State} {e : ErrorCode} (h : StateInv s)
    (hl : s.bus.resetLine = false) (hf : Fails i s e u) : StateInv u := by
  cases hf with
  | early => exact h
  | inverse => exact h.withdrawInverse hl
  | check => exact h.failCheck hl

theorem StateInv.of_effect {i : Instr} {s t : State} (h : StateInv s) (hl : s.bus.resetLine = false)
    (he : Effect i s t) : StateInv t := by
  cases he with
  | completed hc => exact (h.of_completes hl hc).complete (by rw [hc.record_host.2.2.2.2, hl])
  | failed a b c hf =>
    refine (h.of_fails hl hf).raise ?_ hf.code_ne_none a b c
    rw [hf.frame]
    exact hl

/-- Settles O3: reset gives the reset state, the host's moves keep the core, and each command's update writes
legal values only. -/
theorem everyStepKeepsInvariant : Obligations.EveryStepKeepsInvariant := by
  intro s t h hst
  obtain ⟨rest, rfl⟩ | m | ⟨hl, hc⟩ := step_effect hst
  · exact stateInv_enterReset s rest
  · exact h.hostMove m
  · obtain rfl | ⟨e, he, rfl⟩ | ⟨i, he⟩ := executeCommand_effect hc
    · exact h.complete hl
    · exact h.raise hl (by rintro rfl; cases he) 0 0 0
    · exact h.of_effect hl he

/-- Settles O2: the reset state has every flag 0 and legal values, and no write is held. -/
theorem invariantHoldsAtReset : Obligations.InvariantHoldsAtReset :=
  ⟨stateInv_reset_bus (bus := State.reset.bus) (by intro o v h; cases h),
    fun _ => ⟨fun h => (nomatch h), fun h => nomatch h⟩, fun h => nomatch h⟩

/-! The certificates of the tables. -/

theorem Certified.complete {s : State} (h : Certified s) : Certified s.complete := h

theorem Certified.raise {s : State} (h : Certified s) (e : ErrorCode) (a b c : Word) : Certified (raise e a b c s) := h

theorem Certified.of_completes {i : Instr} {s u : State} (hs : StateInv s) (h : Certified s)
    (hc : Completes i s u) : Certified u := by
  cases hc with
  | nop | xix | xfx | schk | adv | ret | tabrd => exact h
  | wrreg => simpa [Certified] using h
  | cfg | pclr | pexp | pld | prev => simp [Certified]
  | buildf =>
    exact fun _ => ⟨fun _ => rfl, fun hv => nomatch hv⟩
  | buildi _ _ passed =>
    have hclosed := closedForm_patchTable hs.refState_fits hs.ft_bounded passed
    refine fun hd => ⟨(h hd).1, fun _ => ?_⟩
    rwa [State.installInverse_style, State.installInverse_ft, State.installInverse_it]
  | tabwr enabled => simp [Certified, enabled]

theorem Certified.of_fails {i : Instr} {s u : State} {e : ErrorCode} (h : Certified s)
    (hf : Fails i s e u) : Certified u := by
  cases hf with
  | early => exact h
  | inverse | check => exact fun hd => ⟨(h hd).1, fun hv => nomatch hv⟩

theorem Certified.of_effect {i : Instr} {s t : State} (hs : StateInv s) (h : Certified s)
    (he : Effect i s t) : Certified t := by
  cases he with
  | completed hc => exact (h.of_completes hs hc).complete
  | failed a b c hf => exact (h.of_fails hf).raise _ a b c

/-- Settles O4: BUILDF and BUILDI make what is certified, what changes STYLE, POLY or a table otherwise clears
the flag, and TABWR needs DBG = 1. -/
theorem everyStepKeepsTablesCertified : Obligations.EveryStepKeepsTablesCertified := by
  intro s t hs h hst
  obtain ⟨rest, rfl⟩ | ⟨⟨_, _, _, _, _, rfl⟩, -, -, -⟩ | ⟨-, hc⟩ := step_effect hst
  · exact fun _ => ⟨fun hv => (nomatch hv), fun hv => nomatch hv⟩
  · exact h
  · obtain rfl | ⟨e, -, rfl⟩ | ⟨i, he⟩ := executeCommand_effect hc
    · exact h.complete
    · exact h.raise e 0 0 0
    · exact h.of_effect hs he

theorem Verified.complete {s : State} (h : Verified s) : Verified s.complete := h

theorem Verified.raise {s : State} (h : Verified s) (e : ErrorCode) (a b c : Word) : Verified (raise e a b c s) := h

theorem Verified.of_completes {i : Instr} {s u : State} (h : Verified s) (hc : Completes i s u) :
    Verified u := by
  cases hc with
  | nop | xix | xfx | adv | ret | tabrd => exact h
  | wrreg => simpa [Verified] using h
  | cfg | pclr | pexp | pld | prev | buildf | buildi | tabwr => simp [Verified]
  | schk _ _ _ passed => exact fun _ => firstFailure_eq_none.1 passed

theorem Verified.of_fails {i : Instr} {s u : State} {e : ErrorCode} (h : Verified s)
    (hf : Fails i s e u) : Verified u := by
  cases hf with
  | early => exact h
  | inverse | check => exact fun hp => nomatch hp

theorem Verified.of_effect {i : Instr} {s t : State} (h : Verified s) (he : Effect i s t) :
    Verified t := by
  cases he with
  | completed hc => exact (h.of_completes hc).complete
  | failed a b c hf => exact (h.of_fails hf).raise _ a b c

/-- Settles O5: a SCHK that passes is the certificate, and whatever changes STYLE or a table afterwards clears
SC_PASS. -/
theorem everyStepKeepsPassVerified : Obligations.EveryStepKeepsPassVerified := by
  intro s t _ h hst
  obtain ⟨rest, rfl⟩ | ⟨⟨_, _, _, _, _, rfl⟩, -, -, -⟩ | ⟨-, hc⟩ := step_effect hst
  · exact fun hp => nomatch hp
  · exact h
  · obtain rfl | ⟨e, -, rfl⟩ | ⟨i, he⟩ := executeCommand_effect hc
    · exact h.complete
    · exact h.raise e 0 0 0
    · exact h.of_effect he

end Sys2Proof

/-! Progress: under the invariant every entry a command reads holds a value, so only the host can stop a step. -/

namespace Sys2Proof
open Machine

/-- A table whose valid flag is 1 holds a value everywhere (10_state.md R38). -/
theorem StateInv.table_full {s : State} (h : StateInv s) {tb : TableId} (hv : s.tableValid tb = true) :
    Memory.full (s.table tb) = true := by
  cases tb
  · exact h.ft_full hv
  · exact h.it_full hv

/-- No command reads an entry without a value: the tables are full where the flags are 1 (10_state.md R38). -/
theorem StateInv.exec_next {s : State} (h : StateInv s) (i : Instr) : ∃ t, exec i s = .next t := by
  cases i with
  | nop | pclr | prev | xix | xfx | buildf => exact ⟨_, rfl⟩
  | cfg c d => simp only [exec, execCfg]; split <;> exact ⟨_, rfl⟩
  | pexp e => simp only [exec, execPexp]; split <;> exact ⟨_, rfl⟩
  | pld v => simp only [exec, execPld]; split <;> exact ⟨_, rfl⟩
  | wrreg r v => simp only [exec, execWrreg]; split <;> exact ⟨_, rfl⟩
  | adv b =>
    simp only [exec, execAdv]
    split
    next hv =>
      rw [Memory.read_eq_entry (h.ft_full hv) (fwdIndex_lt _ _ _)]
      exact ⟨_, rfl⟩
    next => exact ⟨_, rfl⟩
  | ret b =>
    simp only [exec, execRet]
    split
    next hv =>
      rw [Memory.read_eq_entry (h.it_full hv) (rindex_lt _ _)]
      exact ⟨_, rfl⟩
    next => exact ⟨_, rfl⟩
  | buildi =>
    simp only [exec, execBuildi]
    split
    next hv =>
      rw [if_pos (h.ft_full hv)]
      split <;> exact ⟨_, rfl⟩
    next => exact ⟨_, rfl⟩
  | schk =>
    simp only [exec, execSchk]
    split
    next hv =>
      rw [h.ft_full (h.inv_fwd hv), h.it_full hv, Bool.and_self, if_pos rfl]
      split <;> exact ⟨_, rfl⟩
    next => exact ⟨_, rfl⟩
  | tabrd tb idx =>
    simp only [exec, execTabrd]
    split
    next hv =>
      rw [Memory.read_eq_entry (h.table_full hv) idx.isLt]
      exact ⟨_, rfl⟩
    next => exact ⟨_, rfl⟩
  | tabwr tb idx v => simp only [exec, execTabwr]; (repeat' split) <;> exact ⟨_, rfl⟩

theorem StateInv.executeCommand_next {s : State} (h : StateInv s) :
    ∃ t, executeCommand s = .next t := by
  unfold executeCommand
  split
  · exact ⟨_, rfl⟩
  · split
    · exact ⟨_, rfl⟩
    · exact ⟨_, rfl⟩
    · exact h.exec_next _

/-- The outcome r of a step from s is a next state, or a refusal where the host's next action is an access to
which 20_memory.md R42 gives no meaning. -/
def GoesOn (s : State) (r : Result) : Prop :=
  (∃ t, r = .next t) ∨ (¬ Admitted s ∧ ∃ q, r = .refused q)

theorem GoesOn.next (s t : State) : GoesOn s (.next t) := .inl ⟨t, rfl⟩

theorem GoesOn.refused {s : State} {a : HostAction} {rest : List HostAction}
    (hp : s.bus.pending = a :: rest) (ha : ¬ admittedAction a) (q : Refusal) :
    GoesOn s (.refused q) :=
  .inr ⟨by simpa [Admitted, hp] using ha, q, rfl⟩

theorem not_admitted_write {w : AccessWidth} {o : BitVec 8} {q : Refusal}
    (h : accessRefusal w o = some q) (v : Word) : ¬ admittedAction (.write w o v) := by
  simp [admittedAction, h]

theorem not_admitted_read {w : AccessWidth} {o : BitVec 8} {q : Refusal}
    (h : accessRefusal w o = some q) : ¬ admittedAction (.read w o) := by
  simp [admittedAction, h]

theorem idleStep_goesOn (s : State) : GoesOn s (idleStep s) := by
  unfold idleStep
  split
  · exact .next _ _
  · split
    · exact .next _ _
    next hp =>
      split
      next hq => exact .refused hp (not_admitted_write hq _) _
      next => exact .next _ _
    next hp =>
      split
      next hq => exact .refused hp (not_admitted_read hq) _
      next => exact .next _ _
    · exact .next _ _
    · exact .next _ _
    · exact .next _ _

theorem busyStep_goesOn (s : State) : GoesOn s (busyStep s) := by
  unfold busyStep
  split
  · exact .next _ _
  · split
    · exact .next _ _
    next hp =>
      split
      next hq => exact .refused hp (not_admitted_write hq _) _
      next => split <;> exact .next _ _
    next hp =>
      split
      next hq => exact .refused hp (not_admitted_read hq) _
      next => exact .next _ _
    · exact .next _ _
    · exact .next _ _
    · exact .next _ _

theorem resetStep_goesOn (s : State) : GoesOn s (resetStep s) := by
  unfold resetStep
  split
  · exact .next _ _
  next hp =>
    split
    next hq => exact .refused hp (not_admitted_write hq _) _
    next => exact .next _ _
  next hp =>
    split
    next hq => exact .refused hp (not_admitted_read hq) _
    next => exact .next _ _
  · exact .next _ _
  · exact .next _ _
  · exact .next _ _

theorem StateInv.step_goesOn {s : State} (h : StateInv s) : GoesOn s (step s) := by
  unfold step clockStep
  split
  · exact .next _ _
  · split
    · exact resetStep_goesOn s
    · split
      · split
        · exact .inl h.executeCommand_next
        · exact busyStep_goesOn { s with busyLeft := s.busyLeft - 1 }
      · exact idleStep_goesOn s

/-- Settles O6: under the invariant a step that answers no next state is a refusal of the host's access. -/
theorem noStepFaultsUnderInvariant : Obligations.NoStepFaultsUnderInvariant := by
  intro s h
  obtain ⟨t, ht⟩ | ⟨hna, q, hq⟩ := h.step_goesOn
  · exact ⟨by simp [ht], fun _ => ⟨t, ht⟩⟩
  · exact ⟨by simp [hq], fun ha => absurd ha hna⟩

end Sys2Proof

/-! The register window and the composed words STATUS and CFG, field by field. -/

namespace Sys2Proof.Machine

/-- A reserved offset reads 0 (20_memory.md R41). -/
theorem State.hostRead_reserved (s : State) {o : BitVec 8} (h : 0x40 ≤ o.toNat) : s.hostRead o = 0 := by
  unfold State.hostRead
  split
  case h_16 => rfl
  all_goals omega

theorem State.hostWrite_cmdLo (s : State) (v : Word) : s.hostWrite 0x38 v = { s with cmdLo := v } := rfl

theorem State.hostWrite_cmdHi (s : State) (v : Word) : s.hostWrite 0x3C v = s.issue v := rfl

theorem State.hostWrite_other (s : State) {o : BitVec 8} (v : Word) (h1 : o ≠ 0x38) (h2 : o ≠ 0x3C) :
    s.hostWrite o v = s := by
  rw [State.hostWrite, if_neg h1, if_neg h2]

/-- STATUS and the registers from 0x40 on show the same to a split access while BUSY = 1 as between commands. -/
theorem definedWhileBusy_register {k : Nat} (hk : k < 64) (h : k = 0 ∨ 16 ≤ k) :
    definedWhileBusy (BitVec.ofNat 8 (4 * k)) = true := by
  obtain rfl | h := h
  · rfl
  · simp only [definedWhileBusy, isReservedOffset, BitVec.toNat_ofNat, Bool.or_eq_true, decide_eq_true_eq]
    right; omega

/-- Settles O17: the window by its definition, its byte lanes by the one word seen at each offset. -/
theorem registerMapAndByteLanes : Obligations.RegisterMapAndByteLanes := by
  intro s
  refine ⟨rfl, rfl, rfl, rfl, rfl, rfl, rfl, rfl, rfl, rfl, rfl, rfl, rfl, rfl, rfl, rfl,
    fun o => s.hostRead_reserved, s.hostWrite_cmdLo, s.hostWrite_cmdHi,
    fun o v => s.hostWrite_other v, fun k hk => ⟨s.splitWord (BitVec.ofNat 8 (4 * k)), ?_,
      fun j hj => s.byteAt_lane hk hj⟩⟩
  rintro (hidle | hdef)
  · exact s.splitWord_idle hidle _
  · exact State.splitWord_defined (definedWhileBusy_register hk hdef) s

/-- STATUS, field by field (10_state.md R25). -/
theorem State.statusWord_fields (s : State) :
    s.statusWord.getLsbD 0 = s.busy ∧ s.statusWord.getLsbD 1 = s.fwdValid ∧
    s.statusWord.getLsbD 2 = s.invValid ∧ s.statusWord.getLsbD 3 = s.scPass ∧
    s.statusWord.getLsbD 4 = s.err ∧ s.statusWord.extractLsb' 5 3 = 0 ∧
    s.statusWord.extractLsb' 8 4 = errorBits s.errCode ∧ s.statusWord.extractLsb' 12 20 = 0 := by
  refine ⟨?_, ?_, ?_, ?_, ?_, ?_, ?_, ?_⟩
  iterate 5 (· simp only [State.statusWord, BitVec.getLsbD_append]; simp)
  all_goals
    refine BitVec.eq_of_getLsbD_eq fun i hi => ?_
    simp only [State.statusWord, BitVec.getLsbD_extractLsb', BitVec.getLsbD_append]
    interval_cases i <;> simp

/-- CFG, field by field (10_state.md R18). -/
theorem State.cfgWord_fields (s : State) :
    s.cfgWord.extractLsb' 0 2 = styleCode s.style ∧ s.cfgWord.extractLsb' 2 2 = 0 ∧
    s.cfgWord.getLsbD 4 = s.dbg ∧ s.cfgWord.extractLsb' 5 3 = 0 ∧
    s.cfgWord.extractLsb' 8 6 = BitVec.ofNat 6 (width s.style) ∧ s.cfgWord.extractLsb' 14 18 = 0 := by
  refine ⟨?_, ?_, ?_, ?_, ?_, ?_⟩
  case refine_3 => simp only [State.cfgWord, BitVec.getLsbD_append]; simp
  all_goals
    refine BitVec.eq_of_getLsbD_eq fun i hi => ?_
    simp only [State.cfgWord, BitVec.getLsbD_extractLsb', BitVec.getLsbD_append]
    interval_cases i <;> simp

/-- The 6-bit field WIDTH holds W (10_state.md R18). -/
theorem toNat_widthField (S : Style) : (BitVec.ofNat 6 (width S)).toNat = width S := by
  cases S <;> rfl

theorem styleCode_ne_three (S : Style) : styleCode S ≠ 3 := by
  cases S <;> decide

/-- Settles O18: the two words field by field, then the numbers of the error codes and of the styles. -/
theorem statusAndCfgFields : Obligations.StatusAndCfgFields := by
  intro s
  have hstatus := s.statusWord_fields
  obtain ⟨hstyle, h32, hdbg, h75, hwidth, h31⟩ := s.cfgWord_fields
  have hcode : s.statusWord.extractLsb' 8 4 = errorBits s.errCode := hstatus.2.2.2.2.2.2.1
  have hW : (s.cfgWord.extractLsb' 8 6).toNat = width s.style := by rw [hwidth, toNat_widthField]
  refine ⟨hstatus, ⟨hstyle, h32, hdbg, h75, hW, h31, styleCode_ne_three _⟩, ?_, ?_, ?_, rfl⟩
  · rw [hcode]; cases s.errCode <;> rfl
  · rw [hstyle]; cases s.style <;> rfl
  · rw [hW]; cases s.style <;> rfl

end Sys2Proof.Machine

/-! The phases of a step as equations, and what each phase does with the host's next access. -/

namespace Sys2Proof.Machine

theorem resetNext_eq_none_iff {s : State} :
    s.resetNext = none ↔ s.bus.pending.head? ≠ some .assertReset := by
  unfold State.resetNext
  split
  next hp => simp [hp]
  next hne =>
    refine ⟨fun _ hh => ?_, fun _ => rfl⟩
    obtain ⟨rest, hr⟩ := List.head?_eq_some_iff.1 hh
    exact hne rest hr

theorem resetNext_of_cons {s : State} {a : HostAction} {rest : List HostAction}
    (hp : s.bus.pending = a :: rest) (ha : a ≠ .assertReset) : s.resetNext = none :=
  resetNext_eq_none_iff.2 (by simpa [hp] using ha)

section
variable {s : State} (hn : s.resetNext = none)
include hn

theorem step_inReset (hl : s.bus.resetLine = true) : step s = resetStep s := by
  simp [step, clockStep, hn, hl]

theorem step_due (hl : s.bus.resetLine = false) (hb : s.busy = true) (h0 : s.busyLeft = 0) :
    step s = executeCommand s := by
  simp [step, clockStep, hn, hl, hb, h0]

theorem step_busy {k : Nat} (hl : s.bus.resetLine = false) (hb : s.busy = true)
    (hk : s.busyLeft = k + 1) : step s = busyStep { s with busyLeft := k } := by
  simp [step, clockStep, hn, hl, hb, hk]

theorem step_idle (hl : s.bus.resetLine = false) (hb : s.busy = false) : step s = idleStep s := by
  simp [step, clockStep, hn, hl, hb]

end

/-! Accesses the core gives no meaning (20_memory.md R42). -/

/-- An access of 32 bits at a multiple of 4 has a meaning. -/
theorem accessRefusal_aligned {o : BitVec 8} (ho : o.toNat % 4 = 0) : accessRefusal .w32 o = none := by
  simp [accessRefusal, ho]

/-- Every other access has a reason to be refused. -/
theorem accessRefusal_other {w : AccessWidth} {o : BitVec 8} (h : w ≠ .w32 ∨ o.toNat % 4 ≠ 0) :
    ∃ r, accessRefusal w o = some r ∧ (r = .hostAccessWidth ∨ r = .hostAccessAlignment) := by
  by_cases hw : w = .w32
  · exact ⟨_, by simp [accessRefusal, hw, h.resolve_left (not_not_intro hw)], .inr rfl⟩
  · exact ⟨_, by simp [accessRefusal, hw], .inl rfl⟩

section
variable {s : State} {w : AccessWidth} {o : BitVec 8} {v : Word} {rest : List HostAction} {r : Refusal}
  (hp : s.bus.pending = .write w o v :: rest ∨ s.bus.pending = .read w o :: rest)
  (hr : accessRefusal w o = some r)
include hp hr

theorem idleStep_refuses (hh : s.bus.held = none) : idleStep s = .refused r := by
  obtain hp | hp := hp <;> simp [idleStep, hh, hp, hr]

theorem busyStep_refuses (hh : s.bus.held = none) : busyStep s = .refused r := by
  obtain hp | hp := hp <;> simp [busyStep, hh, hp, hr]

theorem resetStep_refuses : resetStep s = .refused r := by
  obtain hp | hp := hp <;> simp [resetStep, hp, hr]

end

/-- Settles O19: each phase that meets the access answers the refusal of that access. -/
theorem otherAccessesRefused : Obligations.OtherAccessesRefused := by
  intro s w o v rest hh hdue hbad hp
  obtain ⟨r, hr, hreason⟩ := accessRefusal_other hbad
  refine ⟨r, ?_, hreason⟩
  have hn : s.resetNext = none := hp.elim (resetNext_of_cons · nofun) (resetNext_of_cons · nofun)
  cases hl : s.bus.resetLine with
  | true => rw [step_inReset hn hl, resetStep_refuses hp hr]
  | false =>
    cases hb : s.busy with
    | false => rw [step_idle hn hl hb, idleStep_refuses hp hr hh]
    | true =>
      obtain ⟨k, hk⟩ := Nat.exists_eq_succ_of_ne_zero fun h0 => hdue ⟨hl, hb, h0⟩
      rw [step_busy hn hl hb hk]
      exact busyStep_refuses (s := { s with busyLeft := k }) hp hr hh

/-! Admitted accesses between commands (20_memory.md R44, R45). -/

section
variable {s : State} (hl : s.bus.resetLine = false) (hb : s.busy = false) (hh : s.bus.held = none)
  {o : BitVec 8} (ho : o.toNat % 4 = 0) {rest : List HostAction}
include hl hb hh ho

theorem step_idle_read (hp : s.bus.pending = .read .w32 o :: rest) :
    step s = .next ((s.afterAction rest).answerRead (s.hostRead o)) := by
  rw [step_idle (resetNext_of_cons hp nofun) hl hb]
  simp [idleStep, hh, hp, accessRefusal_aligned ho]

theorem step_idle_write {v : Word} (hp : s.bus.pending = .write .w32 o v :: rest) :
    step s = .next ((s.afterAction rest).hostWrite o v) := by
  rw [step_idle (resetNext_of_cons hp nofun) hl hb]
  simp [idleStep, hh, hp, accessRefusal_aligned ho]

end

/-- Settles O20: the read only answers, and a write elsewhere than CMD_LO and CMD_HI is the identity. -/
theorem hostAccessesHaveNoSideEffect : Obligations.HostAccessesHaveNoSideEffect := by
  intro s o rest hl hb hh ho
  refine ⟨step_idle_read hl hb hh ho, fun v hlo hhi hp => ?_, ?_⟩
  · rw [step_idle_write hl hb hh ho hp, State.hostWrite_other _ v hlo hhi]
  · rintro (rfl | hres)
    · rfl
    · exact s.hostRead_reserved hres

theorem State.issue_of_running {s : State} (he : s.err = false) (h : Word) :
    s.issue h = { s with
      cmdHi := h
      busy := true
      busyLeft := Config.busyTime s.bus.coreId s.bus.draws
      bus := { s.bus with draws := s.bus.draws + 1 } } := by
  simp [State.issue, he]

theorem State.issue_of_halted {s : State} (he : s.err = true) (h : Word) : s.issue h = s := by
  simp [State.issue, he]

/-- Settles O21: the write is an issue, which latches h above CMD_LO or, on a halted core, does nothing. -/
theorem commandIssue : Obligations.CommandIssue := by
  intro s h rest hl hb hh hp
  have hstep : step s = .next ((s.afterAction rest).issue h) :=
    step_idle_write hl hb hh (by decide) hp
  refine ⟨fun he => ?_, fun he => ?_⟩
  · rw [State.issue_of_running (s := s.afterAction rest) he h] at hstep
    exact ⟨_, hstep, rfl, BitVec.toNat_append h s.cmdLo, rfl⟩
  · rw [hstep, State.issue_of_halted (s := s.afterAction rest) he h]

/-! The held write (20_memory.md R50). -/

theorem busyStep_hold {s : State} {o : BitVec 8} {v : Word} {rest : List HostAction}
    (hh : s.bus.held = none) (ho : o = 0x38 ∨ o = 0x3C) (hp : s.bus.pending = .write .w32 o v :: rest) :
    busyStep s = .next { s with bus := { s.bus with pending := rest, held := some (o, v) } } := by
  obtain rfl | rfl := ho <;> simp [busyStep, hh, hp, accessRefusal, isCmdOffset]

theorem busyStep_held {s : State} {p : BitVec 8 × Word} (hh : s.bus.held = some p) :
    busyStep s = .next s := by
  simp [busyStep, hh]

theorem idleStep_held {s : State} {o : BitVec 8} {v : Word} (hh : s.bus.held = some (o, v)) :
    idleStep s = .next (s.releaseHeld o v) := by
  simp [idleStep, hh]

/-- Settles O22: the write becomes held, the host waits while it is held, and the idle core performs it. -/
theorem cmdWriteHeldWhileBusy : Obligations.CmdWriteHeldWhileBusy := by
  refine ⟨fun s o v k rest hl hb hk hh ho hp => ?_, fun s p k hn hl hb hk hh => ?_,
    fun s o v hn hl hb hh => ?_⟩
  · rw [step_busy (resetNext_of_cons hp nofun) hl hb hk]
    exact busyStep_hold (s := { s with busyLeft := k }) hh ho hp
  · rw [step_busy hn hl hb hk]
    exact busyStep_held (s := { s with busyLeft := k }) hh
  · rw [step_idle hn hl hb]
    exact idleStep_held hh

end Sys2Proof.Machine

/-! A command in flight: it runs when its time is over, and its time passes whatever the host does but reset. -/

namespace Sys2Proof.Machine

theorem executeCommand_legal {s : State} {i : Instr} (he : s.err = false)
    (hd : decode s.cmdWord = .legal i) : executeCommand s = exec i s := by
  simp [executeCommand, he, hd]

/-- A word that the decoder reads as i decodes to i once it is placed. -/
theorem decode_withFetchWord (s : State) {nbits w : Nat} {i : Instr}
    (h : decodeTableWord nbits w = some i) :
    decode (s.withFetchWord nbits w).cmdWord = .legal i := by
  rw [cmdWord_withFetchWord]
  unfold decodeTableWord at h
  split at h
  · cases h
  · cases hd : decode (BitVec.ofNat 64 (w % 2 ^ nbits)) <;> simp_all [Decoded.instr?]

/-- Placing a command drops the reset actions ahead of it. -/
theorem resetNext_withFetchWord (s : State) (nbits w : Nat) :
    (s.withFetchWord nbits w).resetNext = none := by
  refine resetNext_eq_none_iff.2 fun hh => ?_
  have hdrop := List.head?_dropWhile_not (· == HostAction.assertReset) s.bus.pending
  rw [show (s.bus.pending.dropWhile (· == .assertReset)).head? = some .assertReset from hh] at hdrop
  simp at hdrop

/-- Settles O12: a due step is the command cycle, which is exec on the decoded command. -/
theorem stepRunsDecodedCommand : Obligations.StepRunsDecodedCommand := by
  refine ⟨fun s i hn hl hb h0 he hd => ?_, fun s nbits w i he hd => ?_⟩
  · rw [step_due hn hl hb h0, executeCommand_legal he hd]
  · rw [step_due (resetNext_withFetchWord s nbits w) rfl rfl rfl,
      executeCommand_legal (s := s.withFetchWord nbits w) he (decode_withFetchWord s hd)]

/-- Whatever a command does, it ends with BUSY = 0 (20_memory.md R45). -/
theorem executeCommand_busy {s t : State} (h : executeCommand s = .next t) : t.busy = false := by
  obtain rfl | ⟨e, -, rfl⟩ | ⟨i, he⟩ := executeCommand_effect h
  · rfl
  · rfl
  · cases he <;> rfl

/-! Runs of the core. -/

theorem run_succ_of_step {s t : State} (h : step s = .next t) (k : Nat) :
    Sys2Proof.core.run (k + 1) s = Sys2Proof.core.run k t := by
  simp only [Host.Core.run, show Sys2Proof.core.step s = .next t from h]

theorem run_succ_next {k : Nat} {s t : State} (h : Sys2Proof.core.run (k + 1) s = .next t) :
    ∃ u, step s = .next u ∧ Sys2Proof.core.run k u = .next t := by
  simp only [Host.Core.run] at h
  split at h
  next u hu => exact ⟨u, hu, h⟩
  next => cases h
  next => cases h

/-- The last of k + 1 steps is a step from the state that k steps reach. -/
theorem run_succ_of_run {k : Nat} {s t : State} (h : Sys2Proof.core.run k s = .next t) :
    Sys2Proof.core.run (k + 1) s = step t := by
  induction k generalizing s with
  | zero =>
    cases h
    simp only [Host.Core.run]
    split <;> (next hs => exact hs.symm)
  | succ k ih =>
    obtain ⟨u, hu, hrun⟩ := run_succ_next h
    rw [run_succ_of_step hu, ih hrun]

/-- What every step keeps, every run keeps. -/
theorem run_keeps {P : State → Prop} (hstep : ∀ s t, P s → step s = .next t → P t) {k : Nat}
    {s t : State} (hs : P s) (h : Sys2Proof.core.run k s = .next t) : P t := by
  induction k generalizing s with
  | zero => cases h; exact hs
  | succ k ih =>
    obtain ⟨u, hu, hrun⟩ := run_succ_next h
    exact ih (hstep s u hs hu) hrun

/-! One step of a command's time. -/

/-- t is s after the host's turn during a command: the bus alone has changed, no action was added to the
host's list, and the RESET line is as it was. -/
structure HostTurn (s t : State) : Prop where
  core : t = { s with bus := t.bus }
  actions : t.bus.pending ⊆ s.bus.pending
  line : t.bus.resetLine = s.bus.resetLine

theorem hostTurn_afterAction {s : State} {a : HostAction} {rest : List HostAction}
    (hp : s.bus.pending = a :: rest) : HostTurn s (s.afterAction rest) :=
  ⟨rfl, by simp [hp], rfl⟩

theorem hostTurn_busyRead (s : State) (o : BitVec 8) : HostTurn s (s.busyRead o) := by
  unfold State.busyRead
  split <;> exact ⟨rfl, List.Subset.refl _, rfl⟩

theorem HostTurn.trans {s t u : State} (h : HostTurn s t) (g : HostTurn t u) : HostTurn s u where
  core := by rw [g.core, h.core]
  actions := List.Subset.trans g.actions h.actions
  line := g.line.trans h.line

/-- During a command the host's turn is a reset or touches the bus alone. -/
theorem busyStep_hostTurn {s t : State} (h : busyStep s = .next t) :
    .assertReset ∈ s.bus.pending ∨ HostTurn s t := by
  obtain ⟨p, -, rfl⟩ | ⟨-, ⟨-, rfl⟩ | ⟨w, o, v, rest, hp, -, -, rfl⟩ | ⟨w, o, v, rest, hp, -, -, rfl⟩ |
    ⟨w, o, rest, hp, -, rfl⟩ | ⟨rest, hp, rfl⟩ | ⟨a, rest, hp, -, rfl⟩⟩ := busyStep_next h
  · exact .inr ⟨rfl, List.Subset.refl _, rfl⟩
  · exact .inr ⟨rfl, List.Subset.refl _, rfl⟩
  · exact .inr ⟨rfl, by simp [hp], rfl⟩
  · exact .inr (hostTurn_afterAction hp)
  · exact .inr ((hostTurn_afterAction hp).trans (hostTurn_busyRead _ o))
  · exact .inl (by simp [hp])
  · exact .inr (hostTurn_afterAction hp)

/-- With no action left the host does nothing during a command. -/
theorem busyStep_quiet {s : State} (hp : s.bus.pending = []) : busyStep s = .next s := by
  unfold busyStep
  split
  · rfl
  · rw [hp]

/-- A command is in flight, RESET is not asserted, and every action the host has left is admitted and no
reset. -/
structure Undisturbed (s : State) : Prop where
  actions : ∀ a ∈ s.bus.pending, admittedAction a ∧ a ≠ .assertReset
  line : s.bus.resetLine = false
  busy : s.busy = true

theorem Undisturbed.resetNext {s : State} (h : Undisturbed s) : s.resetNext = none :=
  resetNext_eq_none_iff.2 fun hh => (h.actions _ (List.mem_of_mem_head? hh)).2 rfl

theorem Undisturbed.admitted {s : State} (h : Undisturbed s) : Admitted s := by
  unfold Admitted
  split
  next a rest hp => exact (h.actions a (by simp [hp])).1
  next => trivial

theorem Undisturbed.hostTurn {s t : State} (h : Undisturbed s) (ht : HostTurn s t) : Undisturbed t where
  actions a ha := h.actions a (ht.actions ha)
  line := ht.line.trans h.line
  busy := by rw [ht.core]; exact h.busy

/-- An undisturbed command loses one unit of its time in a step, and the core keeps the rest. -/
theorem Undisturbed.step {s : State} {k : Nat} (h : Undisturbed s) (hk : s.busyLeft = k + 1) :
    ∃ t, step s = .next t ∧ t = { s with busyLeft := k, bus := t.bus } ∧ Undisturbed t ∧
      (s.bus.pending = [] → t.bus = s.bus) := by
  rw [step_busy h.resetNext h.line h.busy hk]
  have hu : Undisturbed { s with busyLeft := k } := ⟨h.actions, h.line, h.busy⟩
  obtain ⟨t, ht⟩ | ⟨hna, -⟩ := busyStep_goesOn { s with busyLeft := k }
  · obtain hreset | hturn := busyStep_hostTurn ht
    · exact absurd rfl (hu.actions _ hreset).2
    · refine ⟨t, ht, hturn.core, hu.hostTurn hturn, fun hp => ?_⟩
      cases (busyStep_quiet (s := { s with busyLeft := k }) hp).symm.trans ht
      rfl
  · exact absurd hu.admitted hna

/-- After as many steps as its time an undisturbed command is due, and the core has kept the rest. -/
theorem Undisturbed.run {k : Nat} : ∀ {s : State}, Undisturbed s → s.busyLeft = k →
    ∃ t : State, Sys2Proof.core.run k s = .next t ∧ t = { s with busyLeft := 0, bus := t.bus } ∧
      Undisturbed t ∧ (s.bus.pending = [] → t.bus = s.bus) := by
  induction k with
  | zero => exact fun {s} h hk => ⟨s, rfl, by rw [← hk], h, fun _ => rfl⟩
  | succ k ih =>
    intro s h hk
    obtain ⟨t, hst, hts, ht, hquiet⟩ := h.step hk
    obtain ⟨u, hru, hut, hu, hquiet'⟩ := ih ht (by rw [hts])
    refine ⟨u, (run_succ_of_step hst k).trans hru, by rw [hut, hts], hu, fun hp => ?_⟩
    have hbus := hquiet hp
    exact (hquiet' (by rw [hbus, hp])).trans hbus

/-- Settles O24: by induction on the time the command becomes due, and the next step executes it, with a next
state and BUSY = 0 under the invariant. -/
theorem commandCompletesInFiniteTime : Obligations.CommandCompletesInFiniteTime := by
  intro k s hactions hl hb hk
  obtain ⟨t, hrun, ht, hu, hquiet⟩ := Undisturbed.run ⟨hactions, hl, hb⟩ hk
  have hlast : Sys2Proof.core.run (k + 1) s = executeCommand t := by
    rw [run_succ_of_run hrun, step_due hu.resetNext hu.line hu.busy (by rw [ht])]
  refine ⟨t, hrun, ht, hquiet, hlast, fun hs => ?_⟩
  obtain ⟨u, hexec⟩ := (run_keeps everyStepKeepsInvariant hs hrun).executeCommand_next
  exact ⟨u, hlast.trans hexec, executeCommand_busy hexec⟩

end Sys2Proof.Machine

/-! Encoding and decoding are inverse to each other on the legal words (30_encoding.md R58 to R64). -/

namespace Sys2Proof

/-- The opcode of a command's row (30_encoding.md R60). -/
def Instr.opcode : Instr → Opcode
  | .nop => .nop
  | .cfg _ _ => .cfg
  | .pclr => .pclr
  | .pexp _ => .pexp
  | .pld _ => .pld
  | .prev => .prev
  | .wrreg _ _ => .wrreg
  | .xix => .xix
  | .xfx => .xfx
  | .buildf => .buildf
  | .buildi => .buildi
  | .schk => .schk
  | .adv _ => .adv
  | .ret _ => .ret
  | .tabrd _ _ => .tabrd
  | .tabwr _ _ _ => .tabwr

theorem encodeFields_op (i : Instr) : (encodeFields i).op = i.opcode.code := by
  cases i <;> rfl

/-- The encoder leaves every reserved field zero (30_encoding.md R61). -/
theorem reservedZero_encodeFields (i : Instr) : i.opcode.reservedZero (encodeFields i) = true := by
  cases i <;> rfl

/-- A style selector below 3 and the DBG bit are in CFG's ranges, and read back from its fields (R61). -/
theorem cfg_operands_encodeFields {c : BitVec 2} (hc : c ≠ 3) (d : Bool) :
    Opcode.cfg.operands (encodeFields (.cfg c d)) = some (.cfg c d) := by
  revert c d; decide

/-- The operands read back from the encoder's fields (30_encoding.md R60). -/
theorem operands_encodeFields {i : Instr} (h : i.wf = true) :
    i.opcode.operands (encodeFields i) = some i := by
  cases i with
  | cfg c d => exact cfg_operands_encodeFields (by simpa [Instr.wf] using h) d
  | wrreg r imm => simp [Instr.opcode, Opcode.operands, encodeFields]
  | tabrd tb idx => simp [Instr.opcode, Opcode.operands, encodeFields]
  | tabwr tb idx imm => simp [Instr.opcode, Opcode.operands, encodeFields]
  | nop | pclr | pexp | pld | prev | xix | xfx | buildf | buildi | schk | adv | ret => rfl

/-- Fields are legal exactly when their OP names a row whose reserved fields are zero and whose operands are in
range (30_encoding.md R61, R65). -/
theorem decodeFields_eq_legal_iff {f : Fields} {i : Instr} :
    decodeFields f = .legal i ↔
      ∃ o : Opcode, o.code = f.op ∧ o.reservedZero f = true ∧ o.operands f = some i := by
  unfold decodeFields
  cases ho : Opcode.ofByte f.op with
  | none =>
    simp only [reduceCtorEq, false_iff]
    rintro ⟨o, hc, -⟩
    simp [Opcode.ofByte_eq_some.2 hc] at ho
  | some o =>
    have hunique : ∀ o' : Opcode, o'.code = f.op ↔ o' = o := fun o' => by
      rw [← Opcode.ofByte_eq_some, ho, Option.some.injEq, eq_comm]
    simp only [hunique, exists_eq_left]
    cases o.reservedZero f <;> cases o.operands f <;> simp

/-- Settles O7: the encoder's fields carry the command's opcode, zeros in the reserved fields, and the operands. -/
theorem decodeOfEncodeIsTheCommand : Obligations.DecodeOfEncodeIsTheCommand := by
  intro i h
  rw [decode_encode_fields]
  exact decodeFields_eq_legal_iff.2
    ⟨i.opcode, (encodeFields_op i).symm, reservedZero_encodeFields i, operands_encodeFields h⟩

/-- CFG's fields inside their ranges are the ones the encoder makes of its operands (30_encoding.md R61). -/
theorem cfg_fields_in_range {sel idx : Byte} (hs : sel.toNat ≤ 2) (hi : idx.toNat ≤ 1) :
    (sel.extractLsb' 0 2).setWidth 8 = sel ∧ (BitVec.ofBool (idx == 1#8)).setWidth 8 = idx ∧
      sel.extractLsb' 0 2 ≠ 3#2 := by
  have hsel : sel = 0 ∨ sel = 1 ∨ sel = 2 := by bv_omega
  have hidx : idx = 0 ∨ idx = 1 := by bv_omega
  obtain rfl | rfl | rfl := hsel <;> obtain rfl | rfl := hidx <;> decide

/-- Fields whose operands name a command are that command's fields (30_encoding.md R64). -/
theorem encodeFields_of_operands {o : Opcode} {f : Fields} {i : Instr} (hop : o.code = f.op)
    (hzero : o.reservedZero f = true) (h : o.operands f = some i) :
    encodeFields i = f ∧ i.wf = true := by
  obtain ⟨op, sel, idx, db, imm⟩ := f
  obtain rfl : o.code = op := hop
  cases o with
  | cfg =>
    simp only [Opcode.operands] at h
    split at h
    · cases h
    next hr =>
      obtain rfl := Option.some.inj h
      obtain ⟨hsel, hidx, hne⟩ := cfg_fields_in_range (sel := sel) (idx := idx) (by omega) (by omega)
      simp [Opcode.reservedZero] at hzero
      simp [encodeFields, hsel, hidx, hzero, Instr.wf, hne]
  | wrreg | tabrd | tabwr =>
    simp only [Opcode.operands, Option.map_eq_some_iff, ValueReg.ofByte_eq_some,
      TableId.ofByte_eq_some] at h
    obtain ⟨r, rfl, rfl⟩ := h
    simp [Opcode.reservedZero] at hzero
    simp [encodeFields, Instr.wf, hzero]
  | nop | pclr | pexp | pld | prev | xix | xfx | buildf | buildi | schk | adv | ret =>
    obtain rfl := Option.some.inj h
    simp [Opcode.reservedZero] at hzero
    simp [encodeFields, Instr.wf, hzero]

/-- Settles O8: a legal word is the packing of fields that are the encoder's for its command. -/
theorem legalWordIsItsEncoding : Obligations.LegalWordIsItsEncoding := by
  intro w i h
  obtain ⟨o, hop, hzero, hi⟩ := decodeFields_eq_legal_iff.1 h
  obtain ⟨hfields, hwf⟩ := encodeFields_of_operands hop hzero hi
  exact ⟨by rw [encode, hfields, packFields_fieldsOf], hwf⟩

/-- Settles O9: each word is the encoding of its command, which decodes to it. -/
theorem specWordsDecode : Obligations.SpecWordsDecode :=
  ⟨decodeOfEncodeIsTheCommand (.cfg 2 true) rfl, decodeOfEncodeIsTheCommand (.pexp 15) rfl,
    decodeOfEncodeIsTheCommand (.pld 0x04C11DB7) rfl,
    decodeOfEncodeIsTheCommand (.wrreg .finalXor 0xFFFFFFFF) rfl,
    decodeOfEncodeIsTheCommand .buildf rfl, decodeOfEncodeIsTheCommand .buildi rfl,
    decodeOfEncodeIsTheCommand .schk rfl, decodeOfEncodeIsTheCommand (.adv 0x31) rfl,
    decodeOfEncodeIsTheCommand (.ret 0x39) rfl, decodeOfEncodeIsTheCommand (.tabrd .it 0xFF) rfl,
    decodeOfEncodeIsTheCommand (.tabwr .ft 0x80 0x8000) rfl⟩

end Sys2Proof

/-! The checks of a command in the order of the command cycle (30_encoding.md R65, 60_exceptions.md R127). -/

namespace Sys2Proof.Machine

/-- A command that needs the test enable raises PERMISSION without it, before any other check. -/
theorem exec_permission {i : Instr} {s : State} (hi : needsDbg i = true) (hd : s.dbg = false) :
    exec i s = .next (raise .permission 0 0 0 s) := by
  cases i with
  | tabwr tb idx v => simp [exec, execTabwr, hd]
  | _ => cases hi

/-- The flag a table command needs is the valid flag of its table (60_exceptions.md R120). -/
theorem prerequisite_tabrd (tb : TableId) (idx : Byte) (s : State) :
    prerequisite (.tabrd tb idx) s = s.tableValid tb := by
  cases tb <;> rfl

theorem prerequisite_tabwr (tb : TableId) (idx : Byte) (v : Word) (s : State) :
    prerequisite (.tabwr tb idx v) s = s.tableValid tb := by
  cases tb <;> rfl

/-- Past the permission check, a command whose prerequisite flag is 0 raises NOT_READY. -/
theorem exec_notReady {i : Instr} {s : State} (hd : needsDbg i = true → s.dbg = true)
    (hp : prerequisite i s = false) : exec i s = .next (raise .notReady 0 0 0 s) := by
  cases i with
  | adv | buildi =>
    replace hp : s.fwdValid = false := hp
    simp [exec, execAdv, execBuildi, hp]
  | ret | schk =>
    replace hp : s.invValid = false := hp
    simp [exec, execRet, execSchk, hp]
  | tabrd tb idx =>
    rw [prerequisite_tabrd] at hp
    simp [exec, execTabrd, hp]
  | tabwr tb idx v =>
    rw [prerequisite_tabwr] at hp
    simp [exec, execTabwr, hd rfl, hp]
  | nop | cfg | pclr | pexp | pld | prev | wrreg | xix | xfx | buildf => cases hp

/-- WRREG breaks its contract exactly where its check fails (40_config_polynomial.md R79). -/
theorem brokenContract_wrreg (r : ValueReg) (v : Word) (s : State) :
    brokenContract (.wrreg r v) s = if regFits s.style r v then none else some v := by
  cases r with
  | refState =>
    by_cases hv : v = 0
    · simp [brokenContract, regFits, hv]
    · by_cases hf : v.toNat < 2 ^ width s.style <;> simp_all [brokenContract, regFits, fits]
  | state | initXor | finalXor =>
    by_cases hf : v.toNat < 2 ^ width s.style <;> simp_all [brokenContract, regFits, fits]

/-- Past the first two checks, a command with a value that breaks its contract raises CONTRACT with it. -/
theorem exec_contract {i : Instr} {s : State} {v : Word} (hd : needsDbg i = true → s.dbg = true)
    (hp : prerequisite i s = true) (hv : brokenContract i s = some v) :
    exec i s = .next (raise .contract v 0 0 s) := by
  cases i with
  | pexp e =>
    obtain ⟨hw, rfl⟩ : width s.style ≤ e.toNat ∧ e.setWidth 32 = v := by
      simpa [brokenContract] using hv
    simp [exec, execPexp, hw]
  | pld imm =>
    obtain ⟨hw, rfl⟩ : 2 ^ width s.style ≤ imm.toNat ∧ imm = v := by
      simpa [brokenContract] using hv
    simp [exec, execPld, fits, hw]
  | wrreg r imm =>
    obtain ⟨hr, rfl⟩ : regFits s.style r imm = false ∧ imm = v := by
      simpa [brokenContract_wrreg] using hv
    simp [exec, execWrreg, hr]
  | tabwr tb idx imm =>
    obtain ⟨hw, rfl⟩ : 2 ^ width s.style ≤ imm.toNat ∧ imm = v := by
      simpa [brokenContract] using hv
    rw [prerequisite_tabwr] at hp
    simp [exec, execTabwr, fits, hd rfl, hp, hw]
  | nop | cfg | pclr | prev | xix | xfx | buildf | buildi | schk | adv | ret | tabrd => cases hv

/-- Settles O14: the word's two errors come from the command cycle, the other three from exec in turn. -/
theorem checksInPriorityOrder : Obligations.ChecksInPriorityOrder := by
  intro s he
  refine ⟨fun hw => by simp [executeCommand, he, hw], fun hw => by simp [executeCommand, he, hw],
    fun i hi => ?_⟩
  rw [executeCommand_legal he hi]
  exact ⟨exec_permission, exec_notReady, fun hd hp v => exec_contract hd hp⟩

end Sys2Proof.Machine

/-! Programs: a word of a program runs as its command on the state that holds the word in flight
(30_encoding.md R69). -/

namespace Sys2Proof.Machine

/-- The word w in flight, with BUSY = 1: what the two CMD writes of a running core leave (20_memory.md R45). -/
def State.latch (s : State) (w : Cmd) : State :=
  { s with cmdLo := w.extractLsb' 0 32, cmdHi := w.extractLsb' 32 32, busy := true }

section
variable (s : State) (w : Cmd)

@[simp] theorem State.latch_style : (s.latch w).style = s.style := rfl
@[simp] theorem State.latch_poly : (s.latch w).poly = s.poly := rfl
@[simp] theorem State.latch_refState : (s.latch w).refState = s.refState := rfl
@[simp] theorem State.latch_fwdValid : (s.latch w).fwdValid = s.fwdValid := rfl
@[simp] theorem State.latch_invValid : (s.latch w).invValid = s.invValid := rfl
@[simp] theorem State.latch_scPass : (s.latch w).scPass = s.scPass := rfl
@[simp] theorem State.latch_err : (s.latch w).err = s.err := rfl
@[simp] theorem State.latch_errCode : (s.latch w).errCode = s.errCode := rfl
@[simp] theorem State.latch_ft : (s.latch w).ft = s.ft := rfl
@[simp] theorem State.latch_it : (s.latch w).it = s.it := rfl

@[simp] theorem State.latch_cmdWord : (s.latch w).cmdWord = w := by
  simp only [State.latch, State.cmdWord]
  ext i hi
  grind

end

/-- On a running core the word of a well-formed command runs that command. -/
theorem runWord_encode {s : State} {i : Instr} (hi : i.wf = true) (he : s.err = false) :
    runWord (encode i) s = exec i (s.latch (encode i)) := by
  have hs : runWord (encode i) s = executeCommand (s.latch (encode i)) := by
    simp [runWord, State.latch, he]
  rw [hs]
  exact executeCommand_legal he (by rw [State.latch_cmdWord, decodeOfEncodeIsTheCommand i hi])

/-- A program on a running core goes on after its first command has answered a next state. -/
theorem runProgram_encode_cons {s t : State} {i : Instr} (is : List Instr) (hi : i.wf = true)
    (he : s.err = false) (h : exec i (s.latch (encode i)) = .next t) :
    runProgram (encodeProgram (i :: is)) s = runProgram (encodeProgram is) t := by
  simp only [encodeProgram, List.map_cons, runProgram, runWord_encode hi he, h]

/-! PSET (30_encoding.md R68). -/

/-- The three flags of the tables are 0. -/
structure TablesInvalid (s : State) : Prop where
  fwd : s.fwdValid = false
  inv : s.invValid = false
  pass : s.scPass = false

theorem tablesInvalid_setPoly_complete (s : State) (v : Word) : TablesInvalid (s.setPoly v).complete :=
  ⟨rfl, rfl, rfl⟩

theorem exec_pexp_below {s : State} {e : Byte} (h : e.toNat < width s.style) :
    exec (.pexp e) s = .next (s.setPoly (s.poly ||| (1#32 <<< e.toNat))).complete := by
  rw [exec, execPexp, if_neg (by omega)]

/-- The bits of POLY after PEXP (40_config_polynomial.md R76). -/
theorem getLsbD_or_bit (p : Word) {e k : Nat} (hk : k < 32) :
    (p ||| (1#32 <<< e)).getLsbD k = true ↔ p.getLsbD k = true ∨ e = k := by
  rw [BitVec.getLsbD_or, BitVec.getLsbD_shiftLeft, BitVec.getLsbD_one, Bool.or_eq_true]
  refine or_congr_right ?_
  simp only [hk, Bool.and_eq_true, Bool.not_eq_true', decide_eq_false_iff_not,
    decide_eq_true_eq, true_and]
  omega

/-- PEXPs with exponents below W add exactly their bits to POLY, by induction on the exponents. -/
theorem runProgram_pexps (es : List Byte) {s : State} (he : s.err = false) (hs : TablesInvalid s)
    (hes : ∀ e ∈ es, e.toNat < width s.style) :
    ∃ t, runProgram (encodeProgram (es.map .pexp)) s = .next t ∧ t.err = false ∧ t.style = s.style ∧
      TablesInvalid t ∧
      ∀ k < 32, (t.poly.getLsbD k = true ↔ s.poly.getLsbD k = true ∨ ∃ e ∈ es, e.toNat = k) := by
  induction es generalizing s with
  | nil => exact ⟨s, rfl, he, rfl, hs, by simp⟩
  | cons e es ih =>
    have hstep := exec_pexp_below (s := s.latch (encode (.pexp e))) (hes e (by simp))
    obtain ⟨t, hrun, herr, hstyle, hflags, hpoly⟩ :=
      ih (s := ((s.latch (encode (.pexp e))).setPoly (s.poly ||| (1#32 <<< e.toNat))).complete) he
        (tablesInvalid_setPoly_complete _ _) fun c hc => hes c (by simp [hc])
    refine ⟨t, (runProgram_encode_cons _ rfl he hstep).trans hrun, herr, hstyle, hflags, fun k hk => ?_⟩
    rw [hpoly k hk]
    simp only [State.complete_poly, State.setPoly_poly, getLsbD_or_bit s.poly hk, List.mem_cons,
      exists_eq_or_imp, or_assoc]

/-- Settles O59: PCLR empties POLY and the tables' flags, and each PEXP adds its bit. -/
theorem psetProgramSetsTheExponents : Obligations.PsetProgramSetsTheExponents := by
  intro s es he hes
  obtain ⟨t, hrun, herr, hstyle, ⟨hfwd, hinv, hpass⟩, hpoly⟩ :=
    runProgram_pexps es (s := ((s.latch (encode .pclr)).setPoly 0).complete) he
      (tablesInvalid_setPoly_complete _ _) hes
  refine ⟨t, (runProgram_encode_cons _ rfl he rfl).trans hrun, herr, hstyle, hfwd, hinv, hpass,
    fun k hk => ?_⟩
  rw [hpoly k hk]
  simp

end Sys2Proof.Machine

/-! The mirror of R71, bit by bit (40_config_polynomial.md R71, R72). -/

namespace Sys2Proof.Machine

/-- Bit k of the accumulator after the loop, left-aligned by what is still owed: the low `owed` bits are the
mirror of the bits v still to come, the ones above are the accumulator's. -/
theorem getLsbD_reverseLoop (fuel : Nat) {r v : Word} {owed k : Nat} (hv : v.toNat < 2 ^ owed)
    (hf : owed ≤ fuel) (hk : k < 32) :
    ((reverseLoop fuel r owed v).1 <<< (reverseLoop fuel r owed v).2).getLsbD k =
      if k < owed then v.getLsbD (owed - 1 - k) else r.getLsbD (k - owed) := by
  induction fuel generalizing r v owed with
  | zero =>
    obtain rfl : owed = 0 := by omega
    simp [reverseLoop]
  | succ fuel ih =>
    by_cases h0 : v = 0
    · subst h0
      rw [reverseLoop, if_pos rfl, BitVec.getLsbD_shiftLeft]
      by_cases hlt : k < owed <;> simp [hk, hlt]
    · have howed : owed ≠ 0 := by
        rintro rfl
        exact h0 (BitVec.eq_of_toNat_eq (by simpa using hv))
      obtain ⟨m, rfl⟩ := Nat.exists_eq_succ_of_ne_zero howed
      have hv' : (v >>> 1).toNat < 2 ^ m := by
        rw [BitVec.toNat_ushiftRight, Nat.shiftRight_eq_div_pow]
        omega
      simp only [reverseLoop, if_neg h0, Nat.add_sub_cancel, Nat.succ_eq_add_one]
      rw [ih hv' (by omega)]
      obtain hlt | rfl | hgt := lt_trichotomy k m
      · rw [if_pos hlt, if_pos (by omega), BitVec.getLsbD_ushiftRight]
        congr 1
        omega
      · simp
      · obtain ⟨d, rfl⟩ : ∃ d, k = m + 1 + d := ⟨k - (m + 1), by omega⟩
        have hup : (r <<< 1 ||| v &&& 1).getLsbD (d + 1) = r.getLsbD d := by
          simp [show d + 1 < 32 by omega, show d < 32 by omega]
        rw [if_neg (by omega), if_neg (by omega), show m + 1 + d - m = d + 1 by omega,
          show m + 1 + d - (m + 1) = d by omega, hup]

/-- M_W has exactly its low W bits (00_scope.md R9). -/
theorem testBit_mask (S : Style) (k : Nat) : (mask S).toNat.testBit k = decide (k < width S) := by
  rw [show (mask S).toNat = 2 ^ width S - 1 by cases S <;> rfl, Nat.testBit_two_pow_sub_one]

/-- Bit k of the mirror of a W-bit value is bit W - 1 - k (40_config_polynomial.md R72). -/
theorem getLsbD_reverse {S : Style} {v : Word} (hv : v.toNat < 2 ^ width S) {k : Nat}
    (hk : k < width S) : (reverse S v).getLsbD k = v.getLsbD (width S - 1 - k) := by
  have hw : width S - 1 + 1 = width S ∧ width S ≤ 32 := by cases S <;> decide
  have hmask : (mask S).getLsbD k = true := by
    rw [BitVec.getLsbD, testBit_mask]
    simpa using hk
  have hv' : (v >>> 1).toNat < 2 ^ (width S - 1) := by
    rw [BitVec.toNat_ushiftRight, Nat.shiftRight_eq_div_pow]
    rw [← hw.1, pow_succ] at hv
    omega
  simp only [reverse, BitVec.getLsbD_and, hmask, Bool.and_true]
  rw [getLsbD_reverseLoop _ hv' (by omega) (by omega)]
  split
  · rw [BitVec.getLsbD_ushiftRight]
    congr 1
    omega
  next hlt =>
    obtain rfl : k = width S - 1 := by omega
    simp

end Sys2Proof.Machine

/-! The forward table generator as division by the polynomial: each style's eight steps drive one and the same
bit register, whose last eight bits determine the byte (41_forward_table.md R82 to R85, 43_inverse_table.md R105). -/

namespace Sys2Proof.Machine

/-- r k i is bit i, after k steps, of a W-bit register that divides by p the bits msg fed in at its top: a step
moves each bit up by one and adds p where the bit that leaves differs from the bit fed in. -/
structure DivisionRegister (W : Nat) (p msg : Nat → Bool) (r : Nat → Nat → Bool) : Prop where
  start : ∀ i < W, r 0 i = false
  step : ∀ k, ∀ i < W, r (k + 1) i =
    ((decide (0 < i) && r k (i - 1)) ^^ ((r k (W - 1) ^^ msg k) && p i))

/-- With the x^0 term in p, the low L bits after L steps determine the L bits fed in and the whole register: bit
0 tells what the last step added, and undoing that step leaves L - 1 bits. -/
theorem DivisionRegister.determined {W : Nat} {p msg msg' : Nat → Bool} {r r' : Nat → Nat → Bool}
    (h : DivisionRegister W p msg r) (h' : DivisionRegister W p msg' r') (h0 : p 0 = true) (L : Nat)
    (hL : L ≤ W) (heq : ∀ i < L, r L i = r' L i) :
    (∀ k < L, msg k = msg' k) ∧ ∀ i < W, r L i = r' L i := by
  induction L with
  | zero => exact ⟨by simp, fun i hi => by rw [h.start i hi, h'.start i hi]⟩
  | succ L ih =>
    have hadd : (r L (W - 1) ^^ msg L) = (r' L (W - 1) ^^ msg' L) := by
      have h1 := heq 0 (by omega)
      rw [h.step L 0 (by omega), h'.step L 0 (by omega)] at h1
      simpa [h0] using h1
    have hlow : ∀ i < L, r L i = r' L i := by
      intro i hi
      have h1 := heq (i + 1) (by omega)
      rw [h.step L (i + 1) (by omega), h'.step L (i + 1) (by omega), hadd] at h1
      simpa using h1
    obtain ⟨hmsg, hreg⟩ := ih (by omega) hlow
    have hlast : msg L = msg' L := by
      rw [hreg (W - 1) (by omega)] at hadd
      simpa using hadd
    refine ⟨fun k hk => ?_, fun i hi => ?_⟩
    · obtain hk | rfl := Nat.lt_succ_iff_lt_or_eq.1 hk
      · exact hmsg k hk
      · exact hlast
    · rw [h.step L i hi, h'.step L i hi, hadd, hreg (i - 1) (by omega)]

/-! The bits of one step of each simulation. -/

theorem shiftRight_and_one_iff (x i : Nat) : (x >>> i) &&& 1 = 1 ↔ x.testBit i = true := by
  rw [Nat.testBit, bne_iff_ne, Nat.and_comm, Nat.one_and_eq_mod_two]
  omega

theorem and_two_pow_ne_zero_iff (x i : Nat) : x &&& 2 ^ i ≠ 0 ↔ x.testBit i = true := by
  rw [Nat.and_two_pow]
  cases x.testBit i <;> simp

/-- R83: the register moves down, and the bit fed in is bit k of n. -/
theorem testBit_fwdStepR16 (q n crc k j : Nat) :
    (fwdStepR16 q n crc k).testBit j =
      (crc.testBit (j + 1) ^^ ((crc.testBit 0 ^^ n.testBit k) && q.testBit j)) := by
  have hc : (crc ^^^ (n >>> k)) &&& 1 = 1 ↔ (crc.testBit 0 ^^ n.testBit k) = true := by
    rw [← Nat.shiftRight_zero (n := crc ^^^ (n >>> k)), shiftRight_and_one_iff, Nat.testBit_xor,
      Nat.testBit_shiftRight, Nat.add_zero]
  simp only [fwdStepR16, hc]
  split <;> simp_all [Nat.add_comm]

/-- R84: the register moves up, and the bit fed in is bit 7 - k of n. -/
theorem testBit_fwdStepN16 (p n crc k j : Nat) :
    (fwdStepN16 p n crc k).testBit j =
      ((decide (0 < j) && crc.testBit (j - 1)) ^^
        ((crc.testBit 15 ^^ (n <<< (8 + k)).testBit 15) && p.testBit j)) := by
  have hc := and_two_pow_ne_zero_iff (crc ^^^ (n <<< (8 + k))) 15
  rw [Nat.testBit_xor] at hc
  simp only [fwdStepN16, hc, show 0x8000 = 2 ^ 15 from rfl]
  split <;> simp_all [Nat.one_le_iff_ne_zero, Nat.pos_iff_ne_zero]

/-- R85: the register moves up; the bits fed in stand in it from the start. -/
theorem testBit_fwdStepP32 (p t j : Nat) :
    (fwdStepP32 p t).testBit j =
      ((decide (0 < j) && t.testBit (j - 1)) ^^ (t.testBit 31 && p.testBit j)) := by
  simp only [fwdStepP32, shiftRight_and_one_iff]
  split <;> simp_all [Nat.one_le_iff_ne_zero, Nat.pos_iff_ne_zero]

end Sys2Proof.Machine

/-! The register that each style's simulation drives, and the index part of the built table. -/

namespace Sys2Proof.Machine

/-- The value of the style's simulation after k of its eight steps (41_forward_table.md R82). -/
def fwdPartial (S : Style) (poly : Word) (n k : Nat) : Nat :=
  match S with
  | .r16 => (List.range' 0 k).foldl (fwdStepR16 (reverse .r16 poly).toNat n) 0
  | .n16 => (List.range' 0 k).foldl (fwdStepN16 poly.toNat n) 0
  | .p32 => (List.range' 0 k).foldl (fun t _ => fwdStepP32 poly.toNat t) (n <<< 24)

theorem fwdPartial_eight (S : Style) (poly : Word) (n : Nat) : fwdPartial S poly n 8 = fwdRaw S poly n := by
  cases S <;> rfl

theorem fwdPartial_r16_succ (poly : Word) (n k : Nat) :
    fwdPartial .r16 poly n (k + 1) =
      fwdStepR16 (reverse .r16 poly).toNat n (fwdPartial .r16 poly n k) k := by
  simp [fwdPartial, List.range'_1_concat]

theorem fwdPartial_n16_succ (poly : Word) (n k : Nat) :
    fwdPartial .n16 poly n (k + 1) = fwdStepN16 poly.toNat n (fwdPartial .n16 poly n k) k := by
  simp [fwdPartial, List.range'_1_concat]

theorem fwdPartial_p32_succ (poly : Word) (n k : Nat) :
    fwdPartial .p32 poly n (k + 1) = fwdStepP32 poly.toNat (fwdPartial .p32 poly n k) := by
  simp [fwdPartial, List.range'_1_concat]

/-- The reflected register never leaves its 16 bits: bit 16 is 0 before every step. -/
theorem testBit_fwdPartial_r16_above (poly : Word) (n k : Nat) {j : Nat} (hj : 16 ≤ j) :
    (fwdPartial .r16 poly n k).testBit j = false := by
  induction k generalizing j with
  | zero => simp [fwdPartial]
  | succ k ih =>
    have hq : (reverse .r16 poly).toNat.testBit j = false :=
      Nat.testBit_lt_two_pow (lt_of_lt_of_le (reverse_lt .r16 poly) (Nat.pow_le_pow_right (by decide) hj))
    rw [fwdPartial_r16_succ, testBit_fwdStepR16, ih (by omega), hq]
    simp

/-- The bit of n fed in at step k (R83 to R85): for R16 from the low end, otherwise from the high end. -/
def messageBit (S : Style) (n k : Nat) : Bool :=
  match S with
  | .r16 => n.testBit k
  | .n16 => (n <<< (8 + k)).testBit 15
  | .p32 => (n <<< (24 + k)).testBit 31

/-- Bit i of the division register after k steps: R16 holds it mirrored (R83), and in P32 the bits of n that
are still to come are added to it (R85). -/
def registerBit (S : Style) (poly : Word) (n k i : Nat) : Bool :=
  match S with
  | .r16 => (fwdPartial .r16 poly n k).testBit (15 - i)
  | .n16 => (fwdPartial .n16 poly n k).testBit i
  | .p32 => (fwdPartial .p32 poly n k ^^^ (n <<< (24 + k))).testBit i

theorem divisionRegister_r16 {poly : Word} (hp : poly.toNat < 2 ^ width .r16) (n : Nat) :
    DivisionRegister 16 poly.getLsbD (messageBit .r16 n) (registerBit .r16 poly n) where
  start i _ := by simp [registerBit, fwdPartial]
  step k i hi := by
    have hq : (reverse .r16 poly).toNat.testBit (15 - i) = poly.getLsbD i := by
      have h := getLsbD_reverse hp (k := 15 - i) (by simp only [width]; omega)
      rwa [show width .r16 - 1 - (15 - i) = i by simp only [width]; omega] at h
    simp only [registerBit, messageBit, fwdPartial_r16_succ, testBit_fwdStepR16, hq]
    obtain rfl | hpos := Nat.eq_zero_or_pos i
    · simp [testBit_fwdPartial_r16_above]
    · rw [show 15 - i + 1 = 15 - (i - 1) by omega]
      simp [hpos]

theorem divisionRegister_n16 (poly : Word) (n : Nat) :
    DivisionRegister 16 poly.getLsbD (messageBit .n16 n) (registerBit .n16 poly n) where
  start i _ := by simp [registerBit, fwdPartial]
  step k i _ := by
    rw [registerBit, fwdPartial_n16_succ, testBit_fwdStepN16]
    rfl

theorem divisionRegister_p32 (poly : Word) (n : Nat) :
    DivisionRegister 32 poly.getLsbD (messageBit .p32 n) (registerBit .p32 poly n) where
  start i _ := by simp [registerBit, fwdPartial]
  step k i _ := by
    have hn : (n <<< (24 + (k + 1))).testBit i = (decide (0 < i) && (n <<< (24 + k)).testBit (i - 1)) := by
      rw [← Nat.add_assoc, Nat.shiftLeft_add, Nat.testBit_shiftLeft]
      rfl
    simp only [registerBit, messageBit, fwdPartial_p32_succ, Nat.testBit_xor, testBit_fwdStepP32, hn,
      BitVec.getLsbD]
    cases decide (0 < i) <;> simp [Bool.xor_comm]

/-- Every style divides by POLY (41_forward_table.md R82 to R85). -/
theorem divisionRegister (S : Style) {poly : Word} (hp : poly.toNat < 2 ^ width S) (n : Nat) :
    DivisionRegister (width S) poly.getLsbD (messageBit S n) (registerBit S poly n) := by
  cases S with
  | r16 => exact divisionRegister_r16 hp n
  | n16 => exact divisionRegister_n16 poly n
  | p32 => exact divisionRegister_p32 poly n

/-- The eight bits fed in are the bits of the byte. -/
theorem eq_of_messageBit {S : Style} {n m : Nat} (hn : n < 256) (hm : m < 256)
    (h : ∀ k < 8, messageBit S n k = messageBit S m k) : n = m := by
  have hbit : ∀ j < 8, n.testBit j = m.testBit j := by
    intro j hj
    have hlow := h j hj
    have hhigh := h (7 - j) (by omega)
    cases S with
    | r16 => exact hlow
    | n16 =>
      have hle : 8 + (7 - j) ≤ 15 ∧ 15 - (8 + (7 - j)) = j := by omega
      simpa [messageBit, hle] using hhigh
    | p32 =>
      have hle : 24 + (7 - j) ≤ 31 ∧ 31 - (24 + (7 - j)) = j := by omega
      simpa [messageBit, hle] using hhigh
  refine Nat.eq_of_testBit_eq fun j => ?_
  by_cases hj : j < 8
  · exact hbit j hj
  · have hhigh : ∀ x < 256, x.testBit j = false := fun x hx =>
      Nat.testBit_lt_two_pow (lt_of_lt_of_le hx (Nat.pow_le_pow_right (n := 2) (i := 8) (by decide) (by omega)))
    rw [hhigh n hn, hhigh m hm]

/-- A stored entry has the low W bits of the raw result (41_forward_table.md R86). -/
theorem getLsbD_fwdEntry (S : Style) (poly : Word) (n : Nat) {j : Nat} (hj : j < width S) :
    (fwdEntry S poly n).getLsbD j = (fwdRaw S poly n).testBit j := by
  have hw : width S ≤ 32 := by cases S <;> decide
  rw [fwdEntry, BitVec.getLsbD_ofNat, Nat.testBit_and, testBit_mask, decide_eq_true hj,
    decide_eq_true (by omega : j < 32), Bool.true_and, Bool.and_true]

/-- The index part is the high byte of a 16-bit reflected entry, and otherwise the low byte (R104). -/
theorem testBit_closedIndex_r16 (e : Word) (j : Nat) :
    (closedIndex .r16 e).testBit j = e.getLsbD (8 + j) := by
  rw [closedIndex, BitVec.toNat_ushiftRight, Nat.testBit_shiftRight, BitVec.getLsbD]

theorem testBit_and_ff (e : Word) {j : Nat} (hj : j < 8) : (e &&& 0xFF).toNat.testBit j = e.getLsbD j := by
  have hff : Nat.testBit 255 j = true := by
    rw [show 255 = 2 ^ 8 - 1 from rfl, Nat.testBit_two_pow_sub_one]
    simpa using hj
  simp [BitVec.toNat_and, Nat.testBit_and, hff, BitVec.getLsbD]

/-- Where bit i of the register stands in the index part: R16 holds the register mirrored. -/
def indexBit (S : Style) (i : Nat) : Nat :=
  match S with
  | .r16 => 7 - i
  | .n16 | .p32 => i

/-- The index part of a built entry is the register's low eight bits after the eight steps. -/
theorem registerBit_eight (S : Style) (poly : Word) (n : Nat) {i : Nat} (hi : i < 8) :
    registerBit S poly n 8 i = (closedIndex S (fwdEntry S poly n)).testBit (indexBit S i) := by
  have hw : 8 ≤ width S := by cases S <;> decide
  cases S with
  | r16 =>
    rw [indexBit, testBit_closedIndex_r16, show 8 + (7 - i) = 15 - i by omega,
      getLsbD_fwdEntry _ _ _ (by simp only [width]; omega), registerBit, fwdPartial_eight]
  | n16 =>
    rw [indexBit, closedIndex, testBit_and_ff _ hi, getLsbD_fwdEntry _ _ _ (by omega), registerBit,
      fwdPartial_eight]
  | p32 =>
    have hout : (n <<< (24 + 8)).testBit i = false := by
      rw [Nat.testBit_shiftLeft, decide_eq_false (by omega), Bool.false_and]
    rw [indexBit, closedIndex, testBit_and_ff _ hi, getLsbD_fwdEntry _ _ _ (by omega), registerBit,
      fwdPartial_eight, Nat.testBit_xor, hout, Bool.xor_false]

/-- With the x^0 term in POLY the index part of a built table is injective (41_forward_table.md R88,
43_inverse_table.md R105). -/
theorem indexInjective_forwardTable {S : Style} {poly : Word} (hp : poly.toNat < 2 ^ width S)
    (h0 : poly.getLsbD 0 = true) : indexInjective S (forwardTable S poly) := by
  intro n hn m hm h
  rw [entry_forwardTable S poly hn, entry_forwardTable S poly hm] at h
  have hlow : ∀ i < 8, registerBit S poly n 8 i = registerBit S poly m 8 i := fun i hi => by
    rw [registerBit_eight S poly n hi, registerBit_eight S poly m hi, h]
  have hw : 8 ≤ width S := by cases S <;> decide
  exact eq_of_messageBit hn hm
    ((divisionRegister S hp n).determined (divisionRegister S hp m) h0 8 hw hlow).1

end Sys2Proof.Machine

/-! The builders and the self-check on a table with an injective index part (43_inverse_table.md R104, R105,
44_selfcheck.md R111), and the program GEN (30_encoding.md R68). -/

namespace Sys2Proof.Machine

/-- On an injective index part no byte of phase 1 overwrites another's entry, so the table it leaves is the
closed form. -/
theorem closedForm_patchTable_of_injective {S : Style} {ft : Memory} {R : Word}
    (hR : R.toNat < 2 ^ width S) (hf : tableBounded S ft) (hinj : indexInjective S ft) :
    closedForm S ft (patchTable S ft R) := by
  intro i hi
  obtain ⟨k, hk, hindex, hread⟩ := read_patchTable hR hf hi
  rwa [hinj k hk i hi hindex] at hread

theorem entry_of_closedForm {S : Style} {ft it : Memory} (h : closedForm S ft it) {i : Nat} (hi : i < 256) :
    Memory.entry it (closedIndex S (Memory.entry ft i)) = closedEntry S i (Memory.entry ft i) := by
  rw [Memory.entry, h i hi, Option.getD_some]

/-- A table in closed form undoes every advance (42_engine.md R95). -/
theorem roundTrips_of_closedForm {S : Style} {ft it : Memory} (hf : tableBounded S ft)
    (hi : tableBounded S it) (h : closedForm S ft it) : roundTrips S ft it :=
  fun _ _ hx => (roundTrip_iff hx hf hi).2 (entry_of_closedForm h (fwdIndex_lt _ _ _))

/-- The states SCHK tests are W-bit states (44_selfcheck.md R108, R109). -/
theorem testedStates_fit {S : Style} {x : Word} (h : x ∈ testedStates S) : x.toNat < 2 ^ width S := by
  cases S with
  | r16 | n16 =>
    simp only [testedStates, List.mem_map, List.mem_range'_1] at h
    obtain ⟨n, hn, rfl⟩ := h
    simp only [width, BitVec.toNat_ofNat]
    omega
  | p32 => exact x.isLt

theorem exec_buildi_of_injective {s : State} (hv : s.fwdValid = true) (hfull : Memory.full s.ft = true)
    (hf : tableBounded s.style s.ft) (hR : s.refState.toNat < 2 ^ width s.style)
    (hinj : indexInjective s.style s.ft) :
    exec .buildi s = .next (s.installInverse (patchTable s.style s.ft s.refState)).complete := by
  have hpass : validate s.style s.ft (patchTable s.style s.ft s.refState) s.refState = none :=
    (validate_iff hR hf (bounded_patchTable _ _ _)).2
      fun _ => entry_of_closedForm (closedForm_patchTable_of_injective hR hf hinj)
  simp [exec, execBuildi, hv, hfull, hpass]

theorem exec_schk_of_roundTrips {s : State} (hv : s.invValid = true) (hft : Memory.full s.ft = true)
    (hit : Memory.full s.it = true) (h : roundTrips s.style s.ft s.it) :
    exec .schk s = .next s.markPass.complete := by
  have hpass : firstFailure s.style s.ft s.it = none :=
    firstFailure_eq_none.2 fun x hx b => h x b (testedStates_fit hx)
  simp [exec, execSchk, hv, hft, hit, hpass]

/-! What each of GEN's three words leaves when it completes. -/

def State.afterBuildf (s : State) : State :=
  ((s.latch (encode .buildf)).withdrawInverse.installForward (forwardTable s.style s.poly)).complete

def State.afterBuildi (s : State) : State :=
  ((s.latch (encode .buildi)).installInverse (patchTable s.style s.ft s.refState)).complete

def State.afterSchk (s : State) : State :=
  (s.latch (encode .schk)).markPass.complete

section
variable (s : State)

@[simp] theorem State.afterBuildf_style : s.afterBuildf.style = s.style := rfl
@[simp] theorem State.afterBuildf_poly : s.afterBuildf.poly = s.poly := rfl
@[simp] theorem State.afterBuildf_refState : s.afterBuildf.refState = s.refState := rfl
@[simp] theorem State.afterBuildf_fwdValid : s.afterBuildf.fwdValid = true := rfl
@[simp] theorem State.afterBuildf_err : s.afterBuildf.err = s.err := rfl
@[simp] theorem State.afterBuildf_errCode : s.afterBuildf.errCode = s.errCode := rfl
@[simp] theorem State.afterBuildf_ft : s.afterBuildf.ft = forwardTable s.style s.poly := by
  simp [State.afterBuildf]

@[simp] theorem State.afterBuildi_style : s.afterBuildi.style = s.style := rfl
@[simp] theorem State.afterBuildi_poly : s.afterBuildi.poly = s.poly := rfl
@[simp] theorem State.afterBuildi_fwdValid : s.afterBuildi.fwdValid = s.fwdValid := rfl
@[simp] theorem State.afterBuildi_invValid : s.afterBuildi.invValid = true := rfl
@[simp] theorem State.afterBuildi_err : s.afterBuildi.err = s.err := rfl
@[simp] theorem State.afterBuildi_errCode : s.afterBuildi.errCode = s.errCode := rfl
@[simp] theorem State.afterBuildi_ft : s.afterBuildi.ft = s.ft := rfl
@[simp] theorem State.afterBuildi_it : s.afterBuildi.it = patchTable s.style s.ft s.refState := by
  simp [State.afterBuildi]

@[simp] theorem State.afterSchk_style : s.afterSchk.style = s.style := rfl
@[simp] theorem State.afterSchk_poly : s.afterSchk.poly = s.poly := rfl
@[simp] theorem State.afterSchk_busy : s.afterSchk.busy = false := rfl
@[simp] theorem State.afterSchk_fwdValid : s.afterSchk.fwdValid = s.fwdValid := rfl
@[simp] theorem State.afterSchk_invValid : s.afterSchk.invValid = s.invValid := rfl
@[simp] theorem State.afterSchk_scPass : s.afterSchk.scPass = true := rfl
@[simp] theorem State.afterSchk_err : s.afterSchk.err = s.err := rfl
@[simp] theorem State.afterSchk_errCode : s.afterSchk.errCode = s.errCode := rfl
@[simp] theorem State.afterSchk_ft : s.afterSchk.ft = s.ft := rfl
@[simp] theorem State.afterSchk_it : s.afterSchk.it = s.it := rfl

end

theorem runProgram_buildf {s : State} (he : s.err = false) (is : List Instr) :
    runProgram (encodeProgram (.buildf :: is)) s = runProgram (encodeProgram is) s.afterBuildf :=
  runProgram_encode_cons is rfl he rfl

theorem runProgram_buildi {s : State} (he : s.err = false) (hv : s.fwdValid = true)
    (hfull : Memory.full s.ft = true) (hf : tableBounded s.style s.ft)
    (hR : s.refState.toNat < 2 ^ width s.style) (hinj : indexInjective s.style s.ft) (is : List Instr) :
    runProgram (encodeProgram (.buildi :: is)) s = runProgram (encodeProgram is) s.afterBuildi :=
  runProgram_encode_cons is rfl he
    (exec_buildi_of_injective (s := s.latch (encode .buildi)) hv hfull hf hR hinj)

theorem runProgram_schk {s : State} (he : s.err = false) (hv : s.invValid = true)
    (hft : Memory.full s.ft = true) (hit : Memory.full s.it = true)
    (h : roundTrips s.style s.ft s.it) (is : List Instr) :
    runProgram (encodeProgram (.schk :: is)) s = runProgram (encodeProgram is) s.afterSchk :=
  runProgram_encode_cons is rfl he
    (exec_schk_of_roundTrips (s := s.latch (encode .schk)) hv hft hit h)

/-- On a running core GEN completes when BUILDF's table has an injective index part (R105, R111). -/
theorem runProgram_gen {s : State} (he : s.err = false) (hR : s.refState.toNat < 2 ^ width s.style)
    (hinj : indexInjective s.style (forwardTable s.style s.poly)) :
    runProgram (encodeProgram Pseudo.gen.expand) s = .next s.afterBuildf.afterBuildi.afterSchk ∧
      roundTrips s.style (forwardTable s.style s.poly)
        (patchTable s.style (forwardTable s.style s.poly) s.refState) := by
  have hfull := full_forwardTable s.style s.poly
  have hf := bounded_forwardTable s.style s.poly
  have hclosed := closedForm_patchTable_of_injective hR hf hinj
  have htrips := roundTrips_of_closedForm hf (bounded_patchTable _ _ _) hclosed
  refine ⟨?_, htrips⟩
  have hbuildi := runProgram_buildi (s := s.afterBuildf) (by simpa using he) (by simp)
    (by simpa using hfull) (by simpa using hf) (by simpa using hR) (by simpa using hinj)
  have hschk := runProgram_schk (s := s.afterBuildf.afterBuildi) (by simpa using he) (by simp)
    (by simpa using hfull) (by simpa using full_of_closedForm hf hclosed) (by simpa using htrips)
  rw [Pseudo.expand, runProgram_buildf he, hbuildi, hschk]
  rfl

/-- STATUS reads 0x0000000E on an idle core without an error whose three flags are 1 (70_reset_and_hazards.md R143). -/
theorem published_of_flags {s : State} (hb : s.busy = false) (hf : s.fwdValid = true) (hi : s.invValid = true)
    (hp : s.scPass = true) (he : s.err = false) (hc : s.errCode = .none) : Published s := by
  rw [Published, State.statusWord, hb, hf, hi, hp, he, hc]
  decide

/-- Settles O60: POLY's x^0 term makes the index part of BUILDF's table injective, so GEN completes. -/
theorem genPublishesVerifiedTables : Obligations.GenPublishesVerifiedTables := by
  intro s hs he h0
  obtain ⟨hrun, htrips⟩ :=
    runProgram_gen he hs.refState_fits (indexInjective_forwardTable hs.poly_fits h0)
  have hcode : s.errCode = .none := hs.code_iff.2 he
  exact ⟨_, hrun, published_of_flags (by simp) (by simp) (by simp) (by simp) (by simpa using he)
    (by simpa using hcode), by simp, by simp, by simpa using htrips⟩

end Sys2Proof.Machine

/-! The rows of the opcode map that the configuration and polynomial commands stand in (30_encoding.md R60, R61). -/

namespace Sys2Proof.Machine

/-- A row all of whose fields but OP are reserved decodes to its one command where they are zero. -/
theorem decodesAs_onlyOp (o : Opcode) {i : Instr} (hop : ∀ f, o.operands f = some i)
    (hzero : ∀ f, o.reservedZero f = true ↔ onlyOp f) :
    decodesAs o.code (fun f => if onlyOp f then some i else none) :=
  decodesAs_of_row (Opcode.ofByte_code o) fun f => by simp [hop, hzero]

theorem zeroFields_iff_onlyOp {f : Fields} :
    (f.sel == 0 && f.idx == 0 && f.db == 0 && f.imm == 0) = true ↔ onlyOp f := by
  simp [onlyOp, and_assoc]

/-- WRREG's selector names a register exactly for the four values of its row. -/
theorem valueReg_ofByte (b : Byte) :
    ValueReg.ofByte b =
      if b = 0 then some .state else if b = 1 then some .initXor
      else if b = 2 then some .finalXor else if b = 3 then some .refState else none := by
  simp only [ValueReg.ofByte, List.find?_cons, List.find?_nil, ValueReg.code, beq_eq_decide,
    eq_comm (b := b)]
  split_ifs <;> simp_all

/-- CFG's operands are its two style bits and bit 0 of IDX, where SEL and IDX are in range. -/
theorem cfg_operands (f : Fields) :
    Opcode.cfg.operands f =
      if f.sel.toNat ≤ 2 ∧ f.idx.toNat ≤ 1 then some (.cfg (f.sel.setWidth 2) (f.idx.getLsbD 0))
      else none := by
  have hidx : f.idx.toNat ≤ 1 → (f.idx == 1) = f.idx.getLsbD 0 := fun h => by
    obtain h | h : f.idx = 0 ∨ f.idx = 1 := by bv_omega
    all_goals rw [h]; rfl
  rw [Opcode.operands, BitVec.setWidth_eq_extractLsb' (by decide)]
  by_cases h : f.sel.toNat ≤ 2 ∧ f.idx.toNat ≤ 1
  · rw [if_neg (by omega), if_pos h, hidx h.2]
  · rw [if_pos (by omega), if_neg h]

end Sys2Proof.Machine

/-! NOP, CFG, and the polynomial commands PCLR, PLD, PEXP (40_config_polynomial.md R73 to R77). -/

namespace Sys2Proof.Machine

theorem executeCommand_halted {s : State} (he : s.err = true) :
    executeCommand s = .next s.complete := by
  simp [executeCommand, he]

/-- Settles O26: NOP is the command cycle's completion and nothing else, and so is a dropped word. -/
theorem nopRule : Obligations.NopRule :=
  ⟨decodesAs_onlyOp .nop (fun _ => rfl) fun _ => zeroFields_iff_onlyOp, fun _ => rfl,
    fun _ => executeCommand_halted⟩

theorem exec_cfg_of_style {c : BitVec 2} {S : Style} (hc : styleOfCode c = some S) (d : Bool)
    (s : State) : exec (.cfg c d) s = .next (s.configure S d).complete := by
  simp [exec, execCfg, hc]

/-- Settles O27: the selector names the style that CFG re-initialises the core with, and 3 names none. -/
theorem cfgRule : Obligations.CfgRule := by
  refine ⟨decodesAs_of_row (Opcode.ofByte_code .cfg) fun f => ?_, fun s c d S hc => ?_, fun _ _ => rfl⟩
  · rw [cfg_operands]
    by_cases hrange : f.sel.toNat ≤ 2 ∧ f.idx.toNat ≤ 1 <;>
      simp [Opcode.reservedZero, hrange, ← and_assoc]
  · have hS : styleOfCode c = some S := by
      obtain ⟨rfl, rfl⟩ | ⟨rfl, rfl⟩ | ⟨rfl, rfl⟩ := hc <;> rfl
    exact exec_cfg_of_style hS d s

theorem exec_pld_of_fits {s : State} {v : Word} (h : v.toNat < 2 ^ width s.style) :
    exec (.pld v) s = .next (s.setPoly v).complete := by
  simp [exec, execPld, fits_iff, h]

/-- A value at or above 2^W breaks PLD's contract (60_exceptions.md R119). -/
theorem brokenContract_pld {s : State} {v : Word} (h : 2 ^ width s.style ≤ v.toNat) :
    brokenContract (.pld v) s = some v :=
  if_pos h

/-- Settles O28: both write POLY and invalidate the tables, PLD past its contract check. -/
theorem pclrAndPldRules : Obligations.PclrAndPldRules := by
  refine ⟨decodesAs_onlyOp .pclr (fun _ => rfl) fun _ => zeroFields_iff_onlyOp,
    decodesAs_of_row (Opcode.ofByte_code .pld) fun f => ?_, fun _ => rfl, fun s v h => ?_,
    fun s v h => exec_pld_of_fits h⟩
  · simp [Opcode.reservedZero, Opcode.operands, and_assoc]
  · exact exec_contract (by simp [needsDbg]) rfl (brokenContract_pld h)

/-- An exponent at or above W breaks PEXP's contract (60_exceptions.md R119). -/
theorem brokenContract_pexp {s : State} {e : Byte} (h : width s.style ≤ e.toNat) :
    brokenContract (.pexp e) s = some (e.setWidth 32) :=
  if_pos h

/-- Settles O29: below W the bit of the exponent is added to POLY, and the tables are invalidated. -/
theorem pexpRule : Obligations.PexpRule := by
  refine ⟨decodesAs_of_row (Opcode.ofByte_code .pexp) fun f => ?_, fun s e h => ?_,
    fun s e h => ⟨s.poly ||| (1#32 <<< e.toNat), exec_pexp_below h, fun k hk => ?_⟩⟩
  · simp [Opcode.reservedZero, Opcode.operands, and_assoc]
  · exact exec_contract (by simp [needsDbg]) rfl (brokenContract_pexp h)
  · rw [Bool.eq_iff_iff, getLsbD_or_bit s.poly hk, Bool.or_eq_true, beq_iff_eq, eq_comm (a := k)]

end Sys2Proof.Machine

/-! The mirror as an involution of the W-bit values, and PREV (40_config_polynomial.md R72, R78). -/

namespace Sys2Proof.Machine

/-- Bit W - 1 - k of the mirror of a W-bit value is bit k. -/
theorem getLsbD_reverse_mirror {S : Style} {v : Word} (hv : v.toNat < 2 ^ width S) {k : Nat}
    (hk : k < width S) : (reverse S v).getLsbD (width S - 1 - k) = v.getLsbD k := by
  rw [getLsbD_reverse hv (by omega), show width S - 1 - (width S - 1 - k) = k by omega]

/-- W-bit values with the same W bits are equal. -/
theorem eq_of_fits_of_bits {S : Style} {v w : Word} (hv : v.toNat < 2 ^ width S)
    (hw : w.toNat < 2 ^ width S) (h : ∀ k < width S, v.getLsbD k = w.getLsbD k) : v = w := by
  refine BitVec.eq_of_getLsbD_eq fun k hk => ?_
  by_cases hlt : k < width S
  · exact h k hlt
  · rw [BitVec.getLsbD_eq_getElem hk, BitVec.getLsbD_eq_getElem hk,
      bit_of_fits hv hk (by omega), bit_of_fits hw hk (by omega)]

/-- The mirror of the mirror has bit k where the value has it. -/
theorem reverse_reverse {S : Style} {v : Word} (hv : v.toNat < 2 ^ width S) :
    reverse S (reverse S v) = v :=
  eq_of_fits_of_bits (reverse_lt S _) hv fun k hk => by
    rw [getLsbD_reverse (reverse_lt S v) hk, getLsbD_reverse_mirror hv hk]

/-- Settles O31: the mirror, bit by bit, and that it is its own inverse. -/
theorem reverseIsTheMirror : Obligations.ReverseIsTheMirror := by
  intro S v hv
  have hzero : reverse S 0 = 0 := by cases S <;> rfl
  exact ⟨fun _ => getLsbD_reverse_mirror hv, reverse_reverse hv, hzero⟩

/-- Settles O30: PREV writes REVPOLY to POLY, which is the mirror of POLY. -/
theorem prevRule : Obligations.PrevRule :=
  ⟨decodesAs_onlyOp .prev (fun _ => rfl) fun _ => zeroFields_iff_onlyOp,
    fun s hs => ⟨s.revPoly, rfl, reverse_lt s.style s.poly, fun _ => getLsbD_reverse_mirror hs⟩⟩

end Sys2Proof.Machine

/-! The value registers: WRREG, and XIX and XFX (40_config_polynomial.md R79 to R81). -/

namespace Sys2Proof.Machine

theorem exec_wrreg_of_fits {s : State} {r : ValueReg} {v : Word} (hv : v.toNat < 2 ^ width s.style)
    (h0 : r = .refState → v ≠ 0) : exec (.wrreg r v) s = .next (s.writeReg r v).complete := by
  rw [exec, execWrreg, if_pos (regFits_iff.2 ⟨hv, h0⟩)]

/-- A value at or above 2^W, or 0 for REFSTATE, breaks WRREG's contract (60_exceptions.md R119). -/
theorem brokenContract_wrreg_of_unfit {s : State} {r : ValueReg} {v : Word}
    (h : 2 ^ width s.style ≤ v.toNat ∨ (r = .refState ∧ v = 0)) :
    brokenContract (.wrreg r v) s = some v := by
  rw [brokenContract_wrreg, if_neg]
  rw [regFits_iff]
  rintro ⟨hv, h0⟩
  obtain h | ⟨hr, rfl⟩ := h
  · omega
  · exact h0 hr rfl

/-- Settles O32: the selector names the register, and the value is written to it past the contract check. -/
theorem wrregRule : Obligations.WrregRule := by
  refine ⟨decodesAs_of_row (Opcode.ofByte_code .wrreg) fun f => ?_, fun s r v h => ?_, fun s v h => ?_⟩
  · simp only [Opcode.reservedZero, Opcode.operands, valueReg_ofByte, Bool.and_eq_true, beq_iff_eq]
    split_ifs <;> rfl
  · exact exec_contract (by simp [needsDbg]) rfl (brokenContract_wrreg_of_unfit h)
  · exact ⟨exec_wrreg_of_fits h nofun, exec_wrreg_of_fits h nofun, exec_wrreg_of_fits h nofun,
      fun h0 => exec_wrreg_of_fits h fun _ => h0⟩

/-- Settles O33: each XORs a register that it leaves alone into STATE, so it undoes itself. -/
theorem xixXfxRules : Obligations.XixXfxRules := by
  refine ⟨decodesAs_onlyOp .xix (fun _ => rfl) fun _ => zeroFields_iff_onlyOp,
    decodesAs_onlyOp .xfx (fun _ => rfl) fun _ => zeroFields_iff_onlyOp, fun _ => rfl, fun _ => rfl,
    fun s t u h => ?_⟩
  obtain ⟨ht, hu⟩ | ⟨ht, hu⟩ := h
  all_goals
    cases ht
    cases hu
    simp

end Sys2Proof.Machine

/-! BUILDF, the forward table as a linear map, and its index part (41_forward_table.md R86 to R88). -/

namespace Sys2Proof.Machine

/-! The stored entry (R86) and BUILDF (R87). -/

theorem toNat_mask (S : Style) : (mask S).toNat = 2 ^ width S - 1 := by
  cases S <;> rfl

/-- An AND with M_W reduces mod 2^W (00_scope.md R9). -/
theorem toNat_and_mask (S : Style) (v : Word) : (v &&& mask S).toNat = v.toNat % 2 ^ width S := by
  rw [BitVec.toNat_and, toNat_mask, Nat.and_two_pow_sub_one_eq_mod]

theorem toNat_fwdEntry (S : Style) (poly : Word) (n : Nat) :
    (fwdEntry S poly n).toNat = fwdRaw S poly n % 2 ^ width S := by
  have hw : 2 ^ width S ≤ 2 ^ 32 := by cases S <;> decide
  have hlt : fwdRaw S poly n % 2 ^ width S < 2 ^ width S := Nat.mod_lt _ (Nat.two_pow_pos _)
  rw [fwdEntry, toNat_mask, Nat.and_two_pow_sub_one_eq_mod, BitVec.toNat_ofNat,
    Nat.mod_eq_of_lt (by omega)]

/-- Settles O34: BUILDF's completion is the definition; its table reads `fwd_S(n) & M_W` at every n below 256. -/
theorem buildfRule : Obligations.BuildfRule := by
  refine ⟨decodesAs_onlyOp .buildf (fun _ => rfl) fun _ => zeroFields_iff_onlyOp,
    fun s => ⟨forwardTable s.style s.poly, rfl, fun n hn => ?_, fun n hn => ?_⟩⟩
  · exact ⟨_, by rw [read_forwardTable, if_pos hn], toNat_fwdEntry _ _ _⟩
  · rw [read_forwardTable, if_neg (by omega)]

/-! Linearity (R88): one step of each simulation is linear in the register and the byte, so the eight are. -/

theorem fwdStepR16_xor (q n m c d k : Nat) :
    fwdStepR16 q (n ^^^ m) (c ^^^ d) k = fwdStepR16 q n c k ^^^ fwdStepR16 q m d k := by
  refine Nat.eq_of_testBit_eq fun j => ?_
  simp only [Nat.testBit_xor, testBit_fwdStepR16]
  grind

theorem fwdStepN16_xor (p n m c d k : Nat) :
    fwdStepN16 p (n ^^^ m) (c ^^^ d) k = fwdStepN16 p n c k ^^^ fwdStepN16 p m d k := by
  refine Nat.eq_of_testBit_eq fun j => ?_
  simp only [Nat.testBit_xor, testBit_fwdStepN16, Nat.shiftLeft_xor_distrib]
  grind

theorem fwdStepP32_xor (p c d : Nat) : fwdStepP32 p (c ^^^ d) = fwdStepP32 p c ^^^ fwdStepP32 p d := by
  refine Nat.eq_of_testBit_eq fun j => ?_
  simp only [Nat.testBit_xor, testBit_fwdStepP32]
  grind

theorem fwdPartial_xor (S : Style) (poly : Word) (n m k : Nat) :
    fwdPartial S poly (n ^^^ m) k = fwdPartial S poly n k ^^^ fwdPartial S poly m k := by
  induction k with
  | zero => cases S <;> simp [fwdPartial, Nat.shiftLeft_xor_distrib]
  | succ k ih =>
    cases S with
    | r16 => simp only [fwdPartial_r16_succ, ih, fwdStepR16_xor]
    | n16 => simp only [fwdPartial_n16_succ, ih, fwdStepN16_xor]
    | p32 => simp only [fwdPartial_p32_succ, ih, fwdStepP32_xor]

theorem fwdRaw_xor (S : Style) (poly : Word) (n m : Nat) :
    fwdRaw S poly (n ^^^ m) = fwdRaw S poly n ^^^ fwdRaw S poly m := by
  simp only [← fwdPartial_eight, fwdPartial_xor]

theorem fwdEntry_xor (S : Style) (poly : Word) (n m : Nat) :
    fwdEntry S poly (n ^^^ m) = fwdEntry S poly n ^^^ fwdEntry S poly m := by
  refine BitVec.eq_of_toNat_eq ?_
  simp only [BitVec.toNat_xor, toNat_fwdEntry, fwdRaw_xor, Nat.xor_mod_two_pow]

/-- A linear map takes 0 to 0. -/
theorem fwdEntry_zero (S : Style) (poly : Word) : fwdEntry S poly 0 = 0 := by
  have h := fwdEntry_xor S poly 0 0
  rwa [Nat.xor_self, BitVec.xor_self] at h

/-! The entry that shows the polynomial (R88): the byte's only 1 is fed in at the last of the eight steps. -/

/-- Seven steps feed in a 0 on an empty register, and the eighth adds REVPOLY. -/
theorem fwdRaw_r16_top (poly : Word) : fwdRaw .r16 poly 0x80 = (reverse .r16 poly).toNat := by
  simp [fwdRaw, fwdStepR16, List.range']

theorem fwdRaw_n16_one (poly : Word) : fwdRaw .n16 poly 1 = poly.toNat := by
  simp [fwdRaw, fwdStepN16, List.range']

/-- Seven steps move the preloaded 1 up to bit 31, and the eighth moves it out and adds POLY. -/
theorem fwdRaw_p32_one (poly : Word) : fwdRaw .p32 poly 1 = 2 ^ 32 ^^^ poly.toNat := by
  simp [fwdRaw, fwdStepP32, List.range']

theorem fwdEntry_r16_top (poly : Word) : fwdEntry .r16 poly 0x80 = reverse .r16 poly :=
  BitVec.eq_of_toNat_eq (by
    rw [toNat_fwdEntry, fwdRaw_r16_top, Nat.mod_eq_of_lt (reverse_lt .r16 poly)])

theorem fwdEntry_one {S : Style} {poly : Word} (hp : poly.toNat < 2 ^ width S) (hS : S ≠ .r16) :
    fwdEntry S poly 1 = poly := by
  refine BitVec.eq_of_toNat_eq ?_
  rw [toNat_fwdEntry]
  cases S with
  | r16 => exact absurd rfl hS
  | n16 => rw [fwdRaw_n16_one, Nat.mod_eq_of_lt hp]
  | p32 =>
    rw [fwdRaw_p32_one, Nat.xor_mod_two_pow, Nat.mod_eq_of_lt hp]
    simp [width]

/-- Settles O35: entry 0 and the XOR rule from the steps' linearity, the last entry by its one feedback step. -/
theorem forwardTableIsLinear : Obligations.ForwardTableIsLinear := fun S poly hp =>
  ⟨fwdEntry_zero S poly, fun a b _ _ => fwdEntry_xor S poly a b, fwdEntry_r16_top poly, fwdEntry_one hp⟩

/-! The truncation of the stored entry (R86). -/

/-- The state moved by one byte, before the entry is added (42_engine.md R90). -/
def shiftedState (S : Style) (x : Word) : Nat :=
  match S with
  | .r16 => x.toNat >>> 8
  | .n16 | .p32 => x.toNat <<< 8

/-- Mod 2^W the bits that a word's shift drops above bit 31 do not count. -/
theorem toNat_shiftLeft_xor_mod (S : Style) (x e : Word) (k : Nat) :
    (x <<< k ^^^ e).toNat % 2 ^ width S = (x.toNat <<< k ^^^ e.toNat) % 2 ^ width S := by
  have hw : width S ≤ 32 := by cases S <;> decide
  rw [BitVec.toNat_xor, BitVec.toNat_shiftLeft, Nat.xor_mod_two_pow,
    Nat.mod_mod_of_dvd _ (Nat.pow_dvd_pow 2 hw), ← Nat.xor_mod_two_pow]

/-- advance is an XOR mod 2^W of the moved state and the entry. -/
theorem toNat_advanceWith (S : Style) (x e : Word) :
    (advanceWith S x e).toNat = (shiftedState S x ^^^ e.toNat) % 2 ^ width S := by
  cases S with
  | r16 => exact toNat_and_mask .r16 _
  | n16 => exact (toNat_and_mask .n16 _).trans (toNat_shiftLeft_xor_mod .n16 x e 8)
  | p32 => exact (toNat_and_mask .p32 _).trans (toNat_shiftLeft_xor_mod .p32 x e 8)

/-- Settles O36: mod 2^W the XOR sees only the low W bits of the entry, which truncation keeps. -/
theorem truncationIsUnobservable : Obligations.TruncationIsUnobservable := by
  intro S poly x n _ _
  rw [toNat_advanceWith, toNat_fwdEntry, Nat.xor_mod_two_pow, Nat.mod_mod, ← Nat.xor_mod_two_pow]
  cases S <;> rfl

/-! The index part without the x^0 term (R88, 43_inverse_table.md R105). -/

/-- Without the x^0 term in p nothing enters bit 0. -/
theorem DivisionRegister.low_bit_clear {W : Nat} {p msg : Nat → Bool} {r : Nat → Nat → Bool}
    (h : DivisionRegister W p msg r) (hW : 0 < W) (h0 : p 0 = false) (k : Nat) : r (k + 1) 0 = false := by
  simp [h.step k 0 hW, h0]

/-- Without the x^0 term one bit of the index part is 0 in every entry. -/
theorem testBit_closedIndex_of_no_constant_term {S : Style} {poly : Word} (hp : poly.toNat < 2 ^ width S)
    (h0 : poly.getLsbD 0 = false) (n : Nat) :
    (closedIndex S (fwdEntry S poly n)).testBit (indexBit S 0) = false := by
  have hW : 0 < width S := by cases S <;> decide
  rw [← registerBit_eight S poly n (by decide)]
  exact (divisionRegister S hp n).low_bit_clear hW h0 7

/-- An injective index part takes every value, also one with that bit set, so POLY has the x^0 term. -/
theorem constant_term_of_indexInjective {S : Style} {poly : Word} (hp : poly.toNat < 2 ^ width S)
    (h : indexInjective S (forwardTable S poly)) : poly.getLsbD 0 = true := by
  have hbit : 2 ^ indexBit S 0 < 256 := by cases S <;> decide
  obtain ⟨n, hn, hindex⟩ := index_surjective (bounded_forwardTable S poly) h hbit
  rw [entry_forwardTable S poly hn] at hindex
  by_contra h0
  have hclear := testBit_closedIndex_of_no_constant_term hp (by simpa using h0) n
  rw [hindex, Nat.testBit_two_pow_self] at hclear
  cases hclear

/-- Settles O37: the x^0 term makes the index part injective, and an injective index part needs it. -/
theorem indexPartBijectiveIffConstantTerm : Obligations.IndexPartBijectiveIffConstantTerm := fun _ _ hp =>
  ⟨constant_term_of_indexInjective hp, indexInjective_forwardTable hp⟩

end Sys2Proof.Machine

/-! The update formulas of the engine on naturals, and the commands ADV and RET (42_engine.md R90 to R94). -/

namespace Sys2Proof.Machine

/-! The formulas of R90 and R92. -/

/-- The place of the removed byte in the result: the end of the register that an advance shifts out (R92). -/
def edgeShift : Style → Nat
  | .r16 => 0
  | .n16 => 8
  | .p32 => 24

/-- The byte at its place loses no bit above bit 31. -/
theorem toNat_edgeByte (S : Style) (b : Byte) :
    (b.setWidth 32 <<< edgeShift S).toNat = b.toNat <<< edgeShift S := by
  have hb := b.isLt
  rw [BitVec.toNat_shiftLeft, BitVec.toNat_setWidth_of_le (by decide), Nat.shiftLeft_eq]
  cases S <;> exact Nat.mod_eq_of_lt (by simp only [edgeShift]; omega)

theorem edgeByte_lt (S : Style) (b : Byte) : b.toNat <<< edgeShift S < 2 ^ width S := by
  have hb := b.isLt
  rw [Nat.shiftLeft_eq]
  cases S <;> simp only [edgeShift, width] <;> omega

/-- The state moved back by one byte, before the entry and the byte are added (R92). -/
def shiftedBack (S : Style) (v : Word) : Nat :=
  match S with
  | .r16 => v.toNat <<< 8
  | .n16 | .p32 => v.toNat >>> 8

/-- retreat is an XOR mod 2^W of the state moved back, the entry and the byte. -/
theorem toNat_retreatWith (S : Style) (v : Word) (b : Byte) (e : Word) :
    (retreatWith S v b e).toNat =
      (shiftedBack S v ^^^ e.toNat ^^^ b.toNat <<< edgeShift S) % 2 ^ width S := by
  rw [← toNat_edgeByte, Nat.xor_assoc, ← BitVec.toNat_xor]
  cases S with
  | r16 =>
    rw [edgeShift, BitVec.shiftLeft_zero, shiftedBack, ← toNat_shiftLeft_xor_mod, ← BitVec.xor_assoc]
    exact toNat_and_mask .r16 _
  | n16 =>
    rw [shiftedBack, ← BitVec.toNat_ushiftRight, ← BitVec.toNat_xor, ← BitVec.xor_assoc]
    exact toNat_and_mask .n16 _
  | p32 =>
    rw [shiftedBack, ← BitVec.toNat_ushiftRight, ← BitVec.toNat_xor, ← BitVec.xor_assoc]
    exact toNat_and_mask .p32 _

/-- Settles O40: advance and retreat are XORs mod 2^W, and the mask of the formulas is that remainder. -/
theorem updateFormulasOnNaturals : Obligations.UpdateFormulasOnNaturals := by
  intro ft it x b
  have hb : (b.setWidth 32).toNat = b.toNat := BitVec.toNat_setWidth_of_le (by decide)
  have hff : BitVec.toNat (0xFF : Word) = 0xFF := rfl
  have h16 (n : Nat) : n &&& 0xFFFF = n % 2 ^ 16 := Nat.and_two_pow_sub_one_eq_mod n 16
  have h32 (n : Nat) : n &&& 0xFFFFFFFF = n % 2 ^ 32 := Nat.and_two_pow_sub_one_eq_mod n 32
  simp only [advance, retreat, toNat_advanceWith, toNat_retreatWith, shiftedState, shiftedBack, edgeShift,
    width, fwdIndex, rindex, BitVec.toNat_and, BitVec.toNat_xor, BitVec.toNat_ushiftRight, hb, hff, h16, h32,
    Nat.shiftLeft_zero, and_self]

/-- The removed byte enters the result by XOR, at its place alone. -/
theorem retreat_other_byte (S : Style) (it : Memory) (v : Word) (b b' : Byte) :
    retreat S it v b' = retreat S it v b ^^^ (b ^^^ b').setWidth 32 <<< edgeShift S := by
  refine BitVec.eq_of_toNat_eq ?_
  have hbyte : (b ^^^ b').toNat <<< edgeShift S =
      (b.toNat <<< edgeShift S ^^^ b'.toNat <<< edgeShift S) % 2 ^ width S := by
    rw [← Nat.shiftLeft_xor_distrib, ← BitVec.toNat_xor, Nat.mod_eq_of_lt (edgeByte_lt S _)]
  rw [retreat, retreat, BitVec.toNat_xor, toNat_edgeByte, toNat_retreatWith, toNat_retreatWith, hbyte,
    ← Nat.xor_mod_two_pow, Nat.xor_assoc _ _ (_ ^^^ _), ← Nat.xor_assoc (b.toNat <<< _), Nat.xor_self,
    Nat.zero_xor]

/-! ADV (R93). -/

theorem advance_lt (S : Style) (ft : Memory) (x : Word) (b : Byte) : (advance S ft x b).toNat < 2 ^ width S :=
  advanceWith_lt S x _

theorem exec_adv_of_full {s : State} (hv : s.fwdValid = true) (hf : Memory.full s.ft = true) (b : Byte) :
    exec (.adv b) s = .next (s.setState (advance s.style s.ft s.state b)).complete := by
  simp [exec, execAdv, hv, Memory.read_eq_entry hf (fwdIndex_lt _ _ _), advance]

/-- On a built table advance adds the entry that `fwd_S` gives (41_forward_table.md R86). -/
theorem advance_forwardTable (S : Style) (poly x : Word) (b : Byte) :
    advance S (forwardTable S poly) x b = advanceWith S x (fwdEntry S poly (fwdIndex S x b)) := by
  rw [advance, entry_forwardTable S poly (fwdIndex_lt S x b)]

/-- The state 0 and the byte 0 read entry 0 of a built table, which is 0. -/
theorem advance_forwardTable_zero (S : Style) (poly : Word) : advance S (forwardTable S poly) 0 0 = 0 := by
  have hindex : fwdIndex S 0 0 = 0 := by cases S <;> rfl
  rw [advance_forwardTable, hindex, fwdEntry_zero]
  cases S <;> rfl

/-- Settles O38: ADV's row, its prerequisite, its one entry read, and advance's mask and entry 0. -/
theorem advRule : Obligations.AdvRule := by
  refine ⟨decodesAs_of_row (Opcode.ofByte_code .adv) fun f => ?_, fun s b hv => ?_,
    fun s b hv hf => exec_adv_of_full hv hf b, advance_lt, advance_forwardTable_zero⟩
  · simp [Opcode.reservedZero, Opcode.operands, and_assoc]
  · exact exec_notReady (by simp [needsDbg]) hv

/-! RET (R94). -/

theorem exec_ret_of_full {s : State} (hv : s.invValid = true) (hf : Memory.full s.it = true) (b : Byte) :
    exec (.ret b) s = .next (s.setState (retreat s.style s.it s.state b)).complete := by
  simp [exec, execRet, hv, Memory.read_eq_entry hf (rindex_lt _ _), retreat]

/-- Entry 0 of a built table is 0, so entry 0 of its closed form is 0, which the state 0 and the byte 0 read. -/
theorem retreat_zero_of_closedForm {S : Style} {poly : Word} {it : Memory}
    (h : closedForm S (forwardTable S poly) it) : retreat S it 0 0 = 0 := by
  have hentry := entry_of_closedForm h (i := 0) (by decide)
  rw [entry_forwardTable S poly (by decide), fwdEntry_zero] at hentry
  have hindex : rindex S 0 = closedIndex S 0 := by cases S <;> rfl
  rw [retreat, hindex, hentry]
  cases S <;> rfl

/-- Settles O39: RET's row, its prerequisite, its one entry read, the byte's place in the XOR, and entry 0. -/
theorem retRule : Obligations.RetRule := by
  refine ⟨decodesAs_of_row (Opcode.ofByte_code .ret) fun f => ?_, fun s b hv => ?_,
    fun s b hv hf => exec_ret_of_full hv hf b, fun it v b b' => ⟨?_, ?_, ?_⟩,
    fun S poly it => retreat_zero_of_closedForm⟩
  · simp [Opcode.reservedZero, Opcode.operands, and_assoc]
  · exact exec_notReady (by simp [needsDbg]) hv
  · simpa [edgeShift] using retreat_other_byte .r16 it v b b'
  · exact retreat_other_byte .n16 it v b b'
  · exact retreat_other_byte .p32 it v b b'

end Sys2Proof.Machine

/-! The round trip of validated tables and what follows from it for single bytes and for streams (42_engine.md
R95, R96, R98). -/

namespace Sys2Proof.Machine

/-- Settles O41: phase 2 and the certificate both give the closed form, which undoes every advance. -/
theorem roundTripOfValidatedTables : Obligations.RoundTripOfValidatedTables := by
  refine ⟨fun s t hs h _ herr => ?_, fun s hs hc hd hv => ?_⟩
  · obtain ⟨-, rfl⟩ | ⟨-, -, ⟨hpass, rfl⟩ | ⟨_, _, -, rfl⟩⟩ := execBuildi_next h
    · cases herr
    · have hclosed := closedForm_patchTable hs.refState_fits hs.ft_bounded hpass
      simpa using roundTrips_of_closedForm hs.ft_bounded (bounded_patchTable _ _ _) hclosed
    · cases herr
  · exact roundTrips_of_closedForm hs.ft_bounded hs.it_bounded ((hc hd).2 hv)

/-- A left inverse on the finite set of W-bit states makes advance injective, and so a bijection (R96). -/
theorem bijOn_advance {S : Style} {ft it : Memory} (h : roundTrips S ft it) (b : Byte) :
    Set.BijOn (fun x => advance S ft x b) {x : Word | x.toNat < 2 ^ width S}
      {x : Word | x.toNat < 2 ^ width S} := by
  have hleft : Set.LeftInvOn (fun v => retreat S it v b) (fun x => advance S ft x b)
      {x : Word | x.toNat < 2 ^ width S} := fun x hx => h x b hx
  exact ((Set.toFinite _).injOn_iff_bijOn_of_mapsTo fun x _ => advance_lt S ft x b).1 hleft.injOn

/-- Settles O42: every W-bit value is some advance of b, whose retreat gives the state it came from. -/
theorem advanceIsABijection : Obligations.AdvanceIsABijection := by
  refine fun S ft it h b => ⟨bijOn_advance h b, fun v hv => ?_⟩
  obtain ⟨x, hx, rfl⟩ := (bijOn_advance h b).surjOn hv
  exact congrArg (advance S ft · b) (h x b hx)

theorem feed_cons (S : Style) (ft : Memory) (x : Word) (b : Byte) (bs : List Byte) :
    feed S ft x (b :: bs) = feed S ft (advance S ft x b) bs := rfl

theorem unfeed_cons (S : Style) (it : Memory) (x : Word) (b : Byte) (bs : List Byte) :
    unfeed S it x (b :: bs) = retreat S it (unfeed S it x bs) b := by
  simp [unfeed]

/-- By induction on the stream: its later bytes come off first and leave the state after its first byte. -/
theorem unfeed_feed {S : Style} {ft it : Memory} (h : roundTrips S ft it) (bs : List Byte) {x : Word}
    (hx : x.toNat < 2 ^ width S) : unfeed S it (feed S ft x bs) bs = x := by
  induction bs generalizing x with
  | nil => rfl
  | cons b bs ih => rw [feed_cons, unfeed_cons, ih (advance_lt S ft x b), h x b hx]

/-- Settles O43: the stream by induction, the check values by evaluating the nine entries they read. -/
theorem streamsReturnToTheirStart : Obligations.StreamsReturnToTheirStart := by
  refine ⟨fun S ft it h bs x hx => unfeed_feed h bs hx, ?_, ?_, ?_⟩
  all_goals
    simp only [feed, List.foldl_cons, List.foldl_nil, advance_forwardTable]
    decide

end Sys2Proof.Machine

/-! The boundary constants (10_state.md R22, 42_engine.md R97). -/

namespace Sys2Proof.Machine

/-- Every next state that r answers is answered by r' too, but for INITXOR and FINALXOR. -/
def SameButConstants (r r' : Result) : Prop :=
  ∀ t, r = .next t → ∃ u, r' = .next u ∧ u = { t with initXor := u.initXor, finalXor := u.finalXor }

theorem sameButConstants_next {t u : State}
    (h : u = { t with initXor := u.initXor, finalXor := u.finalXor }) :
    SameButConstants (.next t) (.next u) := by
  rintro _ ⟨⟩
  exact ⟨u, rfl, h⟩

theorem sameButConstants_fault (f : Fault) (r : Result) : SameButConstants (.fault f) r :=
  fun _ h => nomatch h

theorem sameButConstants_ite {c : Prop} [Decidable c] {r₁ r₂ r₁' r₂' : Result}
    (h₁ : SameButConstants r₁ r₁') (h₂ : SameButConstants r₂ r₂') :
    SameButConstants (if c then r₁ else r₂) (if c then r₁' else r₂') := by
  split
  · exact h₁
  · exact h₂

/-- The read of one table entry, whose value the rest of the command uses. -/
theorem sameButConstants_entry (o : Option Word) {f f' : Word → State}
    (h : ∀ e, f' e = { f e with initXor := (f' e).initXor, finalXor := (f' e).finalXor }) :
    SameButConstants
      (match o with | none => .fault .tableEntryAbsent | some e => .next (f e))
      (match o with | none => .fault .tableEntryAbsent | some e => .next (f' e)) := by
  cases o with
  | none => exact sameButConstants_fault _ _
  | some e => exact sameButConstants_next (h e)

/-- No check of a command and no table that a builder makes reads INITXOR or FINALXOR, so both runs take the
same branch; there each update writes the same values, or the constants themselves. -/
theorem exec_sameButConstants {i : Instr} (hx : i ≠ .xix) (hf : i ≠ .xfx) (s : State) (x y : Word) :
    SameButConstants (exec i s) (exec i { s with initXor := x, finalXor := y }) := by
  have hraise (e : ErrorCode) (a b c : Word) :
      SameButConstants (.next (raise e a b c s))
        (.next (raise e a b c { s with initXor := x, finalXor := y })) := sameButConstants_next rfl
  cases i with
  | xix => exact absurd rfl hx
  | xfx => exact absurd rfl hf
  | nop | pclr | prev | buildf => exact sameButConstants_next rfl
  | cfg c d =>
    simp only [exec, execCfg]
    split <;> exact sameButConstants_next rfl
  | pexp => exact sameButConstants_ite (hraise _ _ _ _) (sameButConstants_next rfl)
  | pld => exact sameButConstants_ite (sameButConstants_next rfl) (hraise _ _ _ _)
  | wrreg r =>
    refine sameButConstants_ite (sameButConstants_next ?_) (hraise _ _ _ _)
    cases r <;> rfl
  | adv | ret => exact sameButConstants_ite (sameButConstants_entry _ fun _ => rfl) (hraise _ _ _ _)
  | tabrd tb =>
    cases tb <;> exact sameButConstants_ite (sameButConstants_entry _ fun _ => rfl) (hraise _ _ _ _)
  | tabwr tb =>
    refine sameButConstants_ite (hraise _ _ _ _) (sameButConstants_ite (hraise _ _ _ _)
      (sameButConstants_ite (hraise _ _ _ _) (sameButConstants_next ?_)))
    cases tb <;> rfl
  | buildi =>
    refine sameButConstants_ite (sameButConstants_ite ?_ (sameButConstants_fault _ _)) (hraise _ _ _ _)
    dsimp only
    generalize patchTable s.style s.ft s.refState = it
    split <;> exact sameButConstants_next rfl
  | schk =>
    refine sameButConstants_ite (sameButConstants_ite ?_ (sameButConstants_fault _ _)) (hraise _ _ _ _)
    dsimp only
    split <;> exact sameButConstants_next rfl

/-- Settles O57: the next state of the other run is that of the first, but for the two constants. -/
theorem boundaryConstantsInfluenceNothingElse : Obligations.BoundaryConstantsInfluenceNothingElse :=
  fun _ s t x y hx hf h => exec_sameButConstants hx hf s x y t h

end Sys2Proof.Machine

/-! The inverse table builder on every full forward table (43_inverse_table.md R99 to R106). -/

namespace Sys2Proof.Machine

theorem State.complete_installInverse (s : State) (m : Memory) :
    (s.installInverse m).complete =
      { s with it := m, invValid := true, scPass := false, busy := false } := rfl

/-- Settles O44: phase 1 leaves the closed form, which phase 2 accepts. -/
theorem buildiSucceedsOnBijection : Obligations.BuildiSucceedsOnBijection := by
  intro s hv hfull hf hR hinj
  have hclosed := closedForm_patchTable_of_injective hR hf hinj
  refine ⟨_, ?_, hclosed, full_of_closedForm hf hclosed, wf_patchTable _ _ _⟩
  rw [exec_buildi_of_injective hv hfull hf hR hinj, State.complete_installInverse]

theorem allBytes_ascending : (allBytes.map BitVec.toNat).Pairwise (· < ·) := by
  rw [allBytes, List.map_map, List.pairwise_map]
  refine List.Pairwise.imp_of_mem (fun {m n} hm hn hlt => ?_) (List.pairwise_lt_range' ..)
  rw [List.mem_range'_1] at hm hn
  simp only [Function.comp_apply, BitVec.toNat_ofNat]
  omega

/-- The loop `for b in 0..255` meets every smaller byte first. -/
theorem mem_of_allBytes_eq_append_cons {before after : List Byte} {b c : Byte}
    (h : allBytes = before ++ b :: after) (hc : c.toNat < b.toNat) : c ∈ before := by
  have hsorted := allBytes_ascending
  have hmem := mem_allBytes c
  rw [h] at hsorted hmem
  simp only [List.map_append, List.map_cons, List.pairwise_append, List.pairwise_cons] at hsorted
  obtain ⟨-, ⟨hafter, -⟩, -⟩ := hsorted
  rcases List.mem_append.1 hmem with hbefore | hlater
  · exact hbefore
  · rcases List.mem_cons.1 hlater with rfl | hlater
    · exact absurd hc (lt_irrefl _)
    · exact absurd hc (hafter _ (List.mem_map_of_mem hlater)).not_gt

/-- What phase 2 reports is the first byte that does not come back to R, with its round trip (R101, R103). -/
theorem validate_eq_some {S : Style} {ft it : Memory} {R v : Word} {b : Byte}
    (h : validate S ft it R = some (v, b)) :
    v ≠ R ∧ v = retreat S it (advance S ft R b) b ∧
      ∀ c : Byte, c.toNat < b.toNat → retreat S it (advance S ft R c) c = R := by
  obtain ⟨before, a, after, hsplit, ha, hbefore⟩ := List.findSome?_eq_some_iff.1 h
  obtain ⟨hne, rfl, rfl⟩ : retreat S it (advance S ft R a) a ≠ R ∧
      retreat S it (advance S ft R a) a = v ∧ a = b := by simpa using ha
  exact ⟨hne, rfl, fun c hc => by simpa using hbefore c (mem_of_allBytes_eq_append_cons hsplit hc)⟩

theorem exec_buildi_of_mismatch {s : State} {v : Word} {b : Byte} (hv : s.fwdValid = true)
    (hfull : Memory.full s.ft = true)
    (h : validate s.style s.ft (patchTable s.style s.ft s.refState) s.refState = some (v, b)) :
    exec .buildi s = .next (raise .invVerify s.refState v (b.setWidth 32) s.withdrawInverse) := by
  simp [exec, execBuildi, hv, hfull, h]

/-- Phase 2 accepts phase 1's table exactly when the index part is injective (R105). -/
theorem validate_patchTable_eq_none_iff {S : Style} {ft : Memory} {R : Word}
    (hR : R.toNat < 2 ^ width S) (hf : tableBounded S ft) :
    validate S ft (patchTable S ft R) R = none ↔ indexInjective S ft :=
  ⟨fun h => injective_of_closedForm hf (closedForm_patchTable hR hf h), fun hinj =>
    (validate_iff hR hf (bounded_patchTable _ _ _)).2 fun _ =>
      entry_of_closedForm (closedForm_patchTable_of_injective hR hf hinj)⟩

/-- Settles O45: phase 2 finds a mismatch, since a table it accepts has an injective index part. -/
theorem buildiFailsOtherwise : Obligations.BuildiFailsOtherwise := by
  intro s hv hfull hf hR hninj
  obtain ⟨⟨v, b⟩, hfail⟩ := Option.ne_none_iff_exists'.1
    (mt (validate_patchTable_eq_none_iff hR hf).1 hninj)
  exact ⟨v, b, exec_buildi_of_mismatch hv hfull hfail, validate_eq_some hfail⟩

theorem Memory.read_eq_none_of_depth_le {m : Memory} (hm : Memory.wf m) {j : Nat} (hj : Config.tableDepth ≤ j) :
    Memory.read m j = none := by
  cases h : Memory.read m j with
  | none => rfl
  | some v => exact absurd (hm.2 _ (Memory.mem_of_read h)) hj.not_gt

/-- FT determines its closed form, whose index parts run over all of 0..255 (R104, R105). -/
theorem eq_of_closedForm {S : Style} {ft m n : Memory} (hf : tableBounded S ft) (hm : Memory.wf m)
    (hn : Memory.wf n) (hcm : closedForm S ft m) (hcn : closedForm S ft n) : m = n := by
  refine Memory.eq_of_read hm hn fun j => ?_
  rcases lt_or_ge j Config.tableDepth with hj | hj
  · obtain ⟨i, hi, rfl⟩ := index_surjective hf (injective_of_closedForm hf hcm) hj
    rw [hcm i hi, hcn i hi]
  · rw [Memory.read_eq_none_of_depth_le hm hj, Memory.read_eq_none_of_depth_le hn hj]

/-- On an injective index part R cancels from the whole of phase 1's table (R106). -/
theorem patchTable_eq_of_injective {S : Style} {ft : Memory} {R R' : Word} (hR : R.toNat < 2 ^ width S)
    (hR' : R'.toNat < 2 ^ width S) (hf : tableBounded S ft) (hinj : indexInjective S ft) :
    patchTable S ft R = patchTable S ft R' :=
  eq_of_closedForm hf (wf_patchTable _ _ _) (wf_patchTable _ _ _)
    (closedForm_patchTable_of_injective hR hf hinj) (closedForm_patchTable_of_injective hR' hf hinj)

/-- A BUILDI that leaves INV_VALID = 1 has completed: a fault clears the flag, or finds it 0. -/
theorem completed_of_exec_buildi {s t : State} (hs : StateInv s) (h : exec .buildi s = .next t)
    (ht : t.invValid = true) :
    s.fwdValid = true ∧ indexInjective s.style s.ft ∧
      t = (s.installInverse (patchTable s.style s.ft s.refState)).complete := by
  obtain ⟨hv, rfl⟩ | ⟨hv, -, ⟨hpass, rfl⟩ | ⟨_, _, -, rfl⟩⟩ := execBuildi_next h
  · cases hv.symm.trans (hs.inv_fwd ht)
  · exact ⟨hv, (validate_patchTable_eq_none_iff hs.refState_fits hs.ft_bounded).1 hpass, rfl⟩
  · cases ht

/-- Settles O46: whether BUILDI completes turns on FT's index part alone, and the table it installs is FT's
only closed form. -/
theorem buildiIndependentOfReference : Obligations.BuildiIndependentOfReference := by
  intro s t r hs hr h ht
  obtain ⟨hv, hinj, rfl⟩ := completed_of_exec_buildi hs h ht
  have hother : exec .buildi { s with refState := r } =
      .next (State.installInverse { s with refState := r } (patchTable s.style s.ft r)).complete :=
    exec_buildi_of_injective (s := { s with refState := r }) hv (hs.ft_full hv) hs.ft_bounded hr hinj
  rw [hother, patchTable_eq_of_injective hr hs.refState_fits hs.ft_bounded hinj,
    State.complete_installInverse, State.complete_installInverse]

end Sys2Proof.Machine

/-! The order in which the self-check visits its states (44_selfcheck.md R108, R109). -/

namespace Sys2Proof.Machine

/-- Position n * i + j of a list of blocks of length n is position j of block i. -/
theorem getElem?_flatMap_of_length {α β : Type} {f : α → List β} {n : Nat} (hf : ∀ a, (f a).length = n)
    (l : List α) (i : Nat) {j : Nat} (hj : j < n) :
    (l.flatMap f)[n * i + j]? = l[i]?.bind fun a => (f a)[j]? := by
  induction l generalizing i with
  | nil => simp
  | cons a l ih =>
    rw [List.flatMap_cons]
    cases i with
    | zero => simp [List.getElem?_append_left, hf, hj]
    | succ i =>
      have hpos : n * (i + 1) + j - (f a).length = n * i + j := by
        rw [hf, Nat.mul_succ]
        omega
      rw [List.getElem?_append_right (by rw [hf, Nat.mul_succ]; omega), hpos, ih,
        List.getElem?_cons_succ]

/-- Settles O50: the states of width 16 are one ascending run, those of width 32 are 32 blocks of 32. -/
theorem testedStatesInOrder : Obligations.TestedStatesInOrder := by
  refine ⟨fun n hn => ?_, ?_, ?_, fun i j hi hj => ?_, ?_⟩
  · simp [testedStates, hn]
  · rw [testedStates, List.length_map, List.length_range']
  · rw [testedStates, List.length_map, List.length_range']
  · rw [testedStates, getElem?_flatMap_of_length (by simp) _ _ hj]
    simp [hi, hj]
  · simp [testedStates]

theorem testedStates_eq_cons (S : Style) : testedStates S = firstTested S :: (testedStates S).tail := by
  cases S <;> rfl

end Sys2Proof.Machine

/-! SCHK on tables that pass, and on tables that fail (44_selfcheck.md R107, R110, R111). -/

namespace Sys2Proof.Machine

/-- Settles O47: the closed form undoes every advance, so no tested pair fails. -/
theorem schkPassesOnBuiltTables : Obligations.SchkPassesOnBuiltTables := fun _ hs hv hclosed =>
  exec_schk_of_roundTrips hv (hs.ft_full (hs.inv_fwd hv)) (hs.it_full hv)
    (roundTrips_of_closedForm hs.ft_bounded hs.it_bounded hclosed)

/-- The loop `for b in 0..255` meets only smaller bytes before b. -/
theorem lt_of_allBytes_eq_append_cons {before after : List Byte} {b c : Byte}
    (h : allBytes = before ++ b :: after) (hc : c ∈ before) : c.toNat < b.toNat := by
  have hsorted := allBytes_ascending
  rw [h, List.map_append, List.pairwise_append] at hsorted
  obtain ⟨-, -, hlt⟩ := hsorted
  exact hlt _ (List.mem_map_of_mem hc) _ (List.mem_map_of_mem List.mem_cons_self)

/-- The self-check reports the first failing byte of the first failing state (R110). -/
theorem firstFailure_eq_some {S : Style} {ft it : Memory} {before after : List Word} {x : Word} {b : Byte}
    (hsplit : testedStates S = before ++ x :: after)
    (hstates : ∀ y ∈ before, ∀ c : Byte, retreat S it (advance S ft y c) c = y)
    (hbytes : ∀ c : Byte, c.toNat < b.toNat → retreat S it (advance S ft x c) c = x)
    (hfail : retreat S it (advance S ft x b) b ≠ x) :
    firstFailure S ft it = some (x, retreat S it (advance S ft x b) b, b) := by
  obtain ⟨smaller, larger, hb⟩ := List.append_of_mem (mem_allBytes b)
  refine List.findSome?_eq_some_iff.2 ⟨before, x, after, hsplit,
    List.findSome?_eq_some_iff.2 ⟨smaller, b, larger, hb, if_neg hfail, fun c hc => ?_⟩, fun y hy => ?_⟩
  · exact if_pos (hbytes c (lt_of_allBytes_eq_append_cons hb hc))
  · exact List.findSome?_eq_none_iff.2 fun c _ => if_pos (hstates y hy c)

theorem exec_schk_of_firstFailure {s : State} {x r : Word} {b : Byte} (hv : s.invValid = true)
    (hft : Memory.full s.ft = true) (hit : Memory.full s.it = true)
    (h : firstFailure s.style s.ft s.it = some (x, r, b)) :
    exec .schk s = .next (raise .selfCheck x r (b.setWidth 32) s.failCheck) := by
  simp [exec, execSchk, hv, hft, hit, h]

/-- Settles O48: the first failing pair of the loop is the one SCHK raises SELFCHECK with. -/
theorem schkReportsFirstFailure : Obligations.SchkReportsFirstFailure :=
  fun _ _ _ _ _ hv hft hit hsplit hstates hbytes hfail =>
    exec_schk_of_firstFailure hv hft hit (firstFailure_eq_some hsplit hstates hbytes hfail)

/-- Where byte b alone fails at the first tested state, SCHK reports that state and b. -/
theorem exec_schk_of_fails_at_firstTested {s : State} {b : Byte} (hv : s.invValid = true)
    (hft : Memory.full s.ft = true) (hit : Memory.full s.it = true)
    (h : ∀ c : Byte, retreat s.style s.it (advance s.style s.ft (firstTested s.style) c) c =
      firstTested s.style ↔ c ≠ b) :
    exec .schk s = .next (raise .selfCheck (firstTested s.style)
      (retreat s.style s.it (advance s.style s.ft (firstTested s.style) b) b) (b.setWidth 32)
      s.failCheck) :=
  exec_schk_of_firstFailure hv hft hit <|
    firstFailure_eq_some (before := []) (testedStates_eq_cons s.style) (fun _ hy => nomatch hy)
      (fun c hc => (h c).2 fun hcb => hc.ne (congrArg BitVec.toNat hcb)) fun hb => (h b).1 hb rfl

end Sys2Proof.Machine

/-! A built pair with one entry changed (44_selfcheck.md R111, second item). -/

namespace Sys2Proof.Machine

theorem Memory.entry_write_same (m : Memory) (i : Nat) (v : Word) :
    Memory.entry (Memory.write m i v) i = v := by
  rw [Memory.entry, Memory.read_write_same, Option.getD_some]

theorem Memory.entry_write_other (m : Memory) {i k : Nat} (v : Word) (h : k ≠ i) :
    Memory.entry (Memory.write m i v) k = Memory.entry m k := by
  rw [Memory.entry, Memory.read_write_other m i k v h, Memory.entry]

theorem firstTested_fits (S : Style) : (firstTested S).toNat < 2 ^ width S := by
  cases S <;> decide

/-- At the first tested state the byte is the FT index. -/
theorem fwdIndex_firstTested (S : Style) (b : Byte) : fwdIndex S (firstTested S) b = b.toNat := by
  have hff := xor_byte_and_ff 0#32 b
  rw [BitVec.setWidth_zero, BitVec.zero_xor] at hff
  have hbyte := congrArg BitVec.toNat hff
  rw [BitVec.toNat_setWidth_of_le (by decide)] at hbyte
  cases S <;> exact hbyte

/-- The reverse index after an advance is the index part of the FT entry it reads (42_engine.md R91). -/
theorem rindex_advance {S : Style} {ft : Memory} {x : Word} (b : Byte) (hx : x.toNat < 2 ^ width S)
    (hf : tableBounded S ft) :
    rindex S (advance S ft x b) = closedIndex S (Memory.entry ft (fwdIndex S x b)) :=
  rindex_advanceWith hx (entry_fits hf _)

section
variable {S : Style} {ft it : Memory} (hf : tableBounded S ft) (hi : tableBounded S it)
  (hclosed : closedForm S ft it)
include hf hclosed

/-- On an injective index part every index is the reverse index of exactly one byte's advance (R105). -/
theorem existsUnique_byte_of_rindex {x : Word} (hx : x.toNat < 2 ^ width S) {j : Nat} (hj : j < 256) :
    ∃ b : Byte, ∀ c : Byte, rindex S (advance S ft x c) = j ↔ c = b := by
  have hinj := injective_of_closedForm hf hclosed
  obtain ⟨i, hi, rfl⟩ := index_surjective hf hinj hj
  obtain ⟨b, rfl⟩ := exists_byte_of_index S x hi
  refine ⟨b, fun c => ⟨fun h => byte_of_index_unique (hinj _ (fwdIndex_lt ..) _ hi ?_), fun h => ?_⟩⟩
  · rwa [rindex_advance c hx hf] at h
  · rw [h, rindex_advance b hx hf]

/-- IT holds no closed-form entry of FT index k but that of FT[k] itself (R104). -/
theorem entry_ne_closedEntry_of_ne {k : Nat} (hk : k < 256) {v : Word} (hv : v.toNat < 2 ^ width S)
    (hne : v ≠ Memory.entry ft k) : Memory.entry it (closedIndex S v) ≠ closedEntry S k v := by
  intro h
  obtain ⟨i, hi, hindex⟩ := index_surjective hf (injective_of_closedForm hf hclosed) (closedIndex_lt hv)
  rw [← hindex, entry_of_closedForm hclosed hi] at h
  obtain rfl := closedEntry_index_unique hi hk (entry_fits hf _) hv h
  exact hne (entry_of_closed hi hv (entry_fits hf _) hindex.symm h.symm)

include hi

/-- With FT[k] changed, exactly the round trips whose advance reads FT[k] fail. -/
theorem roundTrip_write_ft_iff {k : Nat} (hk : k < 256) {v x : Word} (hv : v.toNat < 2 ^ width S)
    (hne : v ≠ Memory.entry ft k) (hx : x.toNat < 2 ^ width S) (b : Byte) :
    retreat S it (advance S (Memory.write ft k v) x b) b = x ↔ fwdIndex S x b ≠ k := by
  rw [roundTrip_iff hx (bounded_write hf k hv) hi]
  by_cases h : fwdIndex S x b = k
  · rw [h, Memory.entry_write_same]
    exact iff_of_false (entry_ne_closedEntry_of_ne hf hclosed hk hv hne) (not_not_intro rfl)
  · rw [Memory.entry_write_other ft v h]
    exact iff_of_true (entry_of_closedForm hclosed (fwdIndex_lt ..)) h

/-- The change of an IT entry shows in every retreat that reads it, and in no other. -/
theorem retreat_write_it {j : Nat} {v x : Word} (hv : v.toNat < 2 ^ width S)
    (hx : x.toNat < 2 ^ width S) (b : Byte) :
    retreat S (Memory.write it j v) (advance S ft x b) b =
      if rindex S (advance S ft x b) = j then x ^^^ (v ^^^ Memory.entry it j) else x := by
  split
  · next h =>
    have hentry : Memory.entry it j =
        closedEntry S (fwdIndex S x b) (Memory.entry ft (fwdIndex S x b)) := by
      rw [← h, rindex_advance b hx hf, entry_of_closedForm hclosed (fwdIndex_lt ..)]
    rw [retreat, h, Memory.entry_write_same, hentry, advance,
      retreatWith_advanceWith b hx (entry_fits hf _) hv]
    ac_rfl
  · next h =>
    rw [retreat, Memory.entry_write_other it v h]
    exact roundTrips_of_closedForm hf hi hclosed x b hx

theorem roundTrip_write_it_iff {j : Nat} {v x : Word} (hv : v.toNat < 2 ^ width S)
    (hne : v ≠ Memory.entry it j) (hx : x.toNat < 2 ^ width S) (b : Byte) :
    retreat S (Memory.write it j v) (advance S ft x b) b = x ↔ rindex S (advance S ft x b) ≠ j := by
  rw [retreat_write_it hf hi hclosed hv hx b]
  split
  · next h => simp [h, BitVec.xor_eq_zero_iff, hne]
  · next h => simp [h]

end

/-- Settles O49: at the first tested state exactly one byte reads the changed entry, so it alone fails. -/
theorem singleCorruptionIsReported : Obligations.SingleCorruptionIsReported := by
  intro s k v hs hv hclosed hfit
  have hft := hs.ft_full (hs.inv_fwd hv)
  have hit := hs.it_full hv
  have hx := firstTested_fits s.style
  refine ⟨fun hne => ?_, fun hne => ?_⟩
  · have hfails (c : Byte) := roundTrip_write_ft_iff hs.ft_bounded hs.it_bounded hclosed k.isLt hfit hne hx c
    simp only [fwdIndex_firstTested, ne_eq, BitVec.toNat_inj] at hfails
    exact ⟨_, mt (hfails k).1 (not_not_intro rfl), exec_schk_of_fails_at_firstTested
      (s := s.writeTable .ft k.toNat v) hv (Memory.full_write hft _ _) hit hfails⟩
  · obtain ⟨b, hb⟩ := existsUnique_byte_of_rindex hs.ft_bounded hclosed hx k.isLt
    have hfails (c : Byte) := roundTrip_write_it_iff hs.ft_bounded hs.it_bounded hclosed hfit hne hx c
    simp only [ne_eq, hb] at hfails
    have hreport := retreat_write_it hs.ft_bounded hs.it_bounded hclosed (j := k.toNat) hfit hx b
    rw [if_pos ((hb b).2 rfl)] at hreport
    refine ⟨b, (hb b).2 rfl, fun c => (hb c).1, ?_⟩
    rw [← hreport]
    exact exec_schk_of_fails_at_firstTested
      (s := s.writeTable .it k.toNat v) hv hft (Memory.full_write hit _ _) hfails

end Sys2Proof.Machine

/-! TABRD and TABWR: the table the selector names, one entry read, one entry written (45_table_access.md R112, R113). -/

namespace Sys2Proof.Machine

/-- The table selector names a table exactly for the two values of its row (30_encoding.md R60, R61). -/
theorem tableId_ofByte (b : Byte) :
    TableId.ofByte b = if b = 0 then some .ft else if b = 1 then some .it else none := by
  simp only [TableId.ofByte, List.find?_cons, List.find?_nil, TableId.code, beq_eq_decide,
    eq_comm (b := b)]
  split_ifs <;> simp_all

/-! TABRD (R112). -/

theorem exec_tabrd_of_full {s : State} {tb : TableId} (hv : s.tableValid tb = true)
    (hf : Memory.full (s.table tb) = true) (idx : Byte) :
    exec (.tabrd tb idx) s = .next (s.setResult (Memory.entry (s.table tb) idx.toNat)).complete := by
  simp [exec, execTabrd, hv, Memory.read_eq_entry hf idx.isLt]

/-- TABRD leaves a W-bit RESULT: the old one where it fails, an entry of a bounded table where it completes. -/
theorem exec_tabrd_result_fits {s t : State} {tb : TableId} {idx : Byte} (hs : StateInv s)
    (h : exec (.tabrd tb idx) s = .next t) : t.result.toNat < 2 ^ width t.style := by
  obtain ⟨-, rfl⟩ | ⟨-, e, he, rfl⟩ := execTabrd_next h
  · exact hs.result_fits
  · exact hs.table_bounded tb _ (Memory.mem_of_read he)

/-- Settles O51: TABRD's row, its prerequisite, its one entry read from either table, and the bound of RESULT. -/
theorem tabrdRule : Obligations.TabrdRule := by
  refine ⟨decodesAs_of_row (Opcode.ofByte_code .tabrd) fun f => ?_, fun s tb idx hv => ?_,
    fun s idx hv hf => exec_tabrd_of_full (tb := .ft) hv hf idx,
    fun s idx hv hf => exec_tabrd_of_full (tb := .it) hv hf idx,
    fun s t tb idx => exec_tabrd_result_fits⟩
  · simp only [Opcode.reservedZero, Opcode.operands, tableId_ofByte, Bool.and_eq_true, beq_iff_eq]
    split_ifs <;> rfl
  · exact exec_notReady (by simp [needsDbg]) ((prerequisite_tabrd tb idx s).trans hv)

/-! TABWR (R113). -/

theorem exec_tabwr_of_fits {s : State} {tb : TableId} {v : Word} (hd : s.dbg = true)
    (hv : s.tableValid tb = true) (hfit : v.toNat < 2 ^ width s.style) (idx : Byte) :
    exec (.tabwr tb idx v) s = .next (s.writeTable tb idx.toNat v).clearPass.complete := by
  simp [exec, execTabwr, hd, hv, fits_iff.2 hfit]

/-- A value at or above 2^W breaks TABWR's contract (60_exceptions.md R119). -/
theorem brokenContract_tabwr {s : State} {v : Word} (h : 2 ^ width s.style ≤ v.toNat) (tb : TableId)
    (idx : Byte) : brokenContract (.tabwr tb idx v) s = some v :=
  if_pos h

theorem State.table_writeTable (s : State) (tb tb' : TableId) (i : Nat) (v : Word) :
    (s.writeTable tb i v).table tb' =
      if tb = tb' then Memory.write (s.table tb') i v else s.table tb' := by
  cases tb <;> cases tb' <;> rfl

/-- A write changes one entry of the selected table and no entry of the other. -/
theorem State.read_table_writeTable (s : State) (tb tb' : TableId) (i a : Nat) (v : Word) :
    Memory.read ((s.writeTable tb i v).table tb') a =
      if tb = tb' ∧ a = i then some v else Memory.read (s.table tb') a := by
  rw [State.table_writeTable]
  by_cases h : tb = tb'
  · simp [h, Memory.read_write]
  · simp [h]

/-- The state TABWR leaves differs in the two table memories, SC_PASS and BUSY only. -/
theorem State.complete_clearPass_writeTable (s : State) (tb : TableId) (i : Nat) (v : Word) :
    (s.writeTable tb i v).clearPass.complete =
      { s with
        ft := (s.writeTable tb i v).ft
        it := (s.writeTable tb i v).it
        scPass := false
        busy := false } := by
  cases tb <;> rfl

/-- Settles O52: TABWR's row, its three checks in their order, and the one entry it writes. -/
theorem tabwrRule : Obligations.TabwrRule := by
  refine ⟨decodesAs_of_row (Opcode.ofByte_code .tabwr) fun f => ?_, fun s tb idx v => exec_permission rfl,
    fun s tb idx v hd hv => ?_, fun s tb idx v hd hv hbig => ?_, fun s tb idx v hd hv hfit => ?_⟩
  · simp only [Opcode.reservedZero, Opcode.operands, tableId_ofByte, beq_iff_eq]
    split_ifs <;> rfl
  · exact exec_notReady (fun _ => hd) ((prerequisite_tabwr tb idx v s).trans hv)
  · exact exec_contract (fun _ => hd) ((prerequisite_tabwr tb idx v s).trans hv)
      (brokenContract_tabwr hbig tb idx)
  · refine ⟨(s.writeTable tb idx.toNat v).ft, (s.writeTable tb idx.toNat v).it, ?_,
      fun a => s.read_table_writeTable tb .ft idx.toNat a v,
      fun a => s.read_table_writeTable tb .it idx.toNat a v⟩
    rw [exec_tabwr_of_fits hd hv hfit, State.complete_clearPass_writeTable]

end Sys2Proof.Machine

/-! The words that do not decode: reserved opcodes, and operands outside their ranges (60_exceptions.md R117, R118). -/

namespace Sys2Proof.Machine

/-- A byte in one of the gaps of the opcode map names no opcode (30_encoding.md R63). -/
theorem opcode_ofByte_gap {b : Byte}
    (h : (0x09 ≤ b.toNat ∧ b.toNat ≤ 0x0F) ∨ (0x13 ≤ b.toNat ∧ b.toNat ≤ 0x1F) ∨
      (0x22 ≤ b.toNat ∧ b.toNat ≤ 0x2F) ∨ 0x32 ≤ b.toNat) : Opcode.ofByte b = none := by
  refine Option.eq_none_iff_forall_ne_some.2 fun o ho => ?_
  obtain rfl := Opcode.ofByte_eq_some.1 ho
  revert h
  cases o <;> decide

/-- Step 1 of the command cycle (30_encoding.md R65): an OP that names no opcode raises ILLEGAL_OPCODE. -/
theorem executeCommand_illegalOpcode {s : State} (he : s.err = false)
    (hop : Opcode.ofByte (fieldsOf s.cmdWord).op = none) :
    executeCommand s = .next (raise .illegalOpcode 0 0 0 s) := by
  have hd : decode s.cmdWord = .illegalOpcode := by rw [decode, decodeFields, hop]
  exact (checksInPriorityOrder s he).1 hd

/-- Settles O10: no opcode's code lies in a gap of the map, so the lookup of step 1 fails. -/
theorem reservedOpcodesRaise : Obligations.ReservedOpcodesRaise :=
  fun _ he hgap => executeCommand_illegalOpcode he (opcode_ofByte_gap hgap)

theorem valueReg_ofByte_eq_none_iff {b : Byte} : ValueReg.ofByte b = none ↔ 3 < b.toNat := by
  rw [valueReg_ofByte]
  split_ifs <;> simp <;> bv_omega

theorem tableId_ofByte_eq_none_iff {b : Byte} : TableId.ofByte b = none ↔ 1 < b.toNat := by
  rw [tableId_ofByte]
  split_ifs <;> simp <;> bv_omega

/-- The operands are out of range exactly where SEL or IDX leaves the range of its row (30_encoding.md R61). -/
theorem operands_eq_none_iff {o : Opcode} {f : Fields} :
    o.operands f = none ↔
      (o = .cfg ∧ (2 < f.sel.toNat ∨ 1 < f.idx.toNat)) ∨ (o = .wrreg ∧ 3 < f.sel.toNat) ∨
        ((o = .tabrd ∨ o = .tabwr) ∧ 1 < f.sel.toNat) := by
  cases o with
  | cfg => simp [Opcode.operands, or_iff_not_imp_left]
  | wrreg => simp [Opcode.operands, valueReg_ofByte_eq_none_iff]
  | tabrd | tabwr => simp [Opcode.operands, tableId_ofByte_eq_none_iff]
  | nop | pclr | pexp | pld | prev | xix | xfx | buildf | buildi | schk | adv | ret =>
    simp [Opcode.operands]

/-- Step 2 of the command cycle (30_encoding.md R65): a word in a row of the map raises ILLEGAL_OPERAND when its
reserved fields are not zero or its operands are out of range. -/
theorem executeCommand_illegalOperand {s : State} (he : s.err = false) {o : Opcode}
    (hop : (fieldsOf s.cmdWord).op = o.code)
    (hbad : o.reservedZero (fieldsOf s.cmdWord) = false ∨ o.operands (fieldsOf s.cmdWord) = none) :
    executeCommand s = .next (raise .illegalOperand 0 0 0 s) := by
  have hrow : decodesAs o.code fun f => if o.reservedZero f then o.operands f else none :=
    decodesAs_of_row (Opcode.ofByte_code o) fun _ => rfl
  refine hrow.2 s he hop ?_
  obtain hzero | hnone := hbad
  · simp [hzero]
  · simp [hnone]

/-- Settles O11: the listed conditions are those under which step 2 fails, and without them the row's operands
name a command. -/
theorem badOperandsRaise : Obligations.BadOperandsRaise := by
  refine ⟨fun s he o hop hbad => executeCommand_illegalOperand he hop (hbad.imp_right operands_eq_none_iff.2),
    fun w o hop hzero hcfg hwrreg htab => ?_⟩
  have hsome : o.operands (fieldsOf w) ≠ none := fun hnone => by
    obtain ⟨ho, hr⟩ | ⟨ho, hr⟩ | ⟨ho, hr⟩ := operands_eq_none_iff.1 hnone
    · have := hcfg ho; omega
    · have := hwrreg ho; omega
    · have := htab ho; omega
  obtain ⟨i, hi⟩ := Option.ne_none_iff_exists'.1 hsome
  exact ⟨i, decodeFields_eq_legal_iff.2 ⟨o, hop.symm, hzero, hi⟩⟩

end Sys2Proof.Machine

/-! Taking an error: what the fault procedure writes, and what a failing command has changed besides
(60_exceptions.md R121, R122, R124, R126). -/

namespace Sys2Proof.Machine

theorem State.cmdWord_low (s : State) : s.cmdWord.extractLsb' 0 32 = s.cmdLo :=
  BitVec.extractLsb'_append_eq_right

theorem State.cmdWord_high (s : State) : s.cmdWord.extractLsb' 32 32 = s.cmdHi :=
  BitVec.extractLsb'_append_eq_left

/-- Settles O13: the latches that the fault procedure records are the two halves of the word in flight. -/
theorem faultProcedureWrites : Obligations.FaultProcedureWrites := by
  intro e i0 i1 i2 s
  rw [State.cmdWord_low, State.cmdWord_high, raise]

/-- The fault procedure on the untouched state s, by one of the four errors that are found before a command has
changed anything (60_exceptions.md R118 to R120, R123). -/
inductive FaultsUntouched (s : State) : State → Prop where
  | illegalOperand : FaultsUntouched s (raise .illegalOperand 0 0 0 s)
  | contract (v : Word) : FaultsUntouched s (raise .contract v 0 0 s)
  | notReady : FaultsUntouched s (raise .notReady 0 0 0 s)
  | permission : FaultsUntouched s (raise .permission 0 0 0 s)

theorem FaultsUntouched.eq_raise {s t : State} (h : FaultsUntouched s t) :
    ∃ e i0, (e = .illegalOperand ∨ e = .contract ∨ e = .notReady ∨ e = .permission) ∧
      t = raise e i0 0 0 s := by
  cases h with
  | illegalOperand | notReady | permission => exact ⟨_, 0, by simp, rfl⟩
  | contract v => exact ⟨_, v, by simp, rfl⟩

/-- A command keeps ERR, or faults on the untouched state, or is a BUILDI that has withdrawn IT (R121), or a SCHK
that has cleared its two flags (R122). Unlike `exec_effect`, this says which early errors a command can raise and
with which information words. -/
theorem exec_next_or_fault {i : Instr} {s t : State} (h : exec i s = .next t) :
    t.err = s.err ∨ FaultsUntouched s t ∨
    (i = .buildi ∧ ∃ v b, t = raise .invVerify s.refState v b s.withdrawInverse) ∨
    (i = .schk ∧ ∃ x r b, t = raise .selfCheck x r b s.failCheck) := by
  cases i with
  | nop | pclr | prev | xix | xfx | buildf => cases h; exact .inl rfl
  | cfg c d =>
    obtain ⟨-, rfl⟩ | ⟨S, -, rfl⟩ := execCfg_next h
    · exact .inr (.inl .illegalOperand)
    · exact .inl rfl
  | pexp e =>
    obtain ⟨-, rfl⟩ | ⟨-, rfl⟩ := execPexp_next h
    · exact .inr (.inl (.contract _))
    · exact .inl rfl
  | pld v =>
    obtain ⟨-, rfl⟩ | ⟨-, rfl⟩ := execPld_next h
    · exact .inr (.inl (.contract _))
    · exact .inl rfl
  | wrreg r v =>
    obtain ⟨-, rfl⟩ | ⟨-, rfl⟩ := execWrreg_next h
    · exact .inr (.inl (.contract _))
    · exact .inl (by simp)
  | adv b =>
    obtain ⟨-, rfl⟩ | ⟨-, _, -, rfl⟩ := execAdv_next h
    · exact .inr (.inl .notReady)
    · exact .inl rfl
  | ret b =>
    obtain ⟨-, rfl⟩ | ⟨-, _, -, rfl⟩ := execRet_next h
    · exact .inr (.inl .notReady)
    · exact .inl rfl
  | buildi =>
    obtain ⟨-, rfl⟩ | ⟨-, -, ⟨-, rfl⟩ | ⟨v, b, -, rfl⟩⟩ := execBuildi_next h
    · exact .inr (.inl .notReady)
    · exact .inl rfl
    · exact .inr (.inr (.inl ⟨rfl, v, _, rfl⟩))
  | schk =>
    obtain ⟨-, rfl⟩ | ⟨-, -, -, ⟨-, rfl⟩ | ⟨x, r, b, -, rfl⟩⟩ := execSchk_next h
    · exact .inr (.inl .notReady)
    · exact .inl rfl
    · exact .inr (.inr (.inr ⟨rfl, x, r, _, rfl⟩))
  | tabrd tb idx =>
    obtain ⟨-, rfl⟩ | ⟨-, _, -, rfl⟩ := execTabrd_next h
    · exact .inr (.inl .notReady)
    · exact .inl rfl
  | tabwr tb idx v =>
    obtain ⟨-, rfl⟩ | ⟨-, -, rfl⟩ | ⟨-, -, -, rfl⟩ | ⟨-, -, -, rfl⟩ := execTabwr_next h
    · exact .inr (.inl .permission)
    · exact .inr (.inl .notReady)
    · exact .inr (.inl (.contract _))
    · exact .inl (by simp)

/-- Settles O15: a command that ends with ERR = 1 has not kept ERR, so it has faulted in one of the three ways. -/
theorem faultsArePrecise : Obligations.FaultsArePrecise := by
  intro i s t he h ht
  obtain hkept | hearly | hbuildi | hschk := exec_next_or_fault h
  · simp [hkept, he] at ht
  · exact .inl hearly.eq_raise
  · exact .inr (.inl hbuildi)
  · exact .inr (.inr hschk)

end Sys2Proof.Machine

/-! The halted core (60_exceptions.md R125). -/

namespace Sys2Proof
open Machine

/-- A halted core is not in reset, and no command is in flight. -/
theorem StateInv.halted_idle {s : State} (h : StateInv s) (he : s.err = true) :
    s.bus.resetLine = false ∧ s.busy = false := by
  refine ⟨Bool.eq_false_iff.2 fun hl => ?_, h.halt_idle he⟩
  have hreset : s.err = false := by rw [h.reset_held hl]; rfl
  simp [he] at hreset

end Sys2Proof

namespace Sys2Proof.Machine

/-- A host write changes at most CMD_LO of a halted core: the write of CMD_HI is dropped. -/
theorem State.hostWrite_of_halted {s : State} (he : s.err = true) (o : BitVec 8) (v : Word) :
    ∃ lo, s.hostWrite o v = { s with cmdLo := lo } := by
  by_cases hlo : o = 0x38
  · exact ⟨v, by rw [hlo, State.hostWrite_cmdLo]⟩
  · refine ⟨s.cmdLo, ?_⟩
    by_cases hhi : o = 0x3C
    · rw [hhi, State.hostWrite_cmdHi, State.issue_of_halted he]
    · rw [State.hostWrite_other s v hlo hhi]

/-- Between commands a halted core changes at most in CMD_LO and the bus, unless the host asserts RESET. -/
theorem idleStep_of_halted {s t : State} (he : s.err = true) (hn : s.resetNext = none)
    (h : idleStep s = .next t) : t = { s with cmdLo := t.cmdLo, bus := t.bus } := by
  obtain ⟨o, v, -, rfl⟩ | ⟨-, ⟨-, rfl⟩ | ⟨w, o, v, rest, -, -, rfl⟩ | ⟨w, o, rest, -, -, rfl⟩ |
    ⟨rest, hp, rfl⟩ | ⟨a, rest, -, -, rfl⟩⟩ := idleStep_next h
  · obtain ⟨lo, hw⟩ :=
      State.hostWrite_of_halted (s := { s with bus := { s.bus with held := none } }) he o v
    rw [State.releaseHeld, hw]
  · rfl
  · obtain ⟨lo, hw⟩ := State.hostWrite_of_halted (s := s.afterAction rest) he o v
    rw [hw]; rfl
  · rfl
  · exact absurd (by simp [hp]) (resetNext_eq_none_iff.1 hn)
  · rfl

theorem step_assertReset {s : State} {rest : List HostAction}
    (hp : s.bus.pending = .assertReset :: rest) : step s = .next (s.enterReset rest) := by
  simp [step, clockStep, State.resetNext, hp]

/-- Settles O16: a halted core is between commands, where it drops the CMD_HI write and answers the read; RESET
wins in every phase. -/
theorem haltedCoreDropsCommands : Obligations.HaltedCoreDropsCommands := by
  refine ⟨fun s t hs he hn h => ?_, fun s v rest hs he hh hp => ?_, fun s o rest hs he hh ho hp => ?_,
    fun s rest hp => ⟨_, step_assertReset hp, rfl⟩⟩
  all_goals obtain ⟨hl, hb⟩ := hs.halted_idle he
  · rw [step_idle hn hl hb] at h
    exact idleStep_of_halted he hn h
  · exact (commandIssue s v rest hl hb hh hp).2 he
  · exact step_idle_read hl hb hh ho hp

end Sys2Proof.Machine

/-! Reset and the BUSY window (70_reset_and_hazards.md R138, R139, R140, R144). -/

namespace Sys2Proof.Machine

/-! Admitted accesses while a command runs (70_reset_and_hazards.md R144). -/

theorem isCmdOffset_of_ne {o : BitVec 8} (hlo : o ≠ 0x38) (hhi : o ≠ 0x3C) : isCmdOffset o = false :=
  Bool.or_eq_false_iff.2 ⟨beq_eq_false_iff_ne.2 hlo, beq_eq_false_iff_ne.2 hhi⟩

section
variable {s : State} {k : Nat} (hl : s.bus.resetLine = false) (hb : s.busy = true)
  (hk : s.busyLeft = k + 1) (hh : s.bus.held = none) {o : BitVec 8} (ho : o.toNat % 4 = 0)
  {rest : List HostAction}
include hl hb hk hh ho

theorem step_busy_read (hp : s.bus.pending = .read .w32 o :: rest) :
    step s = .next (({ s with busyLeft := k }.afterAction rest).busyRead o) := by
  rw [step_busy (resetNext_of_cons hp nofun) hl hb hk]
  simp [busyStep, hh, hp, accessRefusal_aligned ho]

theorem step_busy_write {v : Word} (hlo : o ≠ 0x38) (hhi : o ≠ 0x3C)
    (hp : s.bus.pending = .write .w32 o v :: rest) :
    step s = .next ({ s with busyLeft := k }.afterAction rest) := by
  rw [step_busy (resetNext_of_cons hp nofun) hl hb hk]
  simp [busyStep, hh, hp, accessRefusal_aligned ho, isCmdOffset_of_ne hlo hhi]

end

theorem State.busyRead_status (s : State) : s.busyRead 0x00 = s.answerRead s.statusWord := rfl

/-- While BUSY = 1 a register other than STATUS answers the next free value. -/
theorem State.busyRead_register (s : State) {o : BitVec 8} (h0 : o ≠ 0x00) (hlt : o.toNat < 0x40) :
    s.busyRead o =
      { s with bus := { s.bus with
          readData := some (Config.freeRead s.bus.coreId s.bus.draws)
          draws := s.bus.draws + 1 } } := by
  have hfree : definedWhileBusy o = false :=
    Bool.or_eq_false_iff.2 ⟨beq_eq_false_iff_ne.2 h0, decide_eq_false hlt.not_ge⟩
  simp [State.busyRead, hfree]

/-- Settles O23: the STATUS read answers, another read draws a free value, and the write only leaves the list. -/
theorem busyWindow : Obligations.BusyWindow := by
  intro s o k rest hl hb hk hh ho
  refine ⟨?_, fun h0 hlt hp => ?_, fun v => step_busy_write hl hb hk hh ho⟩
  · rintro rfl hp
    have hstep := step_busy_read hl hb hk hh ho hp
    rw [State.busyRead_status] at hstep
    exact ⟨_, hstep, rfl, s.statusWord_fields.1.trans hb, rfl⟩
  · have hstep := step_busy_read hl hb hk hh ho hp
    rw [State.busyRead_register _ h0 hlt] at hstep
    exact ⟨_, _, hstep, rfl, rfl⟩

/-! While RESET is asserted the core shows its reset state (70_reset_and_hazards.md R138). -/

/-- A core in reset differs from the reset state in its bus only. -/
theorem with_bus_of_inReset {s : State} (hs : StateInv s) (hl : s.bus.resetLine = true) (b : HostBus) :
    { s with bus := b } = { State.reset with bus := b } :=
  congrArg (fun t : State => { t with bus := b }) (hs.reset_held hl)

/-- The register window shows nothing of the bus. -/
theorem State.hostRead_with_bus (s : State) (b : HostBus) (o : BitVec 8) :
    State.hostRead { s with bus := b } o = s.hostRead o := rfl

theorem hostRead_of_inReset {s : State} (hs : StateInv s) (hl : s.bus.resetLine = true) (o : BitVec 8) :
    s.hostRead o = State.reset.hostRead o := by
  rw [hs.reset_held hl, State.hostRead_with_bus]

section
variable {s : State} (hl : s.bus.resetLine = true) {rest : List HostAction}
include hl

theorem step_inReset_write {o : BitVec 8} (ho : o.toNat % 4 = 0) {v : Word}
    (hp : s.bus.pending = .write .w32 o v :: rest) : step s = .next (s.afterAction rest) := by
  rw [step_inReset (resetNext_of_cons hp nofun) hl]
  simp [resetStep, hp, accessRefusal_aligned ho]

theorem step_inReset_read {o : BitVec 8} (ho : o.toNat % 4 = 0)
    (hp : s.bus.pending = .read .w32 o :: rest) :
    step s = .next ((s.afterAction rest).answerRead (s.hostRead o)) := by
  rw [step_inReset (resetNext_of_cons hp nofun) hl]
  simp [resetStep, hp, accessRefusal_aligned ho]

theorem step_inReset_release (hp : s.bus.pending = .releaseReset :: rest) :
    step s = .next { s with bus := { s.bus with pending := rest, resetLine := false } } := by
  rw [step_inReset (resetNext_of_cons hp nofun) hl]
  simp [resetStep, hp]

end

/-- Settles O25: RESET comes first in every phase; while it is asserted the invariant makes the core the
reset state, which the reads show and the release keeps. -/
theorem resetWinsAndHolds : Obligations.ResetWinsAndHolds := by
  refine ⟨fun s rest => step_assertReset, fun s o rest hs hl ho =>
    ⟨fun v => step_inReset_write hl ho, fun hp => ?_, fun hp => ?_⟩⟩
  · rw [step_inReset_read hl ho hp, hostRead_of_inReset hs hl]
  · rw [step_inReset_release hl hp, with_bus_of_inReset hs hl]

/-- After reset every offset but those of CFG and REFSTATE reads 0. -/
theorem hostRead_reset {o : BitVec 8} (hcfg : o ≠ 0x04) (href : o ≠ 0x1C) : State.reset.hostRead o = 0 := by
  unfold State.hostRead
  split
  case h_2 h => exact absurd (BitVec.eq_of_toNat_eq h) hcfg
  case h_8 h => exact absurd (BitVec.eq_of_toNat_eq h) href
  all_goals rfl

/-- Settles O1: the two words that are not 0 by their composition, the rest of the window offset by offset, and
TABRD by its missing prerequisite. -/
theorem resetLeavesSpecValues : Obligations.ResetLeavesSpecValues := by
  refine ⟨rfl, rfl, rfl, fun o => hostRead_reset, rfl, fun i => ⟨rfl, rfl⟩, fun tb idx => ?_⟩
  have hinvalid : State.reset.tableValid tb = false := by cases tb <;> rfl
  exact exec_notReady nofun ((prerequisite_tabrd tb idx State.reset).trans hinvalid)

end Sys2Proof.Machine
